-- ==== Sys2Proof/Word.lean ====
section
/-! DEFINITION. The words of the engine: its bytes, halfwords and 32-bit registers (spec/00_scope.md R7 `REG_W`, R8). -/

namespace Sys2Proof

/-- A byte of the buffer memory (R9, R67). -/
abbrev Byte := BitVec 8

/-- A 16-bit value: a CRC, a CRC seed, a VBRI header field. -/
abbrev Half := BitVec 16

/-- A host-visible register: `REG_W` = 32 bits (R7, R33). -/
abbrev Word := BitVec 32

/-- A byte offset of the 4096-byte register space (R100, R101). -/
abbrev Offset := BitVec 12

/-- A source of stream bits: the bit at each bit address of R9 (bit address `8*a + k` is bit `7 - k` of byte `a`). -/
abbrev BitView := Nat → Bool

end Sys2Proof
end

