-- ==== Sys2Proof/Syntax.lean ====
section
/-! DEFINITION. The commands of the engine, one constructor per row of spec/opcode_table.json (spec/30_encoding.md R133, R141). -/

namespace Sys2Proof

/-- A command: what one write to `CMD` asks for. `N` and `IMM16` are the only immediates (R132); every other operand is in `ARG0` or `ARG1` (R135). -/
inductive Instr where
  /-- `nop` (R600). -/
  | nop
  /-- `br.set`: set the cursor (R220). -/
  | brSet
  /-- `br.read n`: read `n` bits, with `n` the field N (R210). -/
  | brRead (n : BitVec 6)
  /-- `br.skip` (R215). -/
  | brSkip
  /-- `br.pos` (R225). -/
  | brPos
  /-- `br.mark` (R230). -/
  | brMark
  /-- `br.dist` (R235). -/
  | brDist
  /-- `br.crc seed`, with `seed` the field IMM16 (R240). -/
  | brCrc (seed : Half)
  /-- `fh.decode` (R330). -/
  | fhDecode
  /-- `fh.framelen` (R335). -/
  | fhFramelen
  /-- `sc.setbuf` (R410). -/
  | scSetbuf
  /-- `sc.extend` (R411). -/
  | scExtend
  /-- `sc.setskip` (R413). -/
  | scSetskip
  /-- `sc.next` (R420). -/
  | scNext
  /-- `sm.parse` (R500). -/
  | smParse
deriving DecidableEq, Repr

end Sys2Proof
end

