-- ==== Sys2Proof/WellFormed.lean ====
section
/-! DEFINITION. Which terms of `Instr` a command word can stand for (spec/30_encoding.md R132, R134). -/

namespace Sys2Proof

/-- `br.read`'s count is at most 32 (R134 (d)); every other field is as wide as its type says. -/
def Instr.wf : Instr → Bool
  | .nop       => true
  | .brSet     => true
  | .brRead n  => n.toNat ≤ 32
  | .brSkip    => true
  | .brPos     => true
  | .brMark    => true
  | .brDist    => true
  | .brCrc _   => true
  | .fhDecode  => true
  | .fhFramelen => true
  | .scSetbuf  => true
  | .scExtend  => true
  | .scSetskip => true
  | .scNext    => true
  | .smParse   => true

end Sys2Proof
end

