-- ==== Sys2Proof/Decode.lean ====
section
/-! DEFINITION. The command word: its fields, the decoder (total on every 32-bit word, rejecting by name) and the encoder (spec/30_encoding.md R132 to R137, R141). A command is one 32-bit register write, so a command word has no byte order (R103, R137). -/

namespace Sys2Proof

/-- Why a command word is illegal: the cases of R134. Each one makes the engine raise `IllegalCommand`. -/
inductive Illegal where
  /-- (a): OP is not in R133's table. -/
  | reservedOp
  /-- (b): bits [15:14] are not 0. -/
  | reservedBits
  /-- (c): N is not 0 and OP is not BR_READ. -/
  | unusedN
  /-- (d): BR_READ with N above 32. -/
  | countTooLarge
  /-- (e): IMM16 is not 0 and OP is not BR_CRC. -/
  | unusedImm
deriving DecidableEq, Repr

/-- OP, bits [7:0] (R132). -/
def opField (w : Word) : BitVec 8 := w.extractLsb' 0 8

/-- N, bits [13:8] (R132). -/
def nField (w : Word) : BitVec 6 := w.extractLsb' 8 6

/-- The reserved bits [15:14] (R132). -/
def reservedField (w : Word) : BitVec 2 := w.extractLsb' 14 2

/-- IMM16, bits [31:16] (R132). -/
def immField (w : Word) : Half := w.extractLsb' 16 16

/-- A command that uses neither immediate: R134 (c) and (e) for it. -/
def decodePlain (i : Instr) (w : Word) : Except Illegal Instr :=
  if nField w ≠ 0 then .error .unusedN
  else if immField w ≠ 0 then .error .unusedImm
  else .ok i

/-- BR_READ: N is the count, IMM16 must be 0 (R134 (d), (e)). -/
def decodeRead (w : Word) : Except Illegal Instr :=
  if 32 < (nField w).toNat then .error .countTooLarge
  else if immField w ≠ 0 then .error .unusedImm
  else .ok (.brRead (nField w))

/-- BR_CRC: IMM16 is the seed, N must be 0 (R134 (c)). -/
def decodeCrc (w : Word) : Except Illegal Instr :=
  if nField w ≠ 0 then .error .unusedN else .ok (.brCrc (immField w))

/-- The opcode map of R133: one arm per listed OP, every other OP reserved (R134 (a)). -/
def decodeOp (w : Word) : Except Illegal Instr :=
  match (opField w).toNat with
  | 0x00 => decodePlain .nop w
  | 0x01 => decodePlain .brSet w
  | 0x02 => decodeRead w
  | 0x03 => decodePlain .brSkip w
  | 0x04 => decodePlain .brPos w
  | 0x05 => decodePlain .brMark w
  | 0x06 => decodePlain .brDist w
  | 0x07 => decodeCrc w
  | 0x10 => decodePlain .fhDecode w
  | 0x11 => decodePlain .fhFramelen w
  | 0x20 => decodePlain .scSetbuf w
  | 0x21 => decodePlain .scExtend w
  | 0x22 => decodePlain .scSetskip w
  | 0x23 => decodePlain .scNext w
  | 0x30 => decodePlain .smParse w
  | _    => .error .reservedOp

/-- The decoder: R132 to R134. -/
def decode (w : Word) : Except Illegal Instr :=
  if reservedField w ≠ 0 then .error .reservedBits else decodeOp w

/-- The command word of the fields OP, N and IMM16, the reserved bits 0 (R132). -/
def commandWord (op : BitVec 8) (n : BitVec 6) (imm : Half) : Word :=
  imm ++ (0#2 ++ (n ++ op))

/-- The encoder: the words of R141. -/
def encode : Instr → Word
  | .nop        => commandWord 0x00#8 0 0
  | .brSet      => commandWord 0x01#8 0 0
  | .brRead n   => commandWord 0x02#8 n 0
  | .brSkip     => commandWord 0x03#8 0 0
  | .brPos      => commandWord 0x04#8 0 0
  | .brMark     => commandWord 0x05#8 0 0
  | .brDist     => commandWord 0x06#8 0 0
  | .brCrc seed => commandWord 0x07#8 0 seed
  | .fhDecode   => commandWord 0x10#8 0 0
  | .fhFramelen => commandWord 0x11#8 0 0
  | .scSetbuf   => commandWord 0x20#8 0 0
  | .scExtend   => commandWord 0x21#8 0 0
  | .scSetskip  => commandWord 0x22#8 0 0
  | .scNext     => commandWord 0x23#8 0 0
  | .smParse    => commandWord 0x30#8 0 0

/-- The instruction the decoder reads from the `nbits`-bit table word `w` (every bit above `nbits` 0): a command is one 32-bit word (R137), so a value of 2^32 or more is none. -/
def decodeTableWord (nbits w : Nat) : Option Instr :=
  let v := w % 2 ^ nbits
  if v < 2 ^ 32 then
    match decode (BitVec.ofNat 32 v) with
    | .ok i    => some i
    | .error _ => none
  else none

end Sys2Proof
end

