-- ==== Sys2Proof/Config.lean ====
section
/-! DEFINITION. What is fixed for one engine: the implementation parameters of spec/00_scope.md R7 (their values are in Machine/Params.lean), and the free values, which the spec leaves open and which have no body here. -/

namespace Sys2Proof

/-- One value for each combination of layer and LSF: the shape of the tables of R310 and R314. -/
structure PerLayer (α : Type) where
  l1    : α
  l2    : α
  l3    : α
  l1Lsf : α
  l2Lsf : α
  l3Lsf : α
deriving DecidableEq, Repr

/-- The parameters of R7, with those of spec/93_implementation_defined.md that it calls `parameter`. Log 2, log 6. -/
structure Config where
  /-- `REG_W`, the width of a register in bits; `Config.wf` holds it at the width of `Word`. Log 22. -/
  regWidth       : Nat
  /-- `MEM_BYTES`, OPEN in the spec (R7, 93 U8): the size of the buffer memory. -/
  memBytes       : Nat
  /-- `GUARD`, the trailing guard region in bytes (R109, 93 U9). -/
  guardBytes     : Nat
  /-- `CRC_POLY`, without the x^16 term (R205, 93 G10). -/
  crcPoly        : Half
  /-- `HDR_CRC_SEED` (R304). -/
  hdrCrcSeed     : Half
  /-- `LAME_CRC_SEED` (R520). -/
  lameCrcSeed    : Half
  /-- `LAME_SPAN_MPEG1` (R503). -/
  lameSpanMpeg1  : Nat
  /-- `LAME_SPAN_LSF` (R503). -/
  lameSpanLsf    : Nat
  /-- `LAME_BLOCK_BYTES` (R172). -/
  lameBlockBytes : Nat
  /-- `TOC_ENTRIES`, the entries of the seek table, at most the 100 registers `SM_TOC` has (R65). Log 22. -/
  tocEntries     : Nat
  /-- `VBRI_OFFSET` (R530). -/
  vbriOffset     : Nat
  /-- `FREE_MIN_KBPS` (R327). -/
  freeMinKbps    : Nat
  /-- `FREE_MAX_L3_KBPS` (R327, R425). -/
  freeMaxL3Kbps  : Nat
  /-- `DURATION_RES`, ticks per second (R315). -/
  durationRes    : Nat
  /-- `STALE_CHECK_L12` (93 S6): `false` in this spec; a model with `true` is no longer this spec. Log 14. -/
  staleCheckL12  : Bool
  /-- `BITRATE_TABLE` in kb/s, by layer and LSF, then by bitrate index (R310). -/
  bitrateTable    : PerLayer (List Nat)
  /-- `SAMPLERATE_TABLE` in Hz (R311). -/
  samplerateTable : List Nat
  /-- `SAMPLES_TABLE`, samples per frame by layer and LSF (R314). -/
  samplesTable    : PerLayer Nat
  /-- The channel-mode value that means one channel (R313, 93 G11). -/
  monoMode       : BitVec 2
  /-- The magics "Xing", "Info", "LAME", "VBRI" (R170, 93 G6). -/
  xingMagic      : Nat
  infoMagic      : Nat
  lameMagic      : Nat
  vbriMagic      : Nat
deriving DecidableEq, Repr

/-- The constraints on the parameters: R7's `64 ≤ MEM_BYTES ≤ 2^28` and `GUARD ≥ 6`, registers as wide as `Word`, and a seek table that fits in `SM_TOC` (R65). -/
abbrev Config.wf (c : Config) : Prop :=
  64 ≤ c.memBytes ∧ c.memBytes ≤ 2 ^ 28 ∧ 6 ≤ c.guardBytes ∧ c.regWidth = 32 ∧ c.tocEntries ≤ 100

/-- FREE VALUE. The byte at an address the host has not written since reset: "any value" (R801, 93 U1). The first argument counts resets, the second is the byte address. Log 3. -/
opaque Config.unwrittenByte : Nat → Nat → BitVec 8

/-- FREE VALUE. Which bit a read through the BitReader cursor returns where the byte it comes from was overwritten while it could be cached: "the old or the new value" (R820, 93 U2). The arguments are the draw number, the pass of the command over the bits, and the bit address. Log 4, log 18. -/
opaque Config.cacheBit : Nat → Nat → Nat → Bool

/-- FREE VALUE. What `SC_FREERATE` holds after a probe whose rate is 2^32 bits/s or more, which the 32-bit register cannot hold (R48 against R326 and R327: no rule states it). The arguments are the draw number and the exact rate. Log 5. -/
opaque Config.wideRate : Nat → Nat → BitVec 32

end Sys2Proof
end

