-- ==== Sys2Proof/Machine/Params.lean ====
section
/-! DEFINITION. The values spec/00_scope.md R7 fixes for the parameters of this hardware, with the tables of spec/41_frameheader.md R310, R311 and R314. MEM_BYTES is OPEN there and stays an argument here. -/

namespace Sys2Proof.Machine

/-- `BITRATE_TABLE`, kb/s, indices 0 to 14 (R310). -/
def specBitrates : PerLayer (List Nat) where
  l1    := [0, 32, 64, 96, 128, 160, 192, 224, 256, 288, 320, 352, 384, 416, 448]
  l2    := [0, 32, 48, 56, 64, 80, 96, 112, 128, 160, 192, 224, 256, 320, 384]
  l3    := [0, 32, 40, 48, 56, 64, 80, 96, 112, 128, 160, 192, 224, 256, 320]
  l1Lsf := [0, 32, 48, 56, 64, 80, 96, 112, 128, 144, 160, 176, 192, 224, 256]
  l2Lsf := [0, 8, 16, 24, 32, 40, 48, 56, 64, 80, 96, 112, 128, 144, 160]
  l3Lsf := [0, 8, 16, 24, 32, 40, 48, 56, 64, 80, 96, 112, 128, 144, 160]

/-- `SAMPLERATE_TABLE`, Hz (R311). -/
def specSamplerates : List Nat := [44100, 48000, 32000]

/-- `SAMPLES_TABLE` (R314). -/
def specSamples : PerLayer Nat where
  l1    := 384
  l2    := 1152
  l3    := 1152
  l1Lsf := 384
  l2Lsf := 1152
  l3Lsf := 576

/-- The engine of this spec with a buffer memory of `n` bytes: R7's value for every other parameter. -/
def specConfig (n : Nat) : Config where
  regWidth        := 32
  memBytes        := n
  guardBytes      := 8
  crcPoly         := 0x1021#16
  hdrCrcSeed      := 0xFFFF#16
  lameCrcSeed     := 0x0000#16
  lameSpanMpeg1   := 190
  lameSpanLsf     := 175
  lameBlockBytes  := 36
  tocEntries      := 100
  vbriOffset      := 36
  freeMinKbps     := 8
  freeMaxL3Kbps   := 640
  durationRes     := 1000000
  staleCheckL12   := false
  bitrateTable    := specBitrates
  samplerateTable := specSamplerates
  samplesTable    := specSamples
  monoMode        := 3#2
  xingMagic       := 0x58696E67
  infoMagic       := 0x496E666F
  lameMagic       := 0x4C414D45
  vbriMagic       := 0x56425249

/-- The buffer size `State.reset` uses, since the spec leaves MEM_BYTES open: the size of spec/95_test_vectors.md. DESIGN CHOICE, unsafe for a claim about `State.reset` alone: log 2. -/
def resetMemBytes : Nat := 4096

end Sys2Proof.Machine
end

