-- ==== Sys2Proof/Machine/State.lean ====
section
/-! DEFINITION. All the state the spec gives the machine (spec/10_state.md), as plain data, with the reasons a step can stop and the state after reset (spec/70_reset_and_hazards.md R800, R801). A field is as wide as the bits that can be nonzero; the 32-bit register views are in Machine/HostPort.lean. -/

namespace Sys2Proof.Machine

/-- The outcome codes of R700, as `STATUS.CODE` and `SC_LAST_ERROR` hold them. Codes 9 to 15 are never written. -/
inductive Code where
  | ok | needMoreData | lostSync | badLayer | badBitrate | badSampleRate | malformed | accessFault | illegalCommand
deriving DecidableEq, Repr

/-- `STATUS` (R35): the outcome code and the two sticky bits; the reserved bits read 0. -/
structure Status where
  code  : Code
  fault : Bool
  ill   : Bool
deriving DecidableEq, Repr

/-- `SC_CTRL.SYNC` (R45, R400). -/
inductive SyncState where
  | unsynced | synced
deriving DecidableEq, Repr

/-- The BitReader's registers (R40, R41): bit addresses. -/
structure BitReader where
  pos  : Word
  mark : Word
deriving DecidableEq, Repr

/-- The StreamCursor's registers (R45 to R49). -/
structure StreamCursor where
  sync      : SyncState
  bufStart  : Word
  bufEnd    : Word
  thisPtr   : Word
  nextPtr   : Word
  skip      : Word
  freeRate  : Word
  lastError : Code
deriving DecidableEq, Repr

/-- The FrameHeader output registers (R55 to R58). `fields` is `HDR_FIELDS`, which the engine writes whole (R331). -/
structure HeaderRegs where
  fields     : Word
  bitrate    : Word
  samplerate : Word
  crc        : Word
  framesize  : Word
  samples    : Word
  duration   : Word
deriving DecidableEq, Repr

/-- `SM_STATUS.KIND` (R60): the tag of the metadata union. -/
inductive TagKind where
  | none | xing | info | lame | vbri
deriving DecidableEq, Repr

/-- `SM_STATUS.LAME_STATE` (R60). -/
inductive LameState where
  | absent | valid | badCrc
deriving DecidableEq, Repr

/-- `SM_STATUS` (R60). -/
structure SeekStatus where
  kind        : TagKind
  framesValid : Bool
  bytesValid  : Bool
  tocValid    : Bool
  scaleValid  : Bool
  lameState   : LameState
  malformed   : Bool
deriving DecidableEq, Repr

/-- The six `SM_VBRI_*` registers (R62). -/
structure VbriRegs where
  version   : Half
  delay     : Half
  entries   : Half
  scale     : Half
  entrySize : Half
  fpe       : Half
deriving DecidableEq, Repr

/-- The fourteen `LAME_*` registers (R63, R174). -/
structure LameRegs where
  revMethod : Byte
  lowpass   : Byte
  peak      : Word
  rg        : Word
  flagsAth  : Byte
  bitrate   : Byte
  delayPad  : BitVec 24
  misc      : Byte
  gain      : Byte
  preset    : Half
  musicLen  : Word
  musicCrc  : Half
  tagCrc    : Half
  crcCalc   : Half
deriving DecidableEq, Repr

/-- The SeekMetadata registers (R60 to R65). -/
structure SeekRegs where
  status    : SeekStatus
  xingFlags : Word
  frames    : Word
  bytes     : Word
  scale     : Word
  vbri      : VbriRegs
  lame      : LameRegs
  /-- `SM_ENC[0..8]` (R64). -/
  enc       : Vector Byte 9
  /-- `SM_TOC[0..99]` (R65). -/
  toc       : Vector Byte 100
deriving DecidableEq, Repr

/-- The bytes of the buffer memory the host has written since reset, by rising address. An address that is not listed holds no written byte and reads as a free value (R67, R801): log 3. -/
abbrev Memory := List Host.Cell

/-- The canonical form: addresses strictly rising. An unlisted address reads as "no byte", which no entry can equal. -/
abbrev Memory.wf (m : Memory) : Prop := m.Pairwise (fun x y => x.1 < y.1)

/-- One action of the host or of the platform on the engine (R30, R66, R105, R802). A width is in bits. Log 1, log 10. -/
inductive HostAction where
  /-- A write of `v` to the register at offset `o`. -/
  | writeReg (width : Nat) (o : Offset) (v : Word)
  /-- A read of the register at offset `o`. -/
  | readReg (width : Nat) (o : Offset)
  /-- A write of the byte `v` to the buffer memory at address `a`. -/
  | writeBuf (width : Nat) (a : Nat) (v : Byte)
  /-- A read of the buffer memory at address `a`. -/
  | readBuf (width : Nat) (a : Nat)
  /-- The reset input (R802). -/
  | reset
deriving DecidableEq, Repr

/-- The state of the engine, its memory and its inputs. -/
structure State where
  /-- The parameters of R7: fixed for the engine, written by no step. Log 2. -/
  cfg      : Config
  /-- `ARG0`, `ARG1` (R31). -/
  arg0     : Word
  arg1     : Word
  /-- `STATUS` (R35). -/
  status   : Status
  /-- `RESULT` (R36). -/
  result   : Word
  /-- `BR_POS`, `BR_MARK`. -/
  br       : BitReader
  /-- `SC_*`. -/
  sc       : StreamCursor
  /-- `HDR_*`. -/
  hdr      : HeaderRegs
  /-- `SM_*`, `LAME_*`. -/
  sm       : SeekRegs
  /-- The buffer memory (R67). -/
  mem      : Memory
  /-- The bytes an implementation's bit cache may still hold: each address the host overwrote while it was at the cursor, with the byte it held before (R42, R820). Log 4. -/
  stale    : List Host.Cell
  /-- MODEL'S OWN: the pending actions of the host, oldest first. Log 1. -/
  host     : List HostAction
  /-- MODEL'S OWN: what the host's last read returned. Log 12. -/
  lastRead : Word
  /-- MODEL'S OWN: how many commands have been issued; each has a draw of the free values of its own. Log 13. -/
  draws    : Nat
  /-- MODEL'S OWN: how many resets the memory has seen; each leaves free values of its own in it. Log 10. -/
  epoch    : Nat
deriving DecidableEq, Repr

/-- A fault would stop the engine. The spec has none: the engine takes no traps, every error is an outcome code and the next command executes normally (R701, R715, R830). So nothing raises one. -/
inductive Fault where
deriving DecidableEq, Repr

/-- Why the model answers no next state. -/
inductive Refusal where
  /-- An instruction that has no meaning yet; raised by `exec` alone. Safe. -/
  | notModelled (mnemonic : String)
  /-- A register access of the host that is not an aligned 32-bit one; raised by the host port. "A model refuses it" (R105, 93 U3). Safe. -/
  | badRegisterAccess
  /-- A buffer access of the host that is not an 8-bit one below `MEM_BYTES`; raised by the host port. "Any other buffer access is likewise refused" (R105). Safe. -/
  | badBufferAccess
deriving DecidableEq, Repr

/-- The answer of a meaning and of a step. -/
abbrev Result := Host.Outcome State Fault Refusal

/-- Every LAME register 0. -/
def LameRegs.zero : LameRegs :=
  { revMethod := 0, lowpass := 0, peak := 0, rg := 0, flagsAth := 0, bitrate := 0, delayPad := 0, misc := 0,
    gain := 0, preset := 0, musicLen := 0, musicCrc := 0, tagCrc := 0, crcCalc := 0 }

/-- Every VBRI register 0. -/
def VbriRegs.zero : VbriRegs :=
  { version := 0, delay := 0, entries := 0, scale := 0, entrySize := 0, fpe := 0 }

/-- `SM_STATUS` = 0. -/
def SeekStatus.zero : SeekStatus :=
  { kind := .none, framesValid := false, bytesValid := false, tocValid := false, scaleValid := false,
    lameState := .absent, malformed := false }

/-- Every SeekMetadata register 0: the reset value, and what `clear_sm` leaves (R501). -/
def SeekRegs.zero : SeekRegs :=
  { status := .zero, xingFlags := 0, frames := 0, bytes := 0, scale := 0, vbri := .zero, lame := .zero,
    enc := Vector.replicate 9 0, toc := Vector.replicate 100 0 }

/-- Every FrameHeader register 0. -/
def HeaderRegs.zero : HeaderRegs :=
  { fields := 0, bitrate := 0, samplerate := 0, crc := 0, framesize := 0, samples := 0, duration := 0 }

/-- The StreamCursor after reset: `Unsynced`, an empty window at address 0 (R800). -/
def StreamCursor.zero : StreamCursor :=
  { sync := .unsynced, bufStart := 0, bufEnd := 0, thisPtr := 0, nextPtr := 0, skip := 0, freeRate := 0,
    lastError := .ok }

/-- The state right after reset of an engine with the parameters `c`: every register 0 (R800), no byte of memory written (R801), no host action pending. -/
def State.resetOf (c : Config) : State :=
  { cfg := c, arg0 := 0, arg1 := 0, status := { code := .ok, fault := false, ill := false }, result := 0,
    br := { pos := 0, mark := 0 }, sc := .zero, hdr := .zero, sm := .zero, mem := [], stale := [], host := [],
    lastRead := 0, draws := 0, epoch := 0 }

/-- The state right after reset, with the parameters of this spec; for the open MEM_BYTES see log 2. -/
def State.reset : State := State.resetOf (specConfig resetMemBytes)

end Sys2Proof.Machine
end

