-- ==== Sys2Proof/Machine/Ops.lean ====
section
/-! DEFINITION. The shared operations: memory (spec/20_memory.md), the stream primitives of spec/00_scope.md R10, the two bit views, and ending a command with a code (spec/60_exceptions.md R701). -/

namespace Sys2Proof

/-- The number of bits of the buffer memory, `8*MEM_BYTES`: the physical bound of R202. -/
def Config.bitLimit (c : Config) : Nat := 8 * c.memBytes

namespace Machine

/-- The byte the host wrote at `a`, if it wrote one since reset. -/
def Memory.get? : Memory → Nat → Option Byte
  | [], _ => none
  | (k, v) :: rest, a => if a = k then some v else Memory.get? rest a

/-- A host write of `v` at `a`, keeping the canonical form. -/
def Memory.set : Memory → Nat → Byte → Memory
  | [], a, v => [(a, v)]
  | (k, w) :: rest, a, v =>
    if a < k then (a, v) :: (k, w) :: rest
    else if a = k then (a, v) :: rest
    else (k, w) :: Memory.set rest a v

/-- `MemRead(a, 1)` of R10: the byte at `a`, a free value where the host has written none (R801). Log 3. -/
def State.byteAt (s : State) (a : Nat) : Byte :=
  (s.mem.get? a).getD (Config.unwrittenByte s.epoch a)

/-- `BitAt(b)` of R10, on the buffer memory as it stands: bit address `8*a + k` is bit `7 - k` of byte `a` (R9). -/
def State.bitAt (s : State) : BitView := fun b => (s.byteAt (b / 8)).getLsbD (7 - b % 8)

/-- `Bits(b, n)` of R10 on the view `v`: the first bit read is the most significant (R201). -/
def bits (v : BitView) (b : Nat) : Nat → Nat
  | 0 => 0
  | n + 1 => 2 * bits v b n + (v (b + n)).toNat

/-- `Bytes(a, n)` of R10: a big-endian `n`-byte value. -/
def bytes (v : BitView) (a n : Nat) : Nat := bits v (8 * a) (8 * n)

/-- Whether the byte that holds bit address `b` has an older copy whose bit differs from the current one (R820). -/
def State.staleAt (s : State) (b : Nat) : Bool :=
  s.stale.any fun c => c.1 == b / 8 && c.2.getLsbD (7 - b % 8) != s.bitAt b

/-- What pass `pass` of a command reads at bit address `b` through the BitReader cursor: the current bit, or, where the bit cache may hold another one, the old or the new bit (R42, R820). Log 4, log 18. -/
def State.cursorBit (s : State) (pass : Nat) : BitView := fun b =>
  if s.staleAt b then Config.cacheBit s.draws pass b else s.bitAt b

/-- The pass in which a command reads its bits or fields. -/
def fieldPass : Nat := 0

/-- The pass in which a command replays bits through the CRC. -/
def crcPass : Nat := 1

/-- `STATUS` after a command ends with code `c`: `AccessFault` also sets FAULT and `IllegalCommand` also sets ILL; neither is ever cleared (R35, R701). -/
def Status.ended (st : Status) (c : Code) : Status :=
  { code := c, fault := st.fault || c == .accessFault, ill := st.ill || c == .illegalCommand }

/-- `raise E` of R10, and `complete` for `ok`: the one operation by which a command ends. No control is transferred and nothing is saved (R701, R715), so there is no return beside it (R716). -/
def State.raise (s : State) (c : Code) : State := { s with status := s.status.ended c }

/-- `complete` of R10. -/
def State.complete (s : State) : State := s.raise .ok

/-- `finish(c)` of R420: SC_NEXT ends with `c` and records it in `SC_LAST_ERROR` too (R49). -/
def State.finish (s : State) (c : Code) : State :=
  ({ s with sc := { s.sc with lastError := c } }).raise c

/-- `STATUS.ILL <- 1; raise IllegalCommand` with no other effect (R131). -/
def illegalCommand (s : State) : Result := .next (s.raise .illegalCommand)

/-- `STATUS.FAULT <- 1; raise AccessFault` with no other effect (R202). -/
def accessFault (s : State) : Result := .next (s.raise .accessFault)

end Machine

end Sys2Proof
end

