-- ==== Sys2Proof/Machine/Crc.lean ====
section
/-! DEFINITION. The CRC-16 of spec/40_bitreader.md R205, and the table form of R206. -/

namespace Sys2Proof.Machine

/-- One bit of the loop of R205: shift left, and add the generator when the outgoing bit and the data bit differ. -/
def crcStep (poly : Half) (c : Half) (d : Bool) : Half :=
  if c.getLsbD 15 ^^ d then (c <<< 1) ^^^ poly else c <<< 1

/-- `crc16(b, n, seed)` of R205 over the `n` bits of the view `v` from bit address `b`. -/
def crc16 (poly : Half) (v : BitView) : Nat → Nat → Half → Half
  | _, 0, c => c
  | b, n + 1, c => crc16 poly v (b + 1) n (crcStep poly c (v b))

/-- `k` shift steps with input bits 0. -/
def crcShift (poly : Half) : Nat → Half → Half
  | 0, c => c
  | k + 1, c => crcShift poly k (crcStep poly c false)

/-- The table `T` of R206: eight shift steps applied to `i * 2^8`. -/
def crcTable (poly : Half) (i : Byte) : Half := crcShift poly 8 (i ++ (0#8 : Byte))

/-- The byte-at-a-time table form of R206 over `n` whole bytes, the first byte at bit address `b`. -/
def crcBytes (poly : Half) (v : BitView) : Nat → Nat → Half → Half
  | _, 0, c => c
  | b, n + 1, c =>
    crcBytes poly v (b + 8) n
      ((c <<< 8) ^^^ crcTable poly (c.extractLsb' 8 8 ^^^ BitVec.ofNat 8 (bits v b 8)))

end Sys2Proof.Machine
end

