-- ==== Sys2Proof/Machine/Operands.lean ====
section
/-! DEFINITION. Every operand form the spec gives (spec/30_encoding.md R133, R135, R136): the two argument registers as addresses and counts, the packed FH_FRAMELEN parameters, the cursor. The immediates N and IMM16 are arguments of their instructions. -/

namespace Sys2Proof.Machine

/-- The layer of a frame (R152): Layer I, II or III. -/
inductive Layer where
  | one | two | three
deriving DecidableEq, Repr

/-- The number of a layer, as `HDR_FIELDS.LAYER` holds it (R55). -/
def Layer.num : Layer → Nat
  | .one => 1
  | .two => 2
  | .three => 3

/-- The layer a layer number names; 0 names none (R136). -/
def Layer.ofNum : Nat → Option Layer
  | 1 => some .one
  | 2 => some .two
  | 3 => some .three
  | _ => none

/-- `ARG0` as a bit address, byte address, bit count, byte count or bitrate: a natural number (R133). -/
def State.arg0Nat (s : State) : Nat := s.arg0.toNat

/-- `ARG1` as an end address or a bit length (R133). -/
def State.arg1Nat (s : State) : Nat := s.arg1.toNat

/-- The BitReader cursor as a bit address (R40). -/
def State.cursor (s : State) : Nat := s.br.pos.toNat

/-- The parameters FH_FRAMELEN finds in `ARG1` (R136). -/
structure FramelenArgs where
  samplerate : Nat
  layer      : Option Layer
  lsf        : Bool
  padding    : Bool
  reserved   : BitVec 12
deriving DecidableEq, Repr

/-- `ARG1` unpacked: [15:0] sample rate, [17:16] layer, [18] LSF, [19] padding, [31:20] must be 0 (R136). -/
def framelenArgs (a : Word) : FramelenArgs :=
  { samplerate := (a.extractLsb' 0 16).toNat,
    layer      := Layer.ofNum (a.extractLsb' 16 2).toNat,
    lsf        := a.getLsbD 18,
    padding    := a.getLsbD 19,
    reserved   := a.extractLsb' 20 12 }

end Sys2Proof.Machine
end

