-- ==== Sys2Proof/Machine/BitReader.lean ====
section
/-! DEFINITION. The BitReader commands (spec/40_bitreader.md). Each checks the physical bound of R202 before it writes anything. -/

namespace Sys2Proof.Machine

/-- Loading `BR_POS` anew: what BR_SET and a committing SC_NEXT do, which also ends the hazard of R820. -/
def State.loadCursor (s : State) (b : Nat) : State :=
  { s with br := { s.br with pos := BitVec.ofNat 32 b }, stale := [] }

/-- Moving `BR_POS` along the stream: the bit cache stays as it is (R820). -/
def State.moveCursor (s : State) (b : Nat) : State :=
  { s with br := { s.br with pos := BitVec.ofNat 32 b } }

/-- `RESULT <- v` (R36). -/
def State.setResult (s : State) (v : Word) : State := { s with result := v }

/-- BR_READ (R210). No command word has N above 32 (R134 (d)); a term that has is treated as that illegal word: log 11. -/
def execBrRead (n : BitVec 6) (s : State) : Result :=
  if 32 < n.toNat then illegalCommand s
  else if s.cfg.bitLimit < s.cursor + n.toNat then accessFault s
  else .next (((s.setResult (BitVec.ofNat 32 (bits (s.cursorBit fieldPass) s.cursor n.toNat))).moveCursor
    (s.cursor + n.toNat)).complete)

/-- BR_SKIP (R215): the sum is exact. -/
def execBrSkip (s : State) : Result :=
  if s.cfg.bitLimit < s.cursor + s.arg0Nat then accessFault s
  else .next ((s.moveCursor (s.cursor + s.arg0Nat)).complete)

/-- BR_SET (R220): the end position `8*MEM_BYTES` is allowed. -/
def execBrSet (s : State) : Result :=
  if s.cfg.bitLimit < s.arg0Nat then accessFault s
  else .next ((s.loadCursor s.arg0Nat).complete)

/-- BR_POS (R225): `ceil8(BR_POS)`. -/
def execBrPos (s : State) : Result :=
  .next ((s.setResult (BitVec.ofNat 32 ((s.cursor + 7) / 8))).complete)

/-- BR_MARK (R230). -/
def execBrMark (s : State) : Result :=
  .next ({ s with br := { s.br with mark := s.br.pos } }).complete

/-- BR_DIST (R235): the difference mod 2^32. -/
def execBrDist (s : State) : Result := .next ((s.setResult (s.br.pos - s.br.mark)).complete)

/-- BR_CRC (R240): the cursor does not move. -/
def execBrCrc (seed : Half) (s : State) : Result :=
  if s.cfg.bitLimit < s.cursor + s.arg0Nat then accessFault s
  else .next ((s.setResult
    ((crc16 s.cfg.crcPoly (s.cursorBit crcPass) s.cursor s.arg0Nat seed).setWidth 32)).complete)

end Sys2Proof.Machine
end

