-- ==== Sys2Proof/Machine/Flags.lean ====
section
/-! DEFINITION. The packed status words: the code numbers of spec/60_exceptions.md R700, `STATUS` (R35), `SC_CTRL` (R45), `SM_STATUS` (R60), and the two bits of `HDR_FIELDS` the engine reads back (R55, R503). -/

namespace Sys2Proof.Machine

/-- The code numbers of R700. -/
def Code.num : Code → Nat
  | .ok => 0
  | .needMoreData => 1
  | .lostSync => 2
  | .badLayer => 3
  | .badBitrate => 4
  | .badSampleRate => 5
  | .malformed => 6
  | .accessFault => 7
  | .illegalCommand => 8

/-- A code as a register shows it, in bits [3:0] (R35, R49). -/
def Code.toWord (c : Code) : Word := BitVec.ofNat 32 c.num

/-- `STATUS`: CODE in [3:0], FAULT in [8], ILL in [9], the rest 0 (R35). -/
def Status.toWord (st : Status) : Word :=
  BitVec.ofNat 32 (st.code.num + st.fault.toNat * 2 ^ 8 + st.ill.toNat * 2 ^ 9)

/-- `SC_CTRL`: SYNC in bit [0] (R45). -/
def SyncState.toWord : SyncState → Word
  | .unsynced => 0
  | .synced => 1

/-- `SM_STATUS.KIND` (R60). -/
def TagKind.num : TagKind → Nat
  | .none => 0
  | .xing => 1
  | .info => 2
  | .lame => 3
  | .vbri => 4

/-- `SM_STATUS.LAME_STATE` (R60). -/
def LameState.num : LameState → Nat
  | .absent => 0
  | .valid => 1
  | .badCrc => 2

/-- `SM_STATUS` (R60). -/
def SeekStatus.toWord (st : SeekStatus) : Word :=
  BitVec.ofNat 32 (st.kind.num + st.framesValid.toNat * 2 ^ 3 + st.bytesValid.toNat * 2 ^ 4
    + st.tocValid.toNat * 2 ^ 5 + st.scaleValid.toNat * 2 ^ 6 + st.lameState.num * 2 ^ 7
    + st.malformed.toNat * 2 ^ 9)

/-- `HDR_FIELDS.VALID`, bit [31] (R55). -/
def HeaderRegs.valid (h : HeaderRegs) : Bool := h.fields.getLsbD 31

/-- `HDR_FIELDS.LSF`, bit [2] (R55). -/
def HeaderRegs.lsf (h : HeaderRegs) : Bool := h.fields.getLsbD 2

end Sys2Proof.Machine
end

