-- ==== Sys2Proof/Machine/FrameHeader.lean ====
section
/-! DEFINITION. The FrameHeader decoder, the frame-length formula, the FreeBitrateProbe and the two FrameHeader commands (spec/41_frameheader.md). -/

namespace Sys2Proof.Machine

/-- The table entry of a layer and an LSF flag. -/
def tableEntry {α : Type} (t : PerLayer α) : Layer → Bool → α
  | .one, false   => t.l1
  | .two, false   => t.l2
  | .three, false => t.l3
  | .one, true    => t.l1Lsf
  | .two, true    => t.l2Lsf
  | .three, true  => t.l3Lsf

/-- The header record of R300. -/
structure Header where
  layer      : Layer
  lsf        : Bool
  mpeg25     : Bool
  prot       : Bool
  brIdx      : BitVec 4
  srIdx      : BitVec 2
  bitrate    : Nat
  samplerate : Nat
  padding    : Bool
  priv       : Bool
  mode       : BitVec 2
  modeExt    : BitVec 2
  copyright  : Bool
  original   : Bool
  emphasis   : BitVec 2
  channels   : BitVec 2
  samples    : Nat
  crcCheck   : Half
  crcTarget  : Half
deriving DecidableEq, Repr

/-- The header errors of R300. -/
inductive HeaderError where
  | badLayer | badBitrate | badSampleRate
deriving DecidableEq, Repr

/-- The outcome code of a header error (R700). -/
def HeaderError.code : HeaderError → Code
  | .badLayer => .badLayer
  | .badBitrate => .badBitrate
  | .badSampleRate => .badSampleRate

/-- The three results of `decode_header` (R300). -/
inductive DecodeResult where
  | ok (h : Header) (len : Nat)
  | err (e : HeaderError)
  | fault
deriving DecidableEq, Repr

/-- The layer of the 2-bit layer field: `4 - LF`, with LF = 0 reserved (R152, R303). -/
def layerOfField (lf : Nat) : Option Layer := Layer.ofNum (4 - lf)

/-- `BITRATE_TABLE[layer][lsf][idx]` in bits/s (R306). -/
def tableBitrate (c : Config) (l : Layer) (lsf : Bool) (idx : Nat) : Nat :=
  (tableEntry c.bitrateTable l lsf).getD idx 0 * 1000

/-- The sample rate, halved under LSF and again under MPEG-2.5 (R308). -/
def tableSamplerate (c : Config) (idx : Nat) (lsf mpeg25 : Bool) : Nat :=
  let r := c.samplerateTable.getD idx 0
  let r := if lsf then r / 2 else r
  if lsf && mpeg25 then r / 2 else r

/-- `channels_of(mode)` (R313). -/
def channelsOf (c : Config) (mode : BitVec 2) : BitVec 2 := if mode = c.monoMode then 1 else 2

/-- The record of a header at bit address `b` whose steps raise nothing, its layer being `l` (R302 to R312): the fields at their bit offsets (R151), read from the view `v`, the CRC check word from the view `cv`. -/
def headerAt (c : Config) (v cv : BitView) (b : Nat) (l : Layer) : Header :=
  let lsf := !v (b + 12)
  let mpeg25 := !v (b + 11)
  let prot := !v (b + 15)
  let mode := BitVec.ofNat 2 (bits v (b + 24) 2)
  { layer      := l,
    lsf        := lsf,
    mpeg25     := mpeg25,
    prot       := prot,
    brIdx      := BitVec.ofNat 4 (bits v (b + 16) 4),
    srIdx      := BitVec.ofNat 2 (bits v (b + 20) 2),
    bitrate    := tableBitrate c l lsf (bits v (b + 16) 4),
    samplerate := tableSamplerate c (bits v (b + 20) 2) lsf mpeg25,
    padding    := v (b + 22),
    priv       := v (b + 23),
    mode       := mode,
    modeExt    := BitVec.ofNat 2 (bits v (b + 26) 2),
    copyright  := v (b + 28),
    original   := v (b + 29),
    emphasis   := BitVec.ofNat 2 (bits v (b + 30) 2),
    channels   := channelsOf c mode,
    samples    := tableEntry c.samplesTable l lsf,
    crcCheck   := if prot then crc16 c.crcPoly cv (b + 16) 16 c.hdrCrcSeed else 0,
    crcTarget  := if prot then BitVec.ofNat 16 (bits v (b + 32) 16) else 0 }

/-- `decode_header(b)` (R300): each step checks its range, reads its field and raises its error before the next step runs. The offsets are the values `pos` takes from `b` on; `cv` is the view the CRC of R304 replays. -/
def decodeHeader (c : Config) (v cv : BitView) (b : Nat) : DecodeResult :=
  if c.bitLimit < b + 13 then .fault                              -- R302: X25, ID
  else if !v (b + 11) && v (b + 12) then .err .badLayer
  else if c.bitLimit < b + 15 then .fault                         -- R303: LF
  else match layerOfField (bits v (b + 13) 2) with
  | none => .err .badLayer
  | some l =>
    if c.bitLimit < b + 16 then .fault                            -- R304: PB
    else if !v (b + 15) && decide (c.bitLimit < b + 32) then .fault  -- R304: the CRC's 16 bits
    else if c.bitLimit < b + 20 then .fault                       -- R305: bitrate index
    else if bits v (b + 16) 4 = 15 then .err .badBitrate
    else if c.bitLimit < b + 22 then .fault                       -- R307: sample-rate index
    else if bits v (b + 20) 2 = 3 then .err .badSampleRate
    else if c.bitLimit < b + 32 then .fault                       -- R309: the remaining 10 bits
    else if !v (b + 15) && decide (c.bitLimit < b + 48) then .fault  -- R312: the CRC target
    else .ok (headerAt c v cv b l) (if v (b + 15) then 32 else 48)

/-- The slots of a Layer II or III frame (R320). -/
def slotsOf (l : Layer) (lsf : Bool) : Nat := if lsf ∧ l = .three then 72 else 144

/-- `framelen` (R320), exact on naturals (R321). -/
def framelen (l : Layer) (lsf : Bool) (br sr : Nat) (pad : Bool) : Nat :=
  match l with
  | .one => ((12 * br) / sr + pad.toNat) * 4
  | _ => (slotsOf l lsf * br) / sr + pad.toNat

/-- `framelen` of a header at a rate in bits/s. -/
def Header.length (h : Header) (rate : Nat) : Nat := framelen h.layer h.lsf rate h.samplerate h.padding

/-- `duration_ticks` (R315). -/
def Header.ticks (h : Header) (c : Config) : Nat := (h.samples * c.durationRes) / h.samplerate

/-- `rate_from_distance` in kb/s (R326): the smallest whole rate whose frame length is at least `d`. -/
def rateFromDistance (l : Layer) (lsf : Bool) (sr : Nat) (pad : Bool) (d : Nat) : Nat :=
  match l with
  | .one => (sr * ((d + 3) / 4 * 4 - 4 * pad.toNat) + 47999) / 48000
  | _ => (sr * (d - pad.toNat) + slotsOf l lsf * 1000 - 1) / (slotsOf l lsf * 1000)

/-- `sync_at(a)` (R150). -/
def State.syncAt (s : State) (a : Nat) : Bool :=
  s.byteAt a == 0xFF#8 && (s.byteAt (a + 1) &&& 0xE0#8) == 0xE0#8

/-- The scan of R325 and R423: the first `p` from here on that is a sync point, or at which `p + 1 < e` fails. The last argument is fuel; `e - p` of it is enough. -/
def scanSync (sync : Nat → Bool) (e : Nat) : Nat → Nat → Nat
  | p, 0 => p
  | p, k + 1 => if p + 1 < e ∧ sync p = false then scanSync sync e (p + 1) k else p

/-- The scan from `p` to the window's end `e`. -/
def State.scan (s : State) (p e : Nat) : Nat := scanSync s.syncAt e p (e - p)

/-- The results of the FreeBitrateProbe (R325). -/
inductive ProbeResult where
  | needMoreData
  | lostSync
  | rate (bps : Nat)
deriving DecidableEq, Repr

/-- `decode_header` at a byte address on the current memory: SC_NEXT and the probe read memory directly (R820). -/
def State.decodeAt (s : State) (p : Nat) : DecodeResult := decodeHeader s.cfg s.bitAt s.bitAt (8 * p)

/-- Whether the peek at `q` is a header of `h`'s layer and sample rate (R325). -/
def State.peekMatches (s : State) (h : Header) (q : Nat) : Bool :=
  match s.decodeAt q with
  | .ok h2 _ => h2.layer = h.layer && h2.samplerate = h.samplerate
  | .err _ => false
  | .fault => false

/-- The plausibility rule for a probed rate in kb/s (R327). -/
def plausibleRate (c : Config) (l : Layer) (k : Nat) : Bool :=
  !(k < c.freeMinKbps || (l = .three && c.freeMaxL3Kbps < k))

/-- The decision on the first matching candidate at `q` (R326, R327). -/
def State.probeRate (s : State) (p : Nat) (h : Header) (q : Nat) : ProbeResult :=
  let k := rateFromDistance h.layer h.lsf h.samplerate h.padding (q - p)
  if plausibleRate s.cfg h.layer k then .rate (k * 1000) else .lostSync

/-- The loop of R325 from `q` on. The last argument is fuel: `q` grows by at least 1 on each pass and stays below the window's end. -/
def State.probeFrom (s : State) (p : Nat) (h : Header) : Nat → Nat → ProbeResult
  | _, 0 => .needMoreData
  | q, k + 1 =>
    let q := s.scan q s.sc.bufEnd.toNat
    if s.sc.bufEnd.toNat < q + s.cfg.guardBytes then .needMoreData
    else if s.peekMatches h q then s.probeRate p h q
    else s.probeFrom p h (q + 1) k

/-- `probe(p, h, e)` (R325): the search starts at the first byte after the header, `ceil8(e)`. -/
def State.probe (s : State) (p : Nat) (h : Header) (e : Nat) : ProbeResult :=
  s.probeFrom p h ((e + 7) / 8) (s.sc.bufEnd.toNat + 1)

/-- `HDR_FIELDS` of a header, from bit [31] down (R55, R331): VALID, the reserved bits [30:23], CHANNELS, EMPHASIS, ORIGINAL, COPYRIGHT, MODE_EXT, MODE, PRIVATE, PADDING, SR_IDX, BR_IDX, PROT, MPEG25, LSF, LAYER. -/
def Header.fieldsWord (h : Header) : Word :=
  1#1 ++ (0#8 ++ (h.channels ++ (h.emphasis ++ (BitVec.ofBool h.original ++ (BitVec.ofBool h.copyright
    ++ (h.modeExt ++ (h.mode ++ (BitVec.ofBool h.priv ++ (BitVec.ofBool h.padding ++ (h.srIdx ++ (h.brIdx
    ++ (BitVec.ofBool h.prot ++ (BitVec.ofBool h.mpeg25 ++ (BitVec.ofBool h.lsf
    ++ BitVec.ofNat 2 h.layer.num))))))))))))))

/-- `write_hdr(h, rate, N)` (R331). -/
def State.writeHdr (s : State) (h : Header) (rate n : Nat) : State :=
  { s with hdr :=
    { fields     := h.fieldsWord,
      bitrate    := BitVec.ofNat 32 rate,
      samplerate := BitVec.ofNat 32 h.samplerate,
      crc        := h.crcCheck ++ h.crcTarget,
      framesize  := BitVec.ofNat 32 n,
      samples    := BitVec.ofNat 32 h.samples,
      duration   := BitVec.ofNat 32 (h.ticks s.cfg) } }

/-- `decode_header(BR_POS)` through the BitReader cursor (R330). -/
def State.decodeAtCursor (s : State) : DecodeResult :=
  decodeHeader s.cfg (s.cursorBit fieldPass) (s.cursorBit crcPass) s.cursor

/-- FH_DECODE (R330): a free-format header ends OK with bitrate and frame size 0, and no probe runs. -/
def execFhDecode (s : State) : Result :=
  match s.decodeAtCursor with
  | .fault => accessFault s
  | .err e => .next (s.raise e.code)
  | .ok h len =>
    let n := if h.bitrate = 0 then 0 else h.length h.bitrate
    .next (((s.writeHdr h h.bitrate n).moveCursor (s.cursor + len)).complete)

/-- FH_FRAMELEN (R335). -/
def execFhFramelen (s : State) : Result :=
  let a := framelenArgs s.arg1
  match a.layer with
  | none => illegalCommand s
  | some l =>
    if a.reserved ≠ 0 ∨ a.samplerate = 0 then illegalCommand s
    else
      let n := framelen l a.lsf s.arg0Nat a.samplerate a.padding
      if 2 ^ s.cfg.regWidth ≤ n then illegalCommand s
      else .next ((s.setResult (BitVec.ofNat 32 n)).complete)

end Sys2Proof.Machine
end

