-- ==== Sys2Proof/Machine/Misc.lean ====
section
/-! DEFINITION. The command that belongs to no unit (spec/44_misc.md). -/

namespace Sys2Proof.Machine

/-- NOP (R600): `STATUS.CODE <- OK`, nothing else. -/
def execNop (s : State) : Result := .next s.complete

end Sys2Proof.Machine
end

