-- ==== Sys2Proof/Machine/SeekMetadata.lean ====
section
/-! DEFINITION. The SeekMetadata unit and SM_PARSE (spec/43_seekmetadata.md), with the tag layouts of spec/30_encoding.md R170 to R175. SM_PARSE reads the memory as it stands (R820). -/

namespace Sys2Proof.Machine

/-- Where a Xing/Info parse stands (R510): the next bit, the bits left, the registers so far. -/
structure XingParse where
  pos  : Nat
  rem  : Nat
  regs : SeekRegs
deriving DecidableEq, Repr

/-- One optional field of R510: absent, or `width` bits that must remain, stored by `put`; none is `Malformed`. -/
def XingParse.field (x : XingParse) (present : Bool) (width : Nat) (put : Nat → SeekRegs → SeekRegs) :
    Option XingParse :=
  if present = false then some x
  else if x.rem < width then none
  else some { pos := x.pos + width, rem := x.rem - width, regs := put x.pos x.regs }

/-- The frame-count field at `pos` (R510). -/
def putFrames (v : BitView) (pos : Nat) (r : SeekRegs) : SeekRegs :=
  { r with frames := BitVec.ofNat 32 (bits v pos 32), status := { r.status with framesValid := true } }

/-- The byte-count field at `pos` (R510). -/
def putBytes (v : BitView) (pos : Nat) (r : SeekRegs) : SeekRegs :=
  { r with bytes := BitVec.ofNat 32 (bits v pos 32), status := { r.status with bytesValid := true } }

/-- The registers `SM_TOC` of a table whose entry `j` is `entry j`; those past TOC_ENTRIES read 0 (R7, R65). -/
def tocRegs (c : Config) (entry : Nat → Nat) : Vector Byte 100 :=
  Vector.ofFn fun j => if j.val < c.tocEntries then BitVec.ofNat 8 (entry j.val) else 0

/-- The TOC_ENTRIES bytes of the TOC at `pos`, stored raw (R510). -/
def putToc (c : Config) (v : BitView) (pos : Nat) (r : SeekRegs) : SeekRegs :=
  { r with toc := tocRegs c fun i => bits v (pos + 8 * i) 8,
           status := { r.status with tocValid := true } }

/-- The quality-scale field at `pos` (R510). -/
def putScale (v : BitView) (pos : Nat) (r : SeekRegs) : SeekRegs :=
  { r with scale := BitVec.ofNat 32 (bits v pos 32), status := { r.status with scaleValid := true } }

/-- `parse_xing(pos, rem)` (R510) from cleared registers; none is `Malformed`. -/
def parseXing (c : Config) (v : BitView) (pos rem : Nat) : Option SeekRegs :=
  if rem < 32 then none
  else
    let flags : Word := BitVec.ofNat 32 (bits v pos 32)
    let x : XingParse := { pos := pos + 32, rem := rem - 32, regs := { SeekRegs.zero with xingFlags := flags } }
    (x.field (flags.getLsbD 0) 32 (putFrames v)).bind fun x =>
    (x.field (flags.getLsbD 1) 32 (putBytes v)).bind fun x =>
    (x.field (flags.getLsbD 2) (8 * c.tocEntries) (putToc c v)).bind fun x =>
    (x.field (flags.getLsbD 3) 32 (putScale v)).bind fun x => some x.regs

/-- The frame the parse looks at: start, size and LAME span (R503). -/
structure FrameContext where
  start : Nat
  size  : Nat
  span  : Nat
deriving DecidableEq, Repr

/-- `frame_context()` (R503). -/
def State.frameContext (s : State) : FrameContext :=
  { start := s.sc.thisPtr.toNat,
    size  := if s.hdr.valid then s.hdr.framesize.toNat else 0,
    span  := if s.hdr.lsf then s.cfg.lameSpanLsf else s.cfg.lameSpanMpeg1 }

/-- `accept_lame(B)` (R521, layout of R174); the two CRC words are already there. -/
def acceptLame (v : BitView) (b : Nat) (r : SeekRegs) : SeekRegs :=
  { r with
    enc := Vector.ofFn fun i => BitVec.ofNat 8 (bytes v (b + i.val) 1),
    lame := { r.lame with
      revMethod := BitVec.ofNat 8 (bytes v (b + 9) 1),
      lowpass   := BitVec.ofNat 8 (bytes v (b + 10) 1),
      peak      := BitVec.ofNat 32 (bytes v (b + 11) 4),
      rg        := BitVec.ofNat 32 (bytes v (b + 15) 4),
      flagsAth  := BitVec.ofNat 8 (bytes v (b + 19) 1),
      bitrate   := BitVec.ofNat 8 (bytes v (b + 20) 1),
      delayPad  := BitVec.ofNat 24 (bytes v (b + 21) 3),
      misc      := BitVec.ofNat 8 (bytes v (b + 24) 1),
      gain      := BitVec.ofNat 8 (bytes v (b + 25) 1),
      preset    := BitVec.ofNat 16 (bytes v (b + 26) 2),
      musicLen  := BitVec.ofNat 32 (bytes v (b + 28) 4),
      musicCrc  := BitVec.ofNat 16 (bytes v (b + 32) 2) },
    status := { r.status with lameState := .valid } }

/-- The CRC the engine computes over the frame's first `span` bytes (R520). -/
def lameCrc (c : Config) (v : BitView) (f : FrameContext) : Half :=
  crc16 c.crcPoly v (8 * f.start) (8 * f.span) c.lameCrcSeed

/-- The stored CRC, right after the covered range (R172, R520). -/
def lameStored (v : BitView) (f : FrameContext) : Half := BitVec.ofNat 16 (bytes v (f.start + f.span) 2)

/-- `lame_check` (R520, R522). -/
def lameCheck (c : Config) (v : BitView) (f : FrameContext) (r : SeekRegs) : SeekRegs :=
  if f.size < f.span + 2 ∨ c.memBytes < f.start + f.size then r
  else
    let r := { r with lame := { r.lame with tagCrc := lameStored v f, crcCalc := lameCrc c v f } }
    if lameCrc c v f = lameStored v f then acceptLame v (f.start + f.span + 2 - c.lameBlockBytes) r
    else { r with status := { r.status with lameState := .badCrc } }

/-- Every SM register 0 but `MALFORMED` (R511, R531). -/
def SeekRegs.malformed : SeekRegs :=
  { SeekRegs.zero with status := { SeekStatus.zero with malformed := true } }

/-- `B[k]` of R540: the bytes of the entries before entry `k`. -/
def tocOffset (v : Nat → Nat) : Nat → Nat
  | 0 => 0
  | k + 1 => tocOffset v k + v k

/-- `toc[j]` of R540, of `m` time boundaries, for `n` entries of `v i` bytes each. -/
def tocEntry (m : Nat) (v : Nat → Nat) (n nbytes j : Nat) : Nat :=
  let k := (j * n) / m
  let r := j * n - m * k
  min 255 ((256 * (m * tocOffset v k + r * v k)) / (m * nbytes))

/-- The header fields of a VBRI tag (R175), as naturals. -/
structure VbriHeader where
  version : Nat
  delay   : Nat
  quality : Nat
  nbytes  : Nat
  nframes : Nat
  n       : Nat
  scale   : Nat
  es      : Nat
  fpe     : Nat
deriving DecidableEq, Repr

/-- The header of the tag whose magic is at byte address `a` (R175, R531). -/
def vbriHeader (v : BitView) (a : Nat) : VbriHeader :=
  { version := bytes v (a + 4) 2, delay := bytes v (a + 6) 2, quality := bytes v (a + 8) 2,
    nbytes := bytes v (a + 10) 4, nframes := bytes v (a + 14) 4, n := bytes v (a + 18) 2,
    scale := bytes v (a + 20) 2, es := bytes v (a + 22) 2, fpe := bytes v (a + 24) 2 }

/-- The consistency test of R531. -/
def VbriHeader.inconsistent (x : VbriHeader) (c : Config) (size : Nat) : Bool :=
  x.n = 0 || x.es < 1 || 4 < x.es || x.nbytes = 0 || size < c.vbriOffset + 26 + x.n * x.es

/-- Native entry `i` of the table, an `es`-byte big-endian value (R175, R531). -/
def vbriEntry (v : BitView) (a : Nat) (x : VbriHeader) (i : Nat) : Nat := bytes v (a + 26 + i * x.es) x.es

/-- The registers of a consistent VBRI tag (R531, R540). -/
def vbriRegs (c : Config) (v : BitView) (a : Nat) (x : VbriHeader) : SeekRegs :=
  { SeekRegs.zero with
    status := { SeekStatus.zero with
      kind := .vbri, framesValid := true, bytesValid := true, tocValid := true, scaleValid := true },
    frames := BitVec.ofNat 32 x.nframes,
    bytes  := BitVec.ofNat 32 x.nbytes,
    scale  := BitVec.ofNat 32 x.quality,
    vbri   := { version := BitVec.ofNat 16 x.version, delay := BitVec.ofNat 16 x.delay,
                entries := BitVec.ofNat 16 x.n, scale := BitVec.ofNat 16 x.scale,
                entrySize := BitVec.ofNat 16 x.es, fpe := BitVec.ofNat 16 x.fpe },
    toc    := tocRegs c (tocEntry c.tocEntries (fun i => vbriEntry v a x i * x.scale) x.n x.nbytes) }

/-- `parse_vbri` (R531) at the magic's byte address `a`; none is `Malformed`. A frame too short for the header fails the size test whatever those fields read: log 19. -/
def parseVbri (c : Config) (v : BitView) (a size : Nat) : Option SeekRegs :=
  let x := vbriHeader v a
  if x.inconsistent c size then none else some (vbriRegs c v a x)

/-- `vbri` (R530): no tag leaves every register 0. -/
def findVbri (c : Config) (v : BitView) (f : FrameContext) : Option SeekRegs :=
  if f.size < c.vbriOffset + 4 ∨ c.memBytes < f.start + f.size then some .zero
  else if bytes v (f.start + c.vbriOffset) 4 ≠ c.vbriMagic then some .zero
  else parseVbri c v (f.start + c.vbriOffset) f.size

/-- The magic dispatch of R505 on the `l` bits at bit address `t`. -/
def tagKindAt (c : Config) (v : BitView) (t l : Nat) : TagKind :=
  if l < 32 then .none
  else
    let magic := bits v t 32
    if magic = c.xingMagic then .xing
    else if magic = c.infoMagic then .info
    else if magic = c.lameMagic then .lame
    else .none

/-- `SM_STATUS.KIND <- k` (R500). -/
def SeekRegs.setKind (r : SeekRegs) (k : TagKind) : SeekRegs := { r with status := { r.status with kind := k } }

/-- The SM registers SM_PARSE leaves, or none for `Malformed` (R500 after its range check). -/
def parseTag (c : Config) (v : BitView) (f : FrameContext) (t l : Nat) : Option SeekRegs :=
  match tagKindAt c v t l with
  | .xing => (parseXing c v (t + 32) (l - 32)).map fun r => lameCheck c v f (r.setKind .xing)
  | .info => (parseXing c v (t + 32) (l - 32)).map fun r => lameCheck c v f (r.setKind .info)
  | .lame => some (lameCheck c v f (SeekRegs.zero.setKind .lame))
  | .vbri => findVbri c v f
  | .none => findVbri c v f

/-- SM_PARSE (R500). -/
def execSmParse (s : State) : Result :=
  if s.cfg.bitLimit < s.arg0Nat + s.arg1Nat then accessFault s
  else match parseTag s.cfg s.bitAt s.frameContext s.arg0Nat s.arg1Nat with
    | some r => .next (({ s with sm := r }).complete)
    | none => .next (({ s with sm := .malformed }).raise .malformed)

end Sys2Proof.Machine
end

