-- ==== Sys2Proof/Machine/StreamCursor.lean ====
section
/-! DEFINITION. The StreamCursor and its four commands (spec/42_streamcursor.md). -/

namespace Sys2Proof.Machine

/-- SC_SET_BUFFER (R410). -/
def execScSetbuf (s : State) : Result :=
  if s.arg1Nat < s.arg0Nat ∨ s.cfg.memBytes < s.arg1Nat then illegalCommand s
  else .next (({ s with sc := { s.sc with
    bufStart := s.arg0, bufEnd := s.arg1, thisPtr := s.arg0, nextPtr := s.arg0, sync := .unsynced } }).complete)

/-- SC_EXTEND (R411). -/
def execScExtend (s : State) : Result :=
  if s.arg0Nat < s.sc.bufEnd.toNat ∨ s.cfg.memBytes < s.arg0Nat then illegalCommand s
  else .next (({ s with sc := { s.sc with bufEnd := s.arg0 } }).complete)

/-- SC_SET_SKIP (R413). -/
def execScSetskip (s : State) : Result :=
  .next (({ s with sc := { s.sc with skip := s.arg0 } }).complete)

/-- `SC_NEXT_PTR <- p`. -/
def State.setNext (s : State) (p : Nat) : State :=
  { s with sc := { s.sc with nextPtr := BitVec.ofNat 32 p } }

/-- Demotion at `p`: `SC_THIS_PTR <- p; SC_NEXT_PTR <- p + 1; SC_CTRL.SYNC <- 0` (R422, R424, R425). -/
def State.demote (s : State) (p : Nat) : State :=
  { s with sc := { s.sc with
    thisPtr := BitVec.ofNat 32 p, nextPtr := BitVec.ofNat 32 (p + 1), sync := .unsynced } }

/-- The skip phase when the window holds the skipped bytes (R421). -/
def State.applySkip (s : State) : State :=
  { s with sc := { s.sc with nextPtr := BitVec.ofNat 32 (s.sc.nextPtr.toNat + s.sc.skip.toNat), skip := 0 } }

/-- What the search for a sync point finds (R422, R423). -/
inductive Candidate where
  | needMoreData
  | lost
  | found (p : Nat)
deriving DecidableEq, Repr

/-- The candidate sync point from `base` on: R422 when `Synced`, R423 when `Unsynced`. -/
def State.candidate (s : State) (base : Nat) : Candidate :=
  match s.sc.sync with
  | .synced =>
    if s.sc.bufEnd.toNat < base + s.cfg.guardBytes then .needMoreData
    else if s.syncAt base then .found base else .lost
  | .unsynced =>
    let p := s.scan base s.sc.bufEnd.toNat
    if s.sc.bufEnd.toNat < p + s.cfg.guardBytes then .needMoreData else .found p

/-- Whether the cached free rate is usable for a header of layer `l` (R425); the last clause is 93 S6's parameter, off in this spec (log 14). -/
def State.cacheUsable (s : State) (l : Layer) : Bool :=
  s.sc.freeRate ≠ 0 && s.sc.sync = .synced
    && !(l = .three && s.cfg.freeMaxL3Kbps * 1000 < s.sc.freeRate.toNat)
    && !(s.cfg.staleCheckL12 && l ≠ .three && s.sc.freeRate.toNat < s.cfg.freeMinKbps * 1000)

/-- What `SC_FREERATE` holds after a probe gives `rate` (R425): the rate, or, where REG_W bits cannot hold it, a free value no smaller than the smallest accepted rate (R327). Log 5. -/
def State.rateWord (s : State) (rate : Nat) : Word :=
  if rate < 2 ^ s.cfg.regWidth then BitVec.ofNat 32 rate
  else BitVec.ofNat 32 (max (Config.wideRate s.draws rate).toNat (s.cfg.freeMinKbps * 1000))

/-- What resolving the rate of a header gives (R425): the value `SC_FREERATE` then has, and the rate to use. -/
inductive Resolved where
  | needMoreData
  | lostSync
  | rate (cache : Word) (bps : Nat)
deriving DecidableEq, Repr

/-- R425 for the header `h` of `len` bits at `p`. -/
def State.resolve (s : State) (p : Nat) (h : Header) (len : Nat) : Resolved :=
  if h.bitrate ≠ 0 then .rate s.sc.freeRate h.bitrate
  else if s.cacheUsable h.layer then .rate s.sc.freeRate s.sc.freeRate.toNat
  else match s.probe p h (8 * p + len) with
    | .needMoreData => .needMoreData
    | .lostSync => .lostSync
    | .rate r => .rate (s.rateWord r) (s.rateWord r).toNat

/-- `SC_FREERATE <- v`. -/
def State.setFreeRate (s : State) (v : Word) : State := { s with sc := { s.sc with freeRate := v } }

/-- The commit of R427 for the frame of `n` bytes at `p`. -/
def State.commit (s : State) (p : Nat) (h : Header) (len rate n : Nat) : State :=
  (({ s with sc := { s.sc with
      thisPtr := BitVec.ofNat 32 p, nextPtr := BitVec.ofNat 32 (p + n), sync := .synced } }).writeHdr h rate n).loadCursor
    (8 * p + len)

/-- R425 to R427 for a decoded header at `p`, after the skip phase. -/
def State.advance (s : State) (p : Nat) (h : Header) (len : Nat) : State :=
  match s.resolve p h len with
  | .needMoreData => (s.setNext p).finish .needMoreData
  | .lostSync => (s.demote p).finish .lostSync
  | .rate cache r =>
    let n := h.length r
    if s.sc.bufEnd.toNat < p + n then ((s.setFreeRate cache).setNext p).finish .needMoreData
    else ((s.setFreeRate cache).commit p h len r n).finish .ok

/-- SC_NEXT after the skip phase has left the state `s`; `s0` is the state at the start of the command. A decode never ends `Fault` while R440's invariants hold (R441); otherwise R10's rule for a read past memory applies: `AccessFault` before any state is written (log 8). -/
def State.nextFrame (s0 s : State) : State :=
  let base := s.sc.nextPtr.toNat
  match s.candidate base with
  | .needMoreData => s.finish .needMoreData
  | .lost => (s.demote base).finish .lostSync
  | .found p =>
    match s.decodeAt p with
    | .fault => s0.finish .accessFault
    | .err e => (s.demote p).finish e.code
    | .ok h len => s.advance p h len

/-- SC_NEXT (R420 to R427): the skip phase (R421), then the rest. -/
def execScNext (s : State) : Result :=
  if s.sc.skip = 0 then .next (s.nextFrame s)
  else if s.sc.bufEnd.toNat < s.sc.nextPtr.toNat + s.sc.skip.toNat then .next (s.finish .needMoreData)
  else .next (s.nextFrame s.applySkip)

end Sys2Proof.Machine
end

