-- ==== Sys2Proof/Machine/Dispatch.lean ====
section
/-! DEFINITION. Which meaning each command has: one arm per constructor of Instr. -/

namespace Sys2Proof.Machine

def exec (i : Instr) (s : State) : Host.Outcome State Fault Refusal :=
  match i with
  | .nop => Sys2Proof.Machine.execNop s
  | .brSet => Sys2Proof.Machine.execBrSet s
  | .brRead n => Sys2Proof.Machine.execBrRead n s
  | .brSkip => Sys2Proof.Machine.execBrSkip s
  | .brPos => Sys2Proof.Machine.execBrPos s
  | .brMark => Sys2Proof.Machine.execBrMark s
  | .brDist => Sys2Proof.Machine.execBrDist s
  | .brCrc seed => Sys2Proof.Machine.execBrCrc seed s
  | .fhDecode => Sys2Proof.Machine.execFhDecode s
  | .fhFramelen => Sys2Proof.Machine.execFhFramelen s
  | .scSetbuf => Sys2Proof.Machine.execScSetbuf s
  | .scExtend => Sys2Proof.Machine.execScExtend s
  | .scSetskip => Sys2Proof.Machine.execScSetskip s
  | .scNext => Sys2Proof.Machine.execScNext s
  | .smParse => Sys2Proof.Machine.execSmParse s

end Sys2Proof.Machine
end

