-- ==== Sys2Proof/Machine/HostPort.lean ====
section
/-! DEFINITION. The host's side of the engine: the register map (spec/10_state.md R33, R34, R66), the buffer accesses (spec/20_memory.md R105), issuing a command (spec/30_encoding.md R131), and reset (spec/70_reset_and_hazards.md R802). -/

namespace Sys2Proof.Machine

/-- The registers of R33 below 0x100, by offset; an unmapped offset reads 0 (R66) and so does `CMD` (R34). -/
def State.readFixed (s : State) (o : Nat) : Word :=
  match o with
  | 0x000 => 0
  | 0x004 => s.arg0
  | 0x008 => s.arg1
  | 0x00C => s.status.toWord
  | 0x010 => s.result
  | 0x014 => s.br.pos
  | 0x018 => s.br.mark
  | 0x020 => s.sc.sync.toWord
  | 0x024 => s.sc.bufStart
  | 0x028 => s.sc.bufEnd
  | 0x02C => s.sc.thisPtr
  | 0x030 => s.sc.nextPtr
  | 0x034 => s.sc.skip
  | 0x038 => s.sc.freeRate
  | 0x03C => s.sc.lastError.toWord
  | 0x040 => s.hdr.fields
  | 0x044 => s.hdr.bitrate
  | 0x048 => s.hdr.samplerate
  | 0x04C => s.hdr.crc
  | 0x050 => s.hdr.framesize
  | 0x054 => s.hdr.samples
  | 0x058 => s.hdr.duration
  | 0x080 => s.sm.status.toWord
  | 0x084 => s.sm.xingFlags
  | 0x088 => s.sm.frames
  | 0x08C => s.sm.bytes
  | 0x090 => s.sm.scale
  | 0x094 => s.sm.vbri.version.setWidth 32
  | 0x098 => s.sm.vbri.delay.setWidth 32
  | 0x09C => s.sm.vbri.entries.setWidth 32
  | 0x0A0 => s.sm.vbri.scale.setWidth 32
  | 0x0A4 => s.sm.vbri.entrySize.setWidth 32
  | 0x0A8 => s.sm.vbri.fpe.setWidth 32
  | 0x0C0 => s.sm.lame.revMethod.setWidth 32
  | 0x0C4 => s.sm.lame.lowpass.setWidth 32
  | 0x0C8 => s.sm.lame.peak
  | 0x0CC => s.sm.lame.rg
  | 0x0D0 => s.sm.lame.flagsAth.setWidth 32
  | 0x0D4 => s.sm.lame.bitrate.setWidth 32
  | 0x0D8 => s.sm.lame.delayPad.setWidth 32
  | 0x0DC => s.sm.lame.misc.setWidth 32
  | 0x0E0 => s.sm.lame.gain.setWidth 32
  | 0x0E4 => s.sm.lame.preset.setWidth 32
  | 0x0E8 => s.sm.lame.musicLen
  | 0x0EC => s.sm.lame.musicCrc.setWidth 32
  | 0x0F0 => s.sm.lame.tagCrc.setWidth 32
  | 0x0F4 => s.sm.lame.crcCalc.setWidth 32
  | _ => 0

/-- Register `i` of an array of byte registers; past its end, an unmapped offset. -/
def readArray {n : Nat} (v : Vector Byte n) (i : Nat) : Word := ((v[i]?).getD 0).setWidth 32

/-- A host read of the register at the (aligned) offset `o`: the map of R33, `SM_ENC` from 0x100 and `SM_TOC` from 0x200. -/
def State.readRegister (s : State) (o : Offset) : Word :=
  if o.toNat < 0x100 then s.readFixed o.toNat
  else if o.toNat < 0x200 then readArray s.sm.enc ((o.toNat - 0x100) / 4)
  else readArray s.sm.toc ((o.toNat - 0x200) / 4)

/-- A write of `w` to `CMD` (R131): one indivisible step. An illegal word raises `IllegalCommand` and changes nothing else. -/
def command (w : Word) (s : State) : Result :=
  match decode w with
  | .ok i => exec i s
  | .error _ => illegalCommand s

/-- Issuing a command: it has a draw of the free values of its own (log 13). -/
def State.nextDraw (s : State) : State := { s with draws := s.draws + 1 }

/-- A host write of `v` to the register at the (aligned) offset `o`: `CMD`, `ARG0` and `ARG1` are the writable ones, every other write is ignored (R33, R66). -/
def writeRegister (o : Offset) (v : Word) (s : State) : Result :=
  match o.toNat with
  | 0x000 => command v s.nextDraw
  | 0x004 => .next { s with arg0 := v }
  | 0x008 => .next { s with arg1 := v }
  | _ => .next s

/-- Whether the byte at `a` may be in the bit cache: one of the two bytes at the cursor (R820). -/
def State.cacheWindow (s : State) (a : Nat) : Bool := a == s.cursor / 8 || a == s.cursor / 8 + 1

/-- A host write of `v` to the buffer byte at `a`; the byte it replaces may live on in the bit cache (R820). Log 4. -/
def State.writeByte (s : State) (a : Nat) (v : Byte) : State :=
  { s with
    mem   := s.mem.set a v,
    stale := if s.cacheWindow a then (a, s.byteAt a) :: s.stale else s.stale }

/-- A register access of the engine: 32 bits wide and aligned (R105). -/
def wordAccess (width : Nat) (o : Offset) : Bool := width == 32 && o.toNat % 4 == 0

/-- A buffer access: 8 bits wide and below `MEM_BYTES` (R105). -/
def State.byteAccess (s : State) (width a : Nat) : Bool := width == 8 && decide (a < s.cfg.memBytes)

/-- Reset (R800 to R802): every register to its reset value, every byte of memory to a value nobody knows. The parameters stay, and so do the host's own fields. Log 10. -/
def State.hostReset (s : State) : State :=
  { State.resetOf s.cfg with host := s.host, lastRead := s.lastRead, draws := s.draws, epoch := s.epoch + 1 }

/-- One action of the host or the platform (R66, R105, R802). An access R105 gives no meaning is refused. -/
def hostStep (a : HostAction) (s : State) : Result :=
  match a with
  | .writeReg width o v => if wordAccess width o then writeRegister o v s else .refused .badRegisterAccess
  | .readReg width o =>
    if wordAccess width o then .next { s with lastRead := s.readRegister o } else .refused .badRegisterAccess
  | .writeBuf width a v => if s.byteAccess width a then .next (s.writeByte a v) else .refused .badBufferAccess
  | .readBuf width a =>
    if s.byteAccess width a then .next { s with lastRead := (s.byteAt a).setWidth 32 }
    else .refused .badBufferAccess
  | .reset => .next s.hostReset

/-- The host action a write of the command word `w` is. -/
def commandWrite (w : Word) : HostAction := .writeReg 32 0x000 w

/-- `s` once its oldest pending action is taken off, with that action. -/
def State.popHost (s : State) : Option (HostAction × State) :=
  match s.host with
  | [] => none
  | a :: rest => some (a, { s with host := rest })

/-- `s` with the action `a` pending before every other. -/
def State.pushHost (s : State) (a : HostAction) : State := { s with host := a :: s.host }

end Sys2Proof.Machine
end

