-- ==== Sys2Proof/Machine/Step.lean ====
section
/-! DEFINITION. One step: the next action of the host, or nothing (spec/20_memory.md R112, spec/70_reset_and_hazards.md R830). -/

namespace Sys2Proof.Machine

/-- One step of the whole: the oldest pending action of the host takes place. Without one the engine is idle and its state does not change (R830). -/
def step (s : State) : Host.Outcome State Fault Refusal :=
  match s.popHost with
  | none => .next s
  | some (a, t) => hostStep a t

/-- `s` with a write of the command word `w` (`nbits` bits of it, every bit above 0) to `CMD` as the host's next action: what fetching is on this engine (R32). Log 1. -/
def State.withFetchWord (s : State) (nbits w : Nat) : State :=
  s.pushHost (commandWrite (BitVec.ofNat 32 (w % 2 ^ nbits)))

end Sys2Proof.Machine
end

