-- ==== Sys2Proof/Safety.lean ====
section
/-! DEFINITION. What holds of every state of a run, and what a conforming host does: the terms the statements use. -/

namespace Sys2Proof.Machine

/-- The pointer chain of R440: `SC_BUF_START ≤ SC_THIS_PTR ≤ SC_NEXT_PTR ≤ SC_BUF_END ≤ MEM_BYTES`. -/
abbrev State.Pointers (s : State) : Prop :=
  s.sc.bufStart.toNat ≤ s.sc.thisPtr.toNat ∧ s.sc.thisPtr.toNat ≤ s.sc.nextPtr.toNat ∧
    s.sc.nextPtr.toNat ≤ s.sc.bufEnd.toNat ∧ s.sc.bufEnd.toNat ≤ s.cfg.memBytes

/-- The cursor bound of R40 and R202, and the same for the saved position. -/
abbrev State.Cursors (s : State) : Prop :=
  s.br.pos.toNat ≤ s.cfg.bitLimit ∧ s.br.mark.toNat ≤ s.cfg.bitLimit

/-- The buffer memory is in canonical form and lists addresses below `MEM_BYTES` only (R9, R67). -/
abbrev State.MemOk (s : State) : Prop := s.mem.wf ∧ ∀ c ∈ s.mem, c.1 < s.cfg.memBytes

/-- The header registers are what R55 says they can be: all 0 until a decode has ended OK, and after that a layer of 1 to 3, a bitrate index other than 15, a sample-rate index other than 3, 1 or 2 channels, and bits [30:23] 0. -/
abbrev HeaderRegs.Legal (h : HeaderRegs) : Prop :=
  if h.valid then
    h.fields.extractLsb' 0 2 ≠ 0 ∧ h.fields.extractLsb' 5 4 ≠ 15#4 ∧ h.fields.extractLsb' 9 2 ≠ 3#2 ∧
      (h.fields.extractLsb' 21 2 = 1#2 ∨ h.fields.extractLsb' 21 2 = 2#2) ∧ h.fields.extractLsb' 23 8 = 0#8
  else h = .zero

/-- The tagged union of R501: a field whose valid bit is 0 reads 0, the VBRI registers are 0 unless KIND is VBRI (R62), the LAME registers and SM_ENC are 0 unless LAME_STATE is 1, but for the two CRC words, which are 0 unless it is 1 or 2 (R63, R64); a malformed parse leaves nothing else (R511, R531). -/
structure SeekRegs.Union (r : SeekRegs) : Prop where
  frames    : r.status.framesValid = false → r.frames = 0
  bytes     : r.status.bytesValid = false → r.bytes = 0
  toc       : r.status.tocValid = false → r.toc = Vector.replicate 100 0
  scale     : r.status.scaleValid = false → r.scale = 0
  xing      : r.status.kind ≠ .xing → r.status.kind ≠ .info → r.xingFlags = 0
  vbri      : r.status.kind ≠ .vbri → r.vbri = .zero
  vbriLame  : r.status.kind = .vbri → r.status.lameState = .absent
  lame      : r.status.lameState ≠ .valid →
    { r.lame with tagCrc := 0, crcCalc := 0 } = LameRegs.zero ∧ r.enc = Vector.replicate 9 0
  lameCrc   : r.status.lameState = .absent → r.lame = .zero
  malformed : r.status.malformed = true → r = .malformed

/-- `SC_FREERATE` holds no rate, or one the probe may accept (R48, R327), where 32 bits can hold such a rate. -/
abbrev State.FreeRateOk (s : State) : Prop :=
  s.cfg.freeMinKbps * 1000 < 2 ^ 32 → s.sc.freeRate = 0 ∨ s.cfg.freeMinKbps * 1000 ≤ s.sc.freeRate.toNat

/-- What every step keeps. -/
structure State.Inv (s : State) : Prop where
  cfg      : s.cfg.wf
  mem      : s.MemOk
  cursors  : s.Cursors
  pointers : s.Pointers
  freeRate : s.FreeRateOk
  header   : s.hdr.Legal
  seek     : s.sm.Union

/-- An action R105 gives a meaning on an engine with the parameters `c`. -/
def HostAction.legal (c : Config) : HostAction → Bool
  | .writeReg width o _ => wordAccess width o
  | .readReg width o => wordAccess width o
  | .writeBuf width a _ => width == 8 && decide (a < c.memBytes)
  | .readBuf width a => width == 8 && decide (a < c.memBytes)
  | .reset => true

/-- A conforming host: every action it has pending has a meaning. -/
abbrev State.Conforming (s : State) : Prop := ∀ a ∈ s.host, a.legal s.cfg = true

/-- `b` is what `a` becomes by one action of the host that is no reset and no SC_SET_BUFFER, the two that start the stream anew (R442, R802). -/
def State.Continues (a b : State) : Prop :=
  ∃ x : HostAction, x ≠ .reset ∧ (∀ width w, x = .writeReg width 0x000 w → decode w ≠ .ok .scSetbuf) ∧
    hostStep x a = .next b

/-- `x` is what a read through the BitReader cursor may see (R820): at each bit address the current bit, or the bit of a byte the host has overwritten there while it could be in the bit cache. Without such a byte, `x` is the memory as it stands. -/
abbrev State.Seen (s : State) (x : BitView) : Prop :=
  (∀ b, x b = s.bitAt b ∨ ∃ old : Byte, (b / 8, old) ∈ s.stale ∧ x b = old.getLsbD (7 - b % 8)) ∧
    (s.stale = [] → x = s.bitAt)

/-- `base` of R430: where SC_NEXT's search starts once the skip phase has been applied (R421). -/
def State.base (s : State) : Nat := s.sc.nextPtr.toNat + s.sc.skip.toNat

/-- `p` is the candidate sync point of SC_NEXT: a sync pattern with a full guard, at `base` itself when `Synced` (R422), and the first one from `base` on when `Unsynced` (R423). -/
abbrev State.SyncPoint (s : State) (p : Nat) : Prop :=
  s.syncAt p = true ∧ p + s.cfg.guardBytes ≤ s.sc.bufEnd.toNat ∧ s.base ≤ p ∧
    (s.sc.sync = .synced → p = s.base) ∧ ∀ q < p, s.base ≤ q → s.syncAt q = false

/-- `q` is the candidate the FreeBitrateProbe accepts for the header `h` whose bits end at bit address `e`: the first sync point from the first byte after the header on whose peeked header has the layer and the sample rate of `h`, with a full guard behind it (R325). -/
abbrev State.ProbeHit (s : State) (h : Header) (e q : Nat) : Prop :=
  s.syncAt q = true ∧ s.peekMatches h q = true ∧ q + s.cfg.guardBytes ≤ s.sc.bufEnd.toNat ∧ (e + 7) / 8 ≤ q ∧
    ∀ r < q, (e + 7) / 8 ≤ r → (s.syncAt r && s.peekMatches h r) = false

/-- The cached free rate may not be used for a header of layer `l` (R425). -/
abbrev State.MustProbe (s : State) (l : Layer) : Prop :=
  s.sc.freeRate = 0 ∨ s.sc.sync = .unsynced ∨ (l = .three ∧ s.cfg.freeMaxL3Kbps * 1000 < s.sc.freeRate.toNat)

/-- The parameters are those this spec fixes, for whatever MEM_BYTES R7 allows. -/
abbrev State.SpecConfig (s : State) : Prop :=
  s.cfg = specConfig s.cfg.memBytes ∧ s.cfg.wf

end Sys2Proof.Machine
end

