-- ==== Sys2Proof/Certificates/Slice0/Obligations.lean ====
section
/-! DEFINITION. The statements about the engine, from the numbered rules of spec/. A state `{ s with … }` in a conclusion says everything the command leaves unchanged: every register, every byte of memory (`State.byteAt` reads `mem` and `epoch` alone) and the parameters. -/

open Sys2Proof Sys2Proof.Machine

/-! ### The command word -/

/-- R141: the words of the base commands. -/
def Obligations.CommandWordsDecode : Prop :=
  decode 0x00000000#32 = .ok .nop ∧ decode 0x00000001#32 = .ok .brSet ∧
  (∀ n : BitVec 6, n.toNat ≤ 32 → decode (BitVec.ofNat 32 (0x00000002 + n.toNat * 0x100)) = .ok (.brRead n)) ∧
  decode 0x00000003#32 = .ok .brSkip ∧ decode 0x00000004#32 = .ok .brPos ∧ decode 0x00000005#32 = .ok .brMark ∧
  decode 0x00000006#32 = .ok .brDist ∧
  (∀ seed : Half, decode (BitVec.ofNat 32 (0x00000007 + seed.toNat * 0x10000)) = .ok (.brCrc seed)) ∧
  decode 0x00000010#32 = .ok .fhDecode ∧ decode 0x00000011#32 = .ok .fhFramelen ∧
  decode 0x00000020#32 = .ok .scSetbuf ∧ decode 0x00000021#32 = .ok .scExtend ∧
  decode 0x00000022#32 = .ok .scSetskip ∧ decode 0x00000023#32 = .ok .scNext ∧ decode 0x00000030#32 = .ok .smParse

/-- R132, R133: every well-formed command is what its own word decodes to. -/
def Obligations.DecodeEncodeRoundTrip : Prop :=
  ∀ i : Instr, i.wf = true → decode (encode i) = .ok i

/-- R132, R133: a legal word decodes to a well-formed command, and is the one word of that command. -/
def Obligations.LegalWordIsTheWordOfItsCommand : Prop :=
  ∀ (w : Word) (i : Instr), decode w = .ok i → i.wf = true ∧ encode i = w

/-- R134: a word is legal unless (a) OP is reserved, (b) bits [15:14] are not 0, (c) N is not 0 outside BR_READ, (d) N is above 32 in BR_READ, (e) IMM16 is not 0 outside BR_CRC; an illegal one, written to CMD, raises IllegalCommand and changes no other state. -/
def Obligations.IllegalWordsRaiseIllegalCommand : Prop :=
  ∀ w : Word,
    let op := w.toNat % 2 ^ 8
    let n := w.toNat / 2 ^ 8 % 2 ^ 6
    let imm := w.toNat / 2 ^ 16
    let bad := op ∉ [0x00, 0x01, 0x02, 0x03, 0x04, 0x05, 0x06, 0x07, 0x10, 0x11, 0x20, 0x21, 0x22, 0x23, 0x30] ∨
      w.toNat / 2 ^ 14 % 2 ^ 2 ≠ 0 ∨ (op ≠ 0x02 ∧ n ≠ 0) ∨ (op = 0x02 ∧ 32 < n) ∨ (op ≠ 0x07 ∧ imm ≠ 0)
    (¬bad → ∃ i, decode w = .ok i) ∧
    (bad → ∀ (s : State) (rest : List HostAction), s.host = .writeReg 32 0x000 w :: rest →
      step s = .next { s with host := rest, draws := s.draws + 1,
                              status := { code := .illegalCommand, fault := s.status.fault, ill := true } })

/-- R131: a legal command word written to CMD runs its command; the step takes the write off the host's list and gives the command its own draw of the free values (the model's own fields, log 1 and log 13). -/
def Obligations.StepRunsTheDecodedCommand : Prop :=
  ∀ (s : State) (w : Word) (i : Instr) (rest : List HostAction),
    s.host = .writeReg 32 0x000 w :: rest → decode w = .ok i →
    step s = exec i { s with host := rest, draws := s.draws + 1 }

/-! ### The host's side, reset, invariants -/

/-- R33, R34, R66: what a host read returns at each offset. -/
def Obligations.RegisterMapReads : Prop :=
  ∀ s : State,
    (∀ o : Offset, (o = 0x000 ∨ o = 0x01C ∨ (0x05C ≤ o ∧ o < 0x080) ∨ (0x0AC ≤ o ∧ o < 0x0C0) ∨
      (0x0F8 ≤ o ∧ o < 0x100) ∨ (0x124 ≤ o ∧ o < 0x200) ∨ 0x390 ≤ o) → s.readRegister o = 0) ∧
    s.readRegister 0x004 = s.arg0 ∧ s.readRegister 0x008 = s.arg1 ∧
    s.readRegister 0x00C = BitVec.ofNat 32 (s.status.code.num + 2 ^ 8 * s.status.fault.toNat + 2 ^ 9 * s.status.ill.toNat) ∧
    s.readRegister 0x010 = s.result ∧ s.readRegister 0x014 = s.br.pos ∧ s.readRegister 0x018 = s.br.mark ∧
    s.readRegister 0x020 = (if s.sc.sync = .synced then 1 else 0) ∧
    s.readRegister 0x024 = s.sc.bufStart ∧ s.readRegister 0x028 = s.sc.bufEnd ∧
    s.readRegister 0x02C = s.sc.thisPtr ∧ s.readRegister 0x030 = s.sc.nextPtr ∧ s.readRegister 0x034 = s.sc.skip ∧
    s.readRegister 0x038 = s.sc.freeRate ∧ s.readRegister 0x03C = BitVec.ofNat 32 s.sc.lastError.num ∧
    s.readRegister 0x040 = s.hdr.fields ∧ s.readRegister 0x044 = s.hdr.bitrate ∧
    s.readRegister 0x048 = s.hdr.samplerate ∧ s.readRegister 0x04C = s.hdr.crc ∧
    s.readRegister 0x050 = s.hdr.framesize ∧ s.readRegister 0x054 = s.hdr.samples ∧
    s.readRegister 0x058 = s.hdr.duration ∧
    s.readRegister 0x080 = BitVec.ofNat 32 (s.sm.status.kind.num + 2 ^ 3 * s.sm.status.framesValid.toNat
      + 2 ^ 4 * s.sm.status.bytesValid.toNat + 2 ^ 5 * s.sm.status.tocValid.toNat
      + 2 ^ 6 * s.sm.status.scaleValid.toNat + 2 ^ 7 * s.sm.status.lameState.num
      + 2 ^ 9 * s.sm.status.malformed.toNat) ∧
    s.readRegister 0x084 = s.sm.xingFlags ∧ s.readRegister 0x088 = s.sm.frames ∧
    s.readRegister 0x08C = s.sm.bytes ∧ s.readRegister 0x090 = s.sm.scale ∧
    (s.readRegister 0x094).toNat = s.sm.vbri.version.toNat ∧ (s.readRegister 0x098).toNat = s.sm.vbri.delay.toNat ∧
    (s.readRegister 0x09C).toNat = s.sm.vbri.entries.toNat ∧ (s.readRegister 0x0A0).toNat = s.sm.vbri.scale.toNat ∧
    (s.readRegister 0x0A4).toNat = s.sm.vbri.entrySize.toNat ∧ (s.readRegister 0x0A8).toNat = s.sm.vbri.fpe.toNat ∧
    (s.readRegister 0x0C0).toNat = s.sm.lame.revMethod.toNat ∧ (s.readRegister 0x0C4).toNat = s.sm.lame.lowpass.toNat ∧
    s.readRegister 0x0C8 = s.sm.lame.peak ∧ s.readRegister 0x0CC = s.sm.lame.rg ∧
    (s.readRegister 0x0D0).toNat = s.sm.lame.flagsAth.toNat ∧ (s.readRegister 0x0D4).toNat = s.sm.lame.bitrate.toNat ∧
    (s.readRegister 0x0D8).toNat = s.sm.lame.delayPad.toNat ∧ (s.readRegister 0x0DC).toNat = s.sm.lame.misc.toNat ∧
    (s.readRegister 0x0E0).toNat = s.sm.lame.gain.toNat ∧ (s.readRegister 0x0E4).toNat = s.sm.lame.preset.toNat ∧
    s.readRegister 0x0E8 = s.sm.lame.musicLen ∧ (s.readRegister 0x0EC).toNat = s.sm.lame.musicCrc.toNat ∧
    (s.readRegister 0x0F0).toNat = s.sm.lame.tagCrc.toNat ∧ (s.readRegister 0x0F4).toNat = s.sm.lame.crcCalc.toNat ∧
    (∀ i : Fin 9, (s.readRegister (BitVec.ofNat 12 (0x100 + 4 * i.val))).toNat = (s.sm.enc[i.val]).toNat) ∧
    (∀ i : Fin 100, (s.readRegister (BitVec.ofNat 12 (0x200 + 4 * i.val))).toNat = (s.sm.toc[i.val]).toNat)

/-- R830, R66, R105, R107: without an action of the host nothing changes; and the host's accesses. A register read and a buffer read change nothing but what the host holds (`lastRead`, the model's own field, log 12); ARG0 and ARG1 take what is written; a write to any other register but CMD is ignored; an access that is not an aligned 32-bit register access or an 8-bit access below MEM_BYTES is refused. -/
def Obligations.HostAccessesFollowTheAccessRules : Prop :=
  ∀ (s : State) (rest : List HostAction) (o : Offset) (v : Word) (width a : Nat) (x : Byte),
    (s.host = [] → step s = .next s) ∧
    (s.host = .readReg 32 o :: rest → o.toNat % 4 = 0 →
      step s = .next { s with host := rest, lastRead := s.readRegister o }) ∧
    (s.host = .writeReg 32 0x004 v :: rest → step s = .next { s with host := rest, arg0 := v }) ∧
    (s.host = .writeReg 32 0x008 v :: rest → step s = .next { s with host := rest, arg1 := v }) ∧
    (s.host = .writeReg 32 o v :: rest → o.toNat % 4 = 0 → o ≠ 0x000 → o ≠ 0x004 → o ≠ 0x008 →
      step s = .next { s with host := rest }) ∧
    (s.host = .readBuf 8 a :: rest → a < s.cfg.memBytes →
      step s = .next { s with host := rest, lastRead := (s.byteAt a).setWidth 32 }) ∧
    ((width ≠ 32 ∨ o.toNat % 4 ≠ 0) → (s.host = .readReg width o :: rest ∨ s.host = .writeReg width o v :: rest) →
      step s = .refused .badRegisterAccess) ∧
    ((width ≠ 8 ∨ s.cfg.memBytes ≤ a) → (s.host = .readBuf width a :: rest ∨ s.host = .writeBuf width a x :: rest) →
      step s = .refused .badBufferAccess)

/-- R67, R100, R112: a host write of a buffer byte is what every later read of that byte sees, every other byte and every register keeps its value. -/
def Obligations.BufferReadAfterWrite : Prop :=
  ∀ (s : State) (rest : List HostAction) (a : Nat) (v : Byte),
    s.host = .writeBuf 8 a v :: rest → a < s.cfg.memBytes →
    ∃ t, step s = .next t ∧ t.byteAt a = v ∧ (∀ b, b ≠ a → t.byteAt b = s.byteAt b) ∧
      (s.mem.wf → t.mem.wf) ∧
      t = { s with host := rest, mem := t.mem, stale := t.stale }

/-- R105: a host that makes only the accesses this spec gives a meaning never stops the engine, whatever command words and operands it writes. -/
def Obligations.ConformingHostNeverStops : Prop :=
  ∀ s : State, s.Conforming → ∃ t, step s = .next t ∧ t.Conforming

/-- R800: every register reads 0 after reset, whatever MEM_BYTES is; the state meets every invariant; from it SC_NEXT ends NeedMoreData, and SM_PARSE with T = L = 0 ends OK with no tag found. -/
def Obligations.ResetStateAsStated : Prop :=
  ∀ c : Config, c.wf →
    (∀ o : Offset, (State.resetOf c).readRegister o = 0) ∧ (State.resetOf c).sc.sync = .unsynced ∧
    (State.resetOf c).Pointers ∧ (State.resetOf c).Cursors ∧
    (∃ t, exec .scNext (State.resetOf c) = .next t ∧ t.status.code = .needMoreData) ∧
    (∃ t, exec .smParse (State.resetOf c) = .next t ∧ t.status.code = .ok ∧ t.sm.status.kind = .none)

/-- R800 to R802: the reset input gives every register its reset value from any state, and keeps the parameters; the bytes of memory become free values (log 10). -/
def Obligations.ResetInputClearsEveryRegister : Prop :=
  ∀ (s : State) (rest : List HostAction), s.host = .reset :: rest →
    ∃ t, step s = .next t ∧ (∀ o : Offset, t.readRegister o = 0) ∧ t.cfg = s.cfg ∧ t.host = rest ∧
      t.mem = [] ∧ t.stale = []

/-- The invariant of Safety.lean holds after reset. -/
def Obligations.InvariantsHoldAtReset : Prop := State.reset.Inv

/-- R440 (the pointer chain), R40 and R202 (the cursor bound), R48 and R327 (no cached rate, or one the probe may accept), R55 and 93 U5 (the header fields and the reserved bits), R501, R62 to R64 (the tagged union), the canonical form of memory: every step keeps them, from every state. -/
def Obligations.EveryStepKeepsTheInvariants : Prop :=
  ∀ s t : State, s.Inv → step s = .next t → t.Inv

/-! ### Rules for all commands -/

/-- R135, R67: no command changes ARG0 or ARG1, and no command writes the buffer memory. -/
def Obligations.CommandsKeepTheArgumentsAndTheBuffer : Prop :=
  ∀ (i : Instr) (s t : State), exec i s = .next t →
    t.arg0 = s.arg0 ∧ t.arg1 = s.arg1 ∧ t.mem = s.mem ∧ ∀ a, t.byteAt a = s.byteAt a

/-- R35: a command sets FAULT exactly when it ends AccessFault and ILL exactly when it ends IllegalCommand, and clears neither. -/
def Obligations.StickyBitsAreNeverCleared : Prop :=
  ∀ (i : Instr) (s t : State), exec i s = .next t →
    (t.status.fault = true ↔ s.status.fault = true ∨ t.status.code = .accessFault) ∧
    (t.status.ill = true ↔ s.status.ill = true ∨ t.status.code = .illegalCommand)

/-- R36: RESULT is written by BR_READ, BR_POS, BR_DIST, BR_CRC and FH_FRAMELEN alone, and only when they end OK. -/
def Obligations.ResultIsKeptUnlessAValueIsReturned : Prop :=
  ∀ (i : Instr) (s t : State), exec i s = .next t →
    (t.status.code ≠ .ok ∨ ((∀ n, i ≠ .brRead n) ∧ i ≠ .brPos ∧ i ≠ .brDist ∧ (∀ x, i ≠ .brCrc x) ∧ i ≠ .fhFramelen)) →
    t.result = s.result

/-- R49: SC_NEXT records the code it ends with, and no other command writes SC_LAST_ERROR. -/
def Obligations.OnlyScNextRecordsItsCode : Prop :=
  ∀ (i : Instr) (s t : State), exec i s = .next t →
    if i = .scNext then t.sc.lastError = t.status.code else t.sc.lastError = s.sc.lastError

/-- R330, R427 and the introduction of 10_state.md section 7 (D42): the header registers change only in an FH_DECODE or SC_NEXT that ends OK, and then VALID is set. -/
def Obligations.HeaderRegistersChangeOnlyOnASuccessfulDecode : Prop :=
  ∀ (i : Instr) (s t : State), exec i s = .next t →
    if (i = .fhDecode ∨ i = .scNext) ∧ t.status.code = .ok then t.hdr.fields.getLsbD 31 = true else t.hdr = s.hdr

/-- The 'Writes' lines of the commands' rules (40_bitreader.md R210 to R240, R330, R335, R410, R411, R413, R420, R500, R600; STATUS apart, which every command writes): the commands that write each register; every other command leaves it as it was. SM_PARSE writes nothing but its registers and STATUS. No command changes the parameters or the model's own fields (logs 1, 10, 12, 13). -/
def Obligations.RegistersBelongToTheirUnits : Prop :=
  ∀ (i : Instr) (s t : State), exec i s = .next t →
    (i ≠ .smParse → t.sm = s.sm) ∧ (i = .smParse → t = { s with sm := t.sm, status := t.status }) ∧
    (i ≠ .brMark → t.br.mark = s.br.mark) ∧
    ((∀ n, i ≠ .brRead n) → i ≠ .brSkip → i ≠ .brSet → i ≠ .fhDecode → i ≠ .scNext → t.br.pos = s.br.pos) ∧
    ((∀ n, i ≠ .brRead n) → i ≠ .brPos → i ≠ .brDist → (∀ x, i ≠ .brCrc x) → i ≠ .fhFramelen → t.result = s.result) ∧
    (i ≠ .fhDecode → i ≠ .scNext → t.hdr = s.hdr) ∧
    (i ≠ .scSetbuf → i ≠ .scExtend → i ≠ .scSetskip → i ≠ .scNext → t.sc = s.sc) ∧
    (i ≠ .scSetbuf → t.sc.bufStart = s.sc.bufStart) ∧
    (i ≠ .scSetbuf → i ≠ .scExtend → t.sc.bufEnd = s.sc.bufEnd) ∧
    (i ≠ .scSetbuf → i ≠ .scNext →
      t.sc.thisPtr = s.sc.thisPtr ∧ t.sc.nextPtr = s.sc.nextPtr ∧ t.sc.sync = s.sc.sync) ∧
    (i ≠ .scSetskip → i ≠ .scNext → t.sc.skip = s.sc.skip) ∧
    (i ≠ .scNext → t.sc.freeRate = s.sc.freeRate ∧ t.sc.lastError = s.sc.lastError) ∧
    t.arg0 = s.arg0 ∧ t.arg1 = s.arg1 ∧ t.mem = s.mem ∧
    t.cfg = s.cfg ∧ t.host = s.host ∧ t.lastRead = s.lastRead ∧ t.draws = s.draws ∧ t.epoch = s.epoch

/-- R700: the commands that can end with each code. -/
def Obligations.EachCodeComesFromItsCommands : Prop :=
  ∀ (i : Instr) (s t : State), s.Inv → i.wf = true → exec i s = .next t →
    (t.status.code = .needMoreData → i = .scNext) ∧ (t.status.code = .lostSync → i = .scNext) ∧
    (t.status.code = .badLayer → i = .fhDecode ∨ i = .scNext) ∧
    (t.status.code = .badBitrate → i = .fhDecode ∨ i = .scNext) ∧
    (t.status.code = .badSampleRate → i = .fhDecode ∨ i = .scNext) ∧
    (t.status.code = .malformed → i = .smParse) ∧
    (t.status.code = .accessFault →
      (∃ n, i = .brRead n) ∨ i = .brSkip ∨ i = .brSet ∨ (∃ x, i = .brCrc x) ∨ i = .fhDecode ∨ i = .smParse) ∧
    (t.status.code = .illegalCommand → i = .fhFramelen ∨ i = .scSetbuf ∨ i = .scExtend)

/-! ### NOP and the BitReader -/

/-- R600: the word 0 is NOP, every other word with OP 0 is illegal, and NOP writes STATUS.CODE alone. -/
def Obligations.NopOnlyResetsTheCode : Prop :=
  decode 0x00000000#32 = .ok .nop ∧
  (∀ (w : Word) (i : Instr), w ≠ 0 → w.toNat % 2 ^ 8 = 0 → decode w ≠ .ok i) ∧
  ∀ s : State, exec .nop s = .next { s with status := { s.status with code := .ok } }

/-- R210, R201, with R820's hazard: RESULT is the `n` bits at the cursor, the first one most significant and the rest of the register 0, and the cursor moves by `n`. The bits are those of the memory as it stands, or, where the host has overwritten a byte behind the bit cache, the old or the new ones, bit by bit (`State.Seen`; the choice is free, log 4). -/
def Obligations.BrReadReturnsTheBitsMsbFirst : Prop :=
  ∀ (s : State) (n : BitVec 6), s.cfg.wf → n.toNat ≤ 32 → s.br.pos.toNat + n.toNat ≤ 8 * s.cfg.memBytes →
    ∃ (x : BitView) (v p : Word), s.Seen x ∧
      exec (.brRead n) s = .next { s with result := v, br := { s.br with pos := p },
                                          status := { s.status with code := .ok } } ∧
      p.toNat = s.br.pos.toNat + n.toNat ∧
      (∀ i < n.toNat, v.getLsbD (n.toNat - 1 - i) = x (s.br.pos.toNat + i)) ∧
      (∀ i, n.toNat ≤ i → v.getLsbD i = false)

/-- R820: a host write records the byte it replaces exactly when the address is one of the two at the cursor; a BR_SET or an SC_NEXT that ends OK ends the hazard. -/
def Obligations.HazardLastsUntilTheCursorIsLoaded : Prop :=
  (∀ (s : State) (rest : List HostAction) (a : Nat) (v : Byte),
    s.host = .writeBuf 8 a v :: rest → a < s.cfg.memBytes →
    ∃ t, step s = .next t ∧
      t.stale = if a = s.br.pos.toNat / 8 ∨ a = s.br.pos.toNat / 8 + 1 then (a, s.byteAt a) :: s.stale else s.stale) ∧
  (∀ (i : Instr) (s t : State), exec i s = .next t →
    t.stale = if t.status.code = .ok ∧ (i = .brSet ∨ i = .scNext) then [] else s.stale)

/-- R202: a BitReader command that would read or move past `8*MEM_BYTES` sets FAULT, ends AccessFault and changes nothing else. -/
def Obligations.BitReaderFaultsPastMemory : Prop :=
  ∀ s : State,
    let faulted : Result := .next { s with status := { code := .accessFault, fault := true, ill := s.status.ill } }
    (∀ n : BitVec 6, n.toNat ≤ 32 → 8 * s.cfg.memBytes < s.br.pos.toNat + n.toNat → exec (.brRead n) s = faulted) ∧
    (8 * s.cfg.memBytes < s.br.pos.toNat + s.arg0.toNat → exec .brSkip s = faulted) ∧
    (8 * s.cfg.memBytes < s.arg0.toNat → exec .brSet s = faulted) ∧
    (∀ seed : Half, 8 * s.cfg.memBytes < s.br.pos.toNat + s.arg0.toNat → exec (.brCrc seed) s = faulted)

/-- R215, R220: BR_SKIP moves the cursor by ARG0 bits; BR_SET loads it with ARG0, the end of memory included, and by R820 the load ends the bit-cache hazard; past the end of memory each ends AccessFault and moves nothing. -/
def Obligations.BrSkipAndBrSetMoveTheCursor : Prop :=
  decode 0x00000003#32 = .ok .brSkip ∧ decode 0x00000001#32 = .ok .brSet ∧
  ∀ s : State, s.cfg.wf →
    let faulted : Result := .next { s with status := { code := .accessFault, fault := true, ill := s.status.ill } }
    (s.br.pos.toNat + s.arg0.toNat ≤ 8 * s.cfg.memBytes →
      ∃ p : Word, p.toNat = s.br.pos.toNat + s.arg0.toNat ∧
        exec .brSkip s = .next { s with br := { s.br with pos := p }, status := { s.status with code := .ok } }) ∧
    (8 * s.cfg.memBytes < s.br.pos.toNat + s.arg0.toNat → exec .brSkip s = faulted) ∧
    (s.arg0.toNat ≤ 8 * s.cfg.memBytes →
      exec .brSet s = .next { s with br := { s.br with pos := s.arg0 }, stale := [],
                                     status := { s.status with code := .ok } }) ∧
    (8 * s.cfg.memBytes < s.arg0.toNat → exec .brSet s = faulted)

/-- R225: BR_POS returns the cursor as a byte address, rounded up. -/
def Obligations.BrPosRoundsUp : Prop :=
  decode 0x00000004#32 = .ok .brPos ∧
  ∀ s : State, s.Inv → ∃ v : Word,
    exec .brPos s = .next { s with result := v, status := { s.status with code := .ok } } ∧
    8 * v.toNat < s.br.pos.toNat + 8 ∧ s.br.pos.toNat ≤ 8 * v.toNat

/-- R230: BR_MARK saves the cursor. -/
def Obligations.BrMarkSavesTheCursor : Prop :=
  decode 0x00000005#32 = .ok .brMark ∧
  ∀ s : State, exec .brMark s = .next { s with br := { s.br with mark := s.br.pos },
                                               status := { s.status with code := .ok } }

/-- R235: BR_DIST returns the distance from the saved position mod 2^32: the number of bits between them when the cursor is not before it, and, read as a signed number, the negative distance when it is. -/
def Obligations.BrDistIsTheSignedDistance : Prop :=
  decode 0x00000006#32 = .ok .brDist ∧
  ∀ s : State, s.Inv → ∃ v : Word,
    exec .brDist s = .next { s with result := v, status := { s.status with code := .ok } } ∧
    v.toNat = (s.br.pos.toNat + (2 ^ 32 - s.br.mark.toNat)) % 2 ^ 32 ∧
    (s.br.mark.toNat ≤ s.br.pos.toNat → v.toNat = s.br.pos.toNat - s.br.mark.toNat) ∧
    (s.br.pos.toNat < s.br.mark.toNat → v.toInt = (s.br.pos.toNat : Int) - (s.br.mark.toNat : Int))

/-- R240, with R820's hazard (`State.Seen`): BR_CRC returns the CRC of the next ARG0 bits and moves nothing; over whole bytes it is the table form of R206; of no bits it is the seed. -/
def Obligations.BrCrcReplaysTheBits : Prop :=
  ∀ (s : State) (seed : Half), s.br.pos.toNat + s.arg0.toNat ≤ 8 * s.cfg.memBytes →
    ∃ (x : BitView) (c : Half), s.Seen x ∧
      exec (.brCrc seed) s = .next { s with result := c.setWidth 32, status := { s.status with code := .ok } } ∧
      c = crc16 s.cfg.crcPoly x s.br.pos.toNat s.arg0.toNat seed ∧
      (s.arg0 = 0 → c = seed) ∧
      (∀ k, s.arg0.toNat = 8 * k → c = crcBytes s.cfg.crcPoly x s.br.pos.toNat k seed)

/-- R206: the bit loop of R205 equals the byte-at-a-time table form on whole bytes, with the bit loop for the bits left over; the table's entry `i` is the CRC of the byte `i` with seed 0; and five entries. -/
def Obligations.CrcBitLoopEqualsTheTable : Prop :=
  (∀ (poly : Half) (v : BitView) (b n k : Nat) (c : Half),
    crc16 poly v b (8 * n + k) c = crc16 poly v (b + 8 * n) k (crcBytes poly v b n c)) ∧
  (∀ (poly : Half) (v : BitView) (b : Nat), crc16 poly v b 8 0 = crcTable poly (BitVec.ofNat 8 (bits v b 8))) ∧
  crcTable 0x1021 0x00 = 0x0000 ∧ crcTable 0x1021 0x01 = 0x1021 ∧ crcTable 0x1021 0x02 = 0x2042 ∧
  crcTable 0x1021 0x80 = 0x9188 ∧ crcTable 0x1021 0xFF = 0x1EF0

/-- R200: the BitReader commands neither read nor write the StreamCursor, FrameHeader and SeekMetadata registers. -/
def Obligations.BitReaderIsApartFromTheOtherUnits : Prop :=
  ∀ (i : Instr) (s t : State) (sc : StreamCursor) (hdr : HeaderRegs) (sm : SeekRegs),
    (i = .brSet ∨ (∃ n, i = .brRead n) ∨ i = .brSkip ∨ i = .brPos ∨ i = .brMark ∨ i = .brDist ∨ (∃ x, i = .brCrc x)) →
    exec i s = .next t →
    t.sc = s.sc ∧ t.hdr = s.hdr ∧ t.sm = s.sm ∧
      exec i { s with sc := sc, hdr := hdr, sm := sm } = .next { t with sc := sc, hdr := hdr, sm := sm }

/-! ### The FrameHeader decoder -/

/-- R300 to R314 with the layout of R151 to R153, on a header none of whose fields is reserved (R154) and which lies inside memory: every field of the record, from the 32-bit header word `w`. -/
def Obligations.DecodeReadsTheHeaderWord : Prop :=
  ∀ (c : Config) (v : BitView) (b : Nat),
    let w := bits v b 32
    let x25 := w / 2 ^ 20 % 2
    let id := w / 2 ^ 19 % 2
    let lf := w / 2 ^ 17 % 4
    let pb := w / 2 ^ 16 % 2
    let len := if pb = 0 then 48 else 32
    ¬(x25 = 0 ∧ id = 1) → lf ≠ 0 → w / 2 ^ 12 % 16 ≠ 15 → w / 2 ^ 10 % 4 ≠ 3 → b + len ≤ 8 * c.memBytes →
    ∃ h, decodeHeader c v v b = .ok h len ∧
      h.layer.num = 4 - lf ∧ h.lsf.toNat = 1 - id ∧ h.mpeg25.toNat = 1 - x25 ∧ h.prot.toNat = 1 - pb ∧
      h.brIdx.toNat = w / 2 ^ 12 % 16 ∧ h.srIdx.toNat = w / 2 ^ 10 % 4 ∧ h.padding.toNat = w / 2 ^ 9 % 2 ∧
      h.priv.toNat = w / 2 ^ 8 % 2 ∧ h.mode.toNat = w / 2 ^ 6 % 4 ∧ h.modeExt.toNat = w / 2 ^ 4 % 4 ∧
      h.copyright.toNat = w / 2 ^ 3 % 2 ∧ h.original.toNat = w / 2 ^ 2 % 2 ∧ h.emphasis.toNat = w % 4 ∧
      h.bitrate = 1000 * (tableEntry c.bitrateTable h.layer (id = 0)).getD (w / 2 ^ 12 % 16) 0 ∧
      h.samplerate = c.samplerateTable.getD (w / 2 ^ 10 % 4) 0 / 2 ^ (1 - id) / 2 ^ (1 - x25) ∧
      h.samples = tableEntry c.samplesTable h.layer (id = 0) ∧
      h.channels.toNat = (if w / 2 ^ 6 % 4 = c.monoMode.toNat then 1 else 2) ∧
      h.crcCheck = (if pb = 0 then crc16 c.crcPoly v (b + 16) 16 c.hdrCrcSeed else 0) ∧
      h.crcTarget.toNat = (if pb = 0 then bits v (b + 32) 16 else 0)

/-- R154, with the order of R302, R303, R305 and R307: each reserved value fails the decode with its own error, as soon as its field has been read, whatever lies past it. -/
def Obligations.ReservedHeaderValuesFailWithTheirError : Prop :=
  ∀ (c : Config) (v cv : BitView) (b : Nat),
    let w := bits v b 32
    let badVersion := w / 2 ^ 20 % 2 = 0 ∧ w / 2 ^ 19 % 2 = 1
    let crcFits := w / 2 ^ 16 % 2 = 0 → b + 32 ≤ 8 * c.memBytes
    (b + 13 ≤ 8 * c.memBytes → badVersion → decodeHeader c v cv b = .err .badLayer) ∧
    (b + 15 ≤ 8 * c.memBytes → w / 2 ^ 17 % 4 = 0 → decodeHeader c v cv b = .err .badLayer) ∧
    (b + 20 ≤ 8 * c.memBytes → crcFits → ¬badVersion → w / 2 ^ 17 % 4 ≠ 0 → w / 2 ^ 12 % 16 = 15 →
      decodeHeader c v cv b = .err .badBitrate) ∧
    (b + 22 ≤ 8 * c.memBytes → crcFits → ¬badVersion → w / 2 ^ 17 % 4 ≠ 0 → w / 2 ^ 12 % 16 ≠ 15 →
      w / 2 ^ 10 % 4 = 3 → decodeHeader c v cv b = .err .badSampleRate)

/-- R330, R331, with R820's hazard (`State.Seen`, for the fields and for the bits the CRC replays): a header that decodes at the cursor writes the header registers, with bitrate and frame size 0 for free format, and moves the cursor past the header, and nothing else changes; a decode that fails changes STATUS alone, with the code of its error, or AccessFault. -/
def Obligations.FhDecodeWritesTheHeaderRegisters : Prop :=
  ∀ s : State, ∃ x y : BitView, s.Seen x ∧ s.Seen y ∧
    (∀ (h : Header) (len : Nat), decodeHeader s.cfg x y s.br.pos.toNat = .ok h len →
      exec .fhDecode s = .next { s with
        hdr := {
          fields := BitVec.ofNat 32 (h.layer.num + 2 ^ 2 * h.lsf.toNat + 2 ^ 3 * h.mpeg25.toNat + 2 ^ 4 * h.prot.toNat
            + 2 ^ 5 * h.brIdx.toNat + 2 ^ 9 * h.srIdx.toNat + 2 ^ 11 * h.padding.toNat + 2 ^ 12 * h.priv.toNat
            + 2 ^ 13 * h.mode.toNat + 2 ^ 15 * h.modeExt.toNat + 2 ^ 17 * h.copyright.toNat
            + 2 ^ 18 * h.original.toNat + 2 ^ 19 * h.emphasis.toNat + 2 ^ 21 * h.channels.toNat + 2 ^ 31),
          bitrate := BitVec.ofNat 32 h.bitrate,
          samplerate := BitVec.ofNat 32 h.samplerate,
          crc := BitVec.ofNat 32 (2 ^ 16 * h.crcCheck.toNat + h.crcTarget.toNat),
          framesize := BitVec.ofNat 32
            (if h.bitrate = 0 then 0 else framelen h.layer h.lsf h.bitrate h.samplerate h.padding),
          samples := BitVec.ofNat 32 h.samples,
          duration := BitVec.ofNat 32 (h.samples * s.cfg.durationRes / h.samplerate) },
        br := { s.br with pos := BitVec.ofNat 32 (s.br.pos.toNat + len) },
        status := { s.status with code := .ok } }) ∧
    (decodeHeader s.cfg x y s.br.pos.toNat = .err .badLayer →
      exec .fhDecode s = .next { s with status := { s.status with code := .badLayer } }) ∧
    (decodeHeader s.cfg x y s.br.pos.toNat = .err .badBitrate →
      exec .fhDecode s = .next { s with status := { s.status with code := .badBitrate } }) ∧
    (decodeHeader s.cfg x y s.br.pos.toNat = .err .badSampleRate →
      exec .fhDecode s = .next { s with status := { s.status with code := .badSampleRate } }) ∧
    (decodeHeader s.cfg x y s.br.pos.toNat = .fault →
      exec .fhDecode s = .next { s with status := { code := .accessFault, fault := true, ill := s.status.ill } })

/-- R330, R300 to R312: an FH_DECODE that does not end OK changes STATUS alone. It ends AccessFault exactly when a read of the decode reaches past memory before a reserved value ends it: the version bits, the layer, the protection bit, the 16 bits the CRC replays, the bitrate index, the sample-rate index, the rest of the 32 bits, the CRC target, in that order (`w` is read through the cursor: R820's hazard, `State.Seen`, log 4). So with no more than 12 bits left it always does, with 48 it never does, and a header with no reserved value ends OK there. -/
def Obligations.FhDecodeFailureChangesOnlyStatus : Prop :=
  ∀ s : State,
    (∀ t, exec .fhDecode s = .next t → t.status.code ≠ .ok →
      t = { s with status := t.status } ∧ t.status.code ∈ [.badLayer, .badBitrate, .badSampleRate, .accessFault]) ∧
    (8 * s.cfg.memBytes < s.br.pos.toNat + 13 →
      exec .fhDecode s = .next { s with status := { code := .accessFault, fault := true, ill := s.status.ill } }) ∧
    (∃ x : BitView, s.Seen x ∧
      let w := bits x s.br.pos.toNat 32
      let short := fun k => 8 * s.cfg.memBytes < s.br.pos.toNat + k
      let badVersion := w / 2 ^ 20 % 2 = 0 ∧ w / 2 ^ 19 % 2 = 1
      let isProtected := w / 2 ^ 16 % 2 = 0
      (exec .fhDecode s = .next { s with status := { code := .accessFault, fault := true, ill := s.status.ill } } ↔
        short 13 ∨ (¬badVersion ∧
        (short 15 ∨ (w / 2 ^ 17 % 4 ≠ 0 ∧
        (short 16 ∨ (isProtected ∧ short 32) ∨ short 20 ∨ (w / 2 ^ 12 % 16 ≠ 15 ∧
        (short 22 ∨ (w / 2 ^ 10 % 4 ≠ 3 ∧
        (short 32 ∨ (isProtected ∧ short 48))))))))))) ∧
    (s.br.pos.toNat + 48 ≤ 8 * s.cfg.memBytes →
      (∀ t, exec .fhDecode s = .next t → t.status.code ≠ .accessFault) ∧
      (let w := bits s.bitAt s.br.pos.toNat 32
       s.stale = [] → ¬(w / 2 ^ 20 % 2 = 0 ∧ w / 2 ^ 19 % 2 = 1) → w / 2 ^ 17 % 4 ≠ 0 → w / 2 ^ 12 % 16 ≠ 15 →
       w / 2 ^ 10 % 4 ≠ 3 → ∃ t, exec .fhDecode s = .next t ∧ t.status.code = .ok))

/-- R335, R136: FH_FRAMELEN returns the frame length of R320 for the packed operands, and is illegal for a layer field of 0, a sample rate of 0, reserved bits, or a length that does not fit in 32 bits. -/
def Obligations.FhFramelenEvaluatesTheFormula : Prop :=
  decode 0x00000011#32 = .ok .fhFramelen ∧
  ∀ s : State, s.cfg.wf →
    let br := s.arg0.toNat
    let sr := s.arg1.toNat % 2 ^ 16
    let layer := s.arg1.toNat / 2 ^ 16 % 4
    let lsf := s.arg1.toNat / 2 ^ 18 % 2
    let pad := s.arg1.toNat / 2 ^ 19 % 2
    let slots := if lsf = 1 ∧ layer = 3 then 72 else 144
    let n := if layer = 1 then (12 * br / sr + pad) * 4 else slots * br / sr + pad
    exec .fhFramelen s =
      if s.arg1.toNat / 2 ^ 20 ≠ 0 ∨ layer = 0 ∨ sr = 0 ∨ 2 ^ 32 ≤ n then
        .next { s with status := { code := .illegalCommand, fault := s.status.fault, ill := true } }
      else .next { s with result := BitVec.ofNat 32 n, status := { s.status with code := .ok } }

/-- R321: with the tables of this spec every frame length is between 24 and 2881 bytes, between 32 and 1540 in Layer I; and every rate from 8 kb/s up gives at least 8 bytes. -/
def Obligations.TableFrameLengthsAreBounded : Prop :=
  (∀ (l : Layer) (lsf mpeg25 pad : Bool) (b r : Nat), 1 ≤ b → b ≤ 14 → r ≤ 2 → (mpeg25 = true → lsf = true) →
    let c := specConfig 4096
    let n := framelen l lsf (tableBitrate c l lsf b) (tableSamplerate c r lsf mpeg25) pad
    24 ≤ n ∧ n ≤ 2881 ∧ (l = .one → 32 ≤ n ∧ n ≤ 1540)) ∧
  (∀ (l : Layer) (lsf mpeg25 pad : Bool) (r k : Nat), r ≤ 2 → 8 ≤ k →
    8 ≤ framelen l lsf (k * 1000) (tableSamplerate (specConfig 4096) r lsf mpeg25) pad)

/-- R326: the rate recovered from a distance `d` is the smallest whole rate whose frame is at least `d` bytes long; so where some whole rate gives exactly `d`, the recovered rate gives `d`. -/
def Obligations.RateFromDistanceInvertsFramelen : Prop :=
  ∀ (l : Layer) (lsf pad : Bool) (sr d : Nat), 0 < sr → 4 ≤ d →
    let k := rateFromDistance l lsf sr pad d
    d ≤ framelen l lsf (k * 1000) sr pad ∧
    (∀ j < k, framelen l lsf (j * 1000) sr pad < d) ∧
    (∀ j, framelen l lsf (j * 1000) sr pad = d → framelen l lsf (k * 1000) sr pad = d)

/-! ### The StreamCursor -/

/-- R410, R411, R413: SC_SET_BUFFER sets the window and the pointers and enters Unsynced, and is illegal for an inverted window or one past memory; SC_EXTEND raises the window's end alone, and is illegal for a window that would shrink or pass memory; SC_SET_SKIP sets the pending skip alone. -/
def Obligations.BufferCommandsSetTheWindow : Prop :=
  decode 0x00000020#32 = .ok .scSetbuf ∧ decode 0x00000021#32 = .ok .scExtend ∧ decode 0x00000022#32 = .ok .scSetskip ∧
  ∀ s : State,
    let illegal : Result := .next { s with status := { code := .illegalCommand, fault := s.status.fault, ill := true } }
    exec .scSetbuf s =
      (if s.arg1.toNat < s.arg0.toNat ∨ s.cfg.memBytes < s.arg1.toNat then illegal
      else .next { s with
        sc := { s.sc with bufStart := s.arg0, bufEnd := s.arg1, thisPtr := s.arg0, nextPtr := s.arg0,
                          sync := .unsynced },
        status := { s.status with code := .ok } }) ∧
    exec .scExtend s =
      (if s.arg0.toNat < s.sc.bufEnd.toNat ∨ s.cfg.memBytes < s.arg0.toNat then illegal
      else .next { s with sc := { s.sc with bufEnd := s.arg0 }, status := { s.status with code := .ok } }) ∧
    exec .scSetskip s =
      .next { s with sc := { s.sc with skip := s.arg0 }, status := { s.status with code := .ok } }

/-- R421: a pending skip that passes the window's end ends NeedMoreData and stays pending. -/
def Obligations.SkipPastTheWindowStaysPending : Prop :=
  ∀ s : State, s.Inv → s.sc.bufEnd.toNat < s.base →
    exec .scNext s = .next { s with sc := { s.sc with lastError := .needMoreData },
                                    status := { s.status with code := .needMoreData } }

/-- R422, with the skip applied (R421): the Synced path with fewer than GUARD bytes, and with no sync pattern, at `base`. -/
def Obligations.SyncedPathTrustsOnlyTheNextPointer : Prop :=
  ∀ s : State, s.Inv → s.base ≤ s.sc.bufEnd.toNat → s.sc.sync = .synced →
    (s.sc.bufEnd.toNat < s.base + s.cfg.guardBytes →
      exec .scNext s = .next { s with
        sc := { s.sc with nextPtr := BitVec.ofNat 32 s.base, skip := 0, lastError := .needMoreData },
        status := { s.status with code := .needMoreData } }) ∧
    (s.base + s.cfg.guardBytes ≤ s.sc.bufEnd.toNat → s.syncAt s.base = false →
      exec .scNext s = .next { s with
        sc := { s.sc with thisPtr := BitVec.ofNat 32 s.base, nextPtr := BitVec.ofNat 32 (s.base + 1), skip := 0,
                          sync := .unsynced, lastError := .lostSync },
        status := { s.status with code := .lostSync } })

/-- R423: an Unsynced scan that finds no sync point with a full guard ends NeedMoreData and consumes nothing but the skip. -/
def Obligations.UnsyncedScanWithoutASyncPointNeedsMoreData : Prop :=
  ∀ s : State, s.Inv → s.base ≤ s.sc.bufEnd.toNat → s.sc.sync = .unsynced →
    (∀ q, s.base ≤ q → q + s.cfg.guardBytes ≤ s.sc.bufEnd.toNat → s.syncAt q = false) →
    exec .scNext s = .next { s with
      sc := { s.sc with nextPtr := BitVec.ofNat 32 s.base, skip := 0, lastError := .needMoreData },
      status := { s.status with code := .needMoreData } }

/-- R424: a header error at the candidate `p` demotes to Unsynced and moves one byte further, with the error's own code. -/
def Obligations.HeaderErrorMovesOneByteFurther : Prop :=
  ∀ (s : State) (p : Nat) (e : HeaderError), s.Inv → s.SyncPoint p → s.decodeAt p = .err e →
    exec .scNext s = .next { s with
      sc := { s.sc with thisPtr := BitVec.ofNat 32 p, nextPtr := BitVec.ofNat 32 (p + 1), skip := 0,
                        sync := .unsynced, lastError := e.code },
      status := { s.status with code := e.code } }

/-- R426: a frame of known bitrate that runs past the window's end ends NeedMoreData, with the scan start at the frame and nothing else moved. -/
def Obligations.FrameThatDoesNotFitNeedsMoreData : Prop :=
  ∀ (s : State) (p : Nat) (h : Header) (len : Nat), s.Inv → s.SyncPoint p → s.decodeAt p = .ok h len →
    h.bitrate ≠ 0 →
    s.sc.bufEnd.toNat < p + framelen h.layer h.lsf h.bitrate h.samplerate h.padding →
    exec .scNext s = .next { s with
      sc := { s.sc with nextPtr := BitVec.ofNat 32 p, skip := 0, lastError := .needMoreData },
      status := { s.status with code := .needMoreData } }

/-- R427, R331: SC_NEXT commits the frame of known bitrate at the candidate `p`. -/
def Obligations.ScNextCommitsTheFrame : Prop :=
  ∀ (s : State) (p : Nat) (h : Header) (len : Nat), s.Inv → s.SyncPoint p → s.decodeAt p = .ok h len →
    h.bitrate ≠ 0 →
    let n := framelen h.layer h.lsf h.bitrate h.samplerate h.padding
    p + n ≤ s.sc.bufEnd.toNat →
    exec .scNext s = .next { s with
      sc := { s.sc with thisPtr := BitVec.ofNat 32 p, nextPtr := BitVec.ofNat 32 (p + n), skip := 0,
                        sync := .synced, lastError := .ok },
      hdr := { fields := h.fieldsWord, bitrate := BitVec.ofNat 32 h.bitrate,
               samplerate := BitVec.ofNat 32 h.samplerate, crc := h.crcCheck ++ h.crcTarget,
               framesize := BitVec.ofNat 32 n, samples := BitVec.ofNat 32 h.samples,
               duration := BitVec.ofNat 32 (h.samples * s.cfg.durationRes / h.samplerate) },
      br := { s.br with pos := BitVec.ofNat 32 (8 * p + len) }, stale := [],
      status := { s.status with code := .ok } }

/-- R425, R325 to R327: a free-format header whose cached rate may not be used is measured by the probe, and the first matching candidate `q` decides: an implausible rate loses sync; a plausible one (that fits SC_FREERATE) is cached and used: the frame is committed with it if it fits, and is waited for, with the rate kept, if it does not (R426). -/
def Obligations.FreeFormatRateComesFromTheProbe : Prop :=
  ∀ (s : State) (p q : Nat) (h : Header) (len : Nat), s.Inv → s.SyncPoint p → s.decodeAt p = .ok h len →
    h.bitrate = 0 → s.MustProbe h.layer → s.ProbeHit h (8 * p + len) q →
    let k := rateFromDistance h.layer h.lsf h.samplerate h.padding (q - p)
    let n := framelen h.layer h.lsf (k * 1000) h.samplerate h.padding
    (k < s.cfg.freeMinKbps ∨ (h.layer = .three ∧ s.cfg.freeMaxL3Kbps < k) →
      exec .scNext s = .next { s with
        sc := { s.sc with thisPtr := BitVec.ofNat 32 p, nextPtr := BitVec.ofNat 32 (p + 1), skip := 0,
                          sync := .unsynced, lastError := .lostSync },
        status := { s.status with code := .lostSync } }) ∧
    (s.cfg.freeMinKbps ≤ k → (h.layer = .three → k ≤ s.cfg.freeMaxL3Kbps) → k * 1000 < 2 ^ 32 →
      p + n ≤ s.sc.bufEnd.toNat →
      exec .scNext s = .next { s with
        sc := { s.sc with thisPtr := BitVec.ofNat 32 p, nextPtr := BitVec.ofNat 32 (p + n), skip := 0,
                          sync := .synced, freeRate := BitVec.ofNat 32 (k * 1000), lastError := .ok },
        hdr := { fields := h.fieldsWord, bitrate := BitVec.ofNat 32 (k * 1000),
                 samplerate := BitVec.ofNat 32 h.samplerate, crc := h.crcCheck ++ h.crcTarget,
                 framesize := BitVec.ofNat 32 n, samples := BitVec.ofNat 32 h.samples,
                 duration := BitVec.ofNat 32 (h.samples * s.cfg.durationRes / h.samplerate) },
        br := { s.br with pos := BitVec.ofNat 32 (8 * p + len) }, stale := [],
        status := { s.status with code := .ok } }) ∧
    (s.cfg.freeMinKbps ≤ k → (h.layer = .three → k ≤ s.cfg.freeMaxL3Kbps) → k * 1000 < 2 ^ 32 →
      s.sc.bufEnd.toNat < p + n →
      exec .scNext s = .next { s with
        sc := { s.sc with nextPtr := BitVec.ofNat 32 p, skip := 0, freeRate := BitVec.ofNat 32 (k * 1000),
                          lastError := .needMoreData },
        status := { s.status with code := .needMoreData } })

/-- R325, R425: a probe that finds no candidate with a full guard behind it ends NeedMoreData, with the scan start at the frame and no rate cached. -/
def Obligations.ProbeWithoutACandidateNeedsMoreData : Prop :=
  ∀ (s : State) (p : Nat) (h : Header) (len : Nat), s.Inv → s.SyncPoint p → s.decodeAt p = .ok h len →
    h.bitrate = 0 → s.MustProbe h.layer →
    (∀ q, (8 * p + len + 7) / 8 ≤ q → q + s.cfg.guardBytes ≤ s.sc.bufEnd.toNat →
      (s.syncAt q && s.peekMatches h q) = false) →
    exec .scNext s = .next { s with
      sc := { s.sc with nextPtr := BitVec.ofNat 32 p, skip := 0, lastError := .needMoreData },
      status := { s.status with code := .needMoreData } }

/-- R425 to R427, R331, and the rows of R430 for a cached rate: a usable cached rate is used without a probe and is kept; the frame is committed with it if it fits, and is waited for, with the scan start at the frame, if it does not. -/
def Obligations.CachedFreeRateSkipsTheProbe : Prop :=
  ∀ (s : State) (p : Nat) (h : Header) (len : Nat), s.Inv → s.SpecConfig → s.SyncPoint p →
    s.decodeAt p = .ok h len → h.bitrate = 0 → ¬s.MustProbe h.layer →
    let n := framelen h.layer h.lsf s.sc.freeRate.toNat h.samplerate h.padding
    (p + n ≤ s.sc.bufEnd.toNat →
      exec .scNext s = .next { s with
        sc := { s.sc with thisPtr := BitVec.ofNat 32 p, nextPtr := BitVec.ofNat 32 (p + n), skip := 0,
                          sync := .synced, lastError := .ok },
        hdr := { fields := h.fieldsWord, bitrate := s.sc.freeRate,
                 samplerate := BitVec.ofNat 32 h.samplerate, crc := h.crcCheck ++ h.crcTarget,
                 framesize := BitVec.ofNat 32 n, samples := BitVec.ofNat 32 h.samples,
                 duration := BitVec.ofNat 32 (h.samples * s.cfg.durationRes / h.samplerate) },
        br := { s.br with pos := BitVec.ofNat 32 (8 * p + len) }, stale := [],
        status := { s.status with code := .ok } }) ∧
    (s.sc.bufEnd.toNat < p + n →
      exec .scNext s = .next { s with
        sc := { s.sc with nextPtr := BitVec.ofNat 32 p, skip := 0, lastError := .needMoreData },
        status := { s.status with code := .needMoreData } })

/-- R400: an SC_NEXT that ends OK leaves the cursor Synced, one that ends NeedMoreData leaves it as it was, every other one leaves it Unsynced; SC_SET_BUFFER enters Unsynced; nothing else changes it; SC_CTRL shows it as 1 and 0, and reset leaves Unsynced. -/
def Obligations.OnlyASuccessfulScNextEntersSynced : Prop :=
  State.reset.sc.sync = .unsynced ∧
  (∀ s : State, s.readRegister 0x020 = if s.sc.sync = .synced then 1 else 0) ∧
  ∀ (i : Instr) (s t : State), s.Inv → exec i s = .next t →
    t.sc.sync = if i = .scNext then
        (if t.status.code = .ok then .synced else if t.status.code = .needMoreData then s.sc.sync else .unsynced)
      else if i = .scSetbuf ∧ t.status.code = .ok then .unsynced else s.sc.sync

/-- R441: SC_NEXT never reads a byte at or past SC_BUF_END: whatever those bytes are, it does the same; and it never ends AccessFault. -/
def Obligations.ScNextNeverReadsPastTheWindow : Prop :=
  ∀ (s t : State) (m : Memory), s.Inv →
    (∀ a < s.sc.bufEnd.toNat, ({ s with mem := m } : State).byteAt a = s.byteAt a) →
    exec .scNext s = .next t →
    exec .scNext { s with mem := m } = .next { t with mem := m } ∧ t.status.code ≠ .accessFault

/-- R440, second sentence: no command but SC_SET_BUFFER lowers SC_NEXT_PTR. -/
def Obligations.NextPointerNeverDecreases : Prop :=
  ∀ (i : Instr) (s t : State), s.Inv → exec i s = .next t → i ≠ .scSetbuf →
    s.sc.nextPtr.toNat ≤ t.sc.nextPtr.toNat

/-- R442, progress: with the parameters of this spec, an SC_NEXT that does not end NeedMoreData raises SC_NEXT_PTR, by at least 8 when it ends OK (for a probed rate that does not fit SC_FREERATE this rests on the bound of the free value, log 5); R442, resumption: a NeedMoreData never moves SC_THIS_PTR. -/
def Obligations.ScNextMakesProgress : Prop :=
  ∀ s t : State, s.Inv → s.SpecConfig → exec .scNext s = .next t →
    (t.status.code ≠ .needMoreData → s.sc.nextPtr.toNat + 1 ≤ t.sc.nextPtr.toNat) ∧
    (t.status.code = .ok → t.sc.thisPtr.toNat + 8 ≤ t.sc.nextPtr.toNat ∧ s.sc.nextPtr.toNat ≤ t.sc.thisPtr.toNat) ∧
    (t.status.code = .needMoreData → t.sc.thisPtr = s.sc.thisPtr)

/-- R442, resumption and exactly once: a frame cut off by the window's end gives NeedMoreData; once the host has appended bytes at and past the old end (`m` agrees with the buffer below it) and extended the window to hold the frame, the next SC_NEXT commits that same frame, and leaves SC_NEXT_PTR past it. From then on, whatever the host does but reset and SC_SET_BUFFER (`State.Continues`), no SC_NEXT commits a frame or names a candidate below that point. -/
def Obligations.TruncatedFrameIsResumedExactlyOnce : Prop :=
  ∀ (s : State) (p : Nat) (h : Header) (len : Nat) (m : Memory) (e : Word),
    s.Inv → s.SpecConfig → s.SyncPoint p → s.decodeAt p = .ok h len → h.bitrate ≠ 0 →
    let n := framelen h.layer h.lsf h.bitrate h.samplerate h.padding
    s.sc.bufEnd.toNat < p + n → p + n ≤ e.toNat → e.toNat ≤ s.cfg.memBytes →
    (∀ a < s.sc.bufEnd.toNat, ({ s with mem := m } : State).byteAt a = s.byteAt a) →
    ∃ s1 s2 s3, exec .scNext s = .next s1 ∧ s1.status.code = .needMoreData ∧ s1.sc.thisPtr = s.sc.thisPtr ∧
      exec .scExtend { s1 with mem := m, arg0 := e } = .next s2 ∧ s2.status.code = .ok ∧
      exec .scNext s2 = .next s3 ∧ s3.status.code = .ok ∧ s3.sc.thisPtr.toNat = p ∧
      s3.sc.nextPtr.toNat = p + n ∧ p < p + n ∧ s3.hdr.fields = h.fieldsWord ∧
      (({ s with mem := m } : State).MemOk → ∀ t u : State, Relation.ReflTransGen State.Continues s3 t →
        exec .scNext t = .next u →
        p + n ≤ u.sc.nextPtr.toNat ∧
          ((u.status.code = .needMoreData ∧ u.sc.thisPtr = t.sc.thisPtr) ∨ p + n ≤ u.sc.thisPtr.toNat))

/-- R443: a byte other than 0xFF inserted where a Synced cursor expects the next frame costs one LostSync; the SC_NEXT after it commits the frame one byte further on. -/
def Obligations.ResyncFindsTheNextFrame : Prop :=
  ∀ (s : State) (h : Header) (len : Nat), s.Inv → s.sc.sync = .synced → s.sc.skip = 0 →
    let a := s.sc.nextPtr.toNat
    s.byteAt a ≠ 0xFF#8 → s.syncAt (a + 1) = true → a + 1 + s.cfg.guardBytes ≤ s.sc.bufEnd.toNat →
    s.decodeAt (a + 1) = .ok h len → h.bitrate ≠ 0 →
    a + 1 + framelen h.layer h.lsf h.bitrate h.samplerate h.padding ≤ s.sc.bufEnd.toNat →
    ∃ s1 s2, exec .scNext s = .next s1 ∧ s1.status.code = .lostSync ∧ s1.sc.nextPtr.toNat = a + 1 ∧
      s1.sc.sync = .unsynced ∧
      exec .scNext s1 = .next s2 ∧ s2.status.code = .ok ∧ s2.sc.thisPtr.toNat = a + 1 ∧ s2.sc.sync = .synced

/-! ### SeekMetadata -/

/-- R502: SM_PARSE checks its range before it writes anything. -/
def Obligations.SmParseChecksItsRangeFirst : Prop :=
  ∀ s : State, 8 * s.cfg.memBytes < s.arg0.toNat + s.arg1.toNat →
    exec .smParse s = .next { s with status := { code := .accessFault, fault := true, ill := s.status.ill } }

/-- R510, R511 with R171, R500, R505: a Xing or Info tag. When every flagged field fits in the `L` bits, SM_PARSE ends OK and the fields, read in order, and their valid bits are in the SM registers; when one does not fit, it ends Malformed with every SM register 0 but MALFORMED. -/
def Obligations.XingTagIsReadFieldByField : Prop :=
  ∀ (s : State) (k : TagKind), s.SpecConfig → (k = .xing ∨ k = .info) →
    s.arg0.toNat + s.arg1.toNat ≤ 8 * s.cfg.memBytes → 32 ≤ s.arg1.toNat →
    let t0 := s.arg0.toNat
    bits s.bitAt t0 32 = (if k = .xing then 0x58696E67 else 0x496E666F) →
    let flags := bits s.bitAt (t0 + 32) 32
    let f := fun i => flags / 2 ^ i % 2
    let atFrames := t0 + 64
    let atBytes := atFrames + 32 * f 0
    let atToc := atBytes + 32 * f 1
    let atScale := atToc + 800 * f 2
    let all := atScale + 32 * f 3 - t0
    (64 ≤ s.arg1.toNat → all ≤ s.arg1.toNat →
      ∃ t, exec .smParse s = .next t ∧ t = { s with sm := t.sm, status := { s.status with code := .ok } } ∧
        t.sm.status.kind = k ∧ t.sm.status.malformed = false ∧ t.sm.xingFlags.toNat = flags ∧
        t.sm.status.framesValid = decide (f 0 = 1) ∧ t.sm.status.bytesValid = decide (f 1 = 1) ∧
        t.sm.status.tocValid = decide (f 2 = 1) ∧ t.sm.status.scaleValid = decide (f 3 = 1) ∧
        t.sm.frames.toNat = (if f 0 = 1 then bits s.bitAt atFrames 32 else 0) ∧
        t.sm.bytes.toNat = (if f 1 = 1 then bits s.bitAt atBytes 32 else 0) ∧
        (∀ i : Fin 100, (t.sm.toc[i.val]).toNat = if f 2 = 1 then bits s.bitAt (atToc + 8 * i.val) 8 else 0) ∧
        t.sm.scale.toNat = (if f 3 = 1 then bits s.bitAt atScale 32 else 0)) ∧
    (s.arg1.toNat < 64 ∨ s.arg1.toNat < all →
      exec .smParse s = .next { s with
        sm := { SeekRegs.zero with status := { SeekStatus.zero with malformed := true } },
        status := { s.status with code := .malformed } })

/-- R515, R505 and the row "LAME at T" of R545: a LAME magic at the tag start makes SM_PARSE end OK with KIND 3, no Xing field, and nothing else changed but the LAME block's registers. R520 to R522: whenever SM_PARSE finds a Xing, Info or LAME magic and ends OK, the LAME block is examined: absent from a frame too short for it or not in memory; else both CRC words are recorded, and the block is accepted, field by field (R174), when they agree, and left out, with SM_ENC 0, when they differ. -/
def Obligations.LameBlockIsValidatedByItsCrc : Prop :=
  (∀ s : State, s.SpecConfig → s.arg0.toNat + s.arg1.toNat ≤ 8 * s.cfg.memBytes → 32 ≤ s.arg1.toNat →
    bits s.bitAt s.arg0.toNat 32 = 0x4C414D45 →
    ∃ t, exec .smParse s = .next t ∧ t = { s with sm := t.sm, status := { s.status with code := .ok } } ∧
      t.sm.status = { kind := .lame, framesValid := false, bytesValid := false, tocValid := false,
                      scaleValid := false, lameState := t.sm.status.lameState, malformed := false } ∧
      t.sm = { SeekRegs.zero with status := t.sm.status, lame := t.sm.lame, enc := t.sm.enc }) ∧
  ∀ s t : State, s.SpecConfig → exec .smParse s = .next t → t.status.code = .ok →
    (t.sm.status.kind = .xing ∨ t.sm.status.kind = .info ∨ t.sm.status.kind = .lame) →
    let f := s.sc.thisPtr.toNat
    let fs := if s.hdr.fields.getLsbD 31 then s.hdr.framesize.toNat else 0
    let span := if s.hdr.fields.getLsbD 2 then 175 else 190
    let byte := fun (o n : Nat) => bits s.bitAt (8 * (f + span - 34 + o)) (8 * n)
    let crc := crc16 0x1021 s.bitAt (8 * f) (8 * span) 0
    (fs < span + 2 ∨ s.cfg.memBytes < f + fs → t.sm.status.lameState = .absent ∧ t.sm.lame = .zero ∧
      t.sm.enc = Vector.replicate 9 0) ∧
    (span + 2 ≤ fs → f + fs ≤ s.cfg.memBytes →
      t.sm.lame.crcCalc = crc ∧ t.sm.lame.tagCrc.toNat = byte 34 2 ∧
      (crc.toNat ≠ byte 34 2 → t.sm.status.lameState = .badCrc ∧ t.sm.enc = Vector.replicate 9 0 ∧
        t.sm.lame = { LameRegs.zero with tagCrc := t.sm.lame.tagCrc, crcCalc := crc }) ∧
      (crc.toNat = byte 34 2 → t.sm.status.lameState = .valid ∧
        (∀ i : Fin 9, (t.sm.enc[i.val]).toNat = byte i.val 1) ∧
        t.sm.lame.revMethod.toNat = byte 9 1 ∧ t.sm.lame.lowpass.toNat = byte 10 1 ∧
        t.sm.lame.peak.toNat = byte 11 4 ∧ t.sm.lame.rg.toNat = 2 ^ 16 * byte 15 2 + byte 17 2 ∧
        t.sm.lame.flagsAth.toNat = byte 19 1 ∧ t.sm.lame.bitrate.toNat = byte 20 1 ∧
        t.sm.lame.delayPad.toNat = byte 21 3 ∧ t.sm.lame.misc.toNat = byte 24 1 ∧
        t.sm.lame.gain.toNat = byte 25 1 ∧ t.sm.lame.preset.toNat = byte 26 2 ∧
        t.sm.lame.musicLen.toNat = byte 28 4 ∧ t.sm.lame.musicCrc.toNat = byte 32 2))

/-- R500, R503, R530, R531, R175: no Xing, Info or LAME magic at the tag start, so the VBRI location decides: nothing there leaves every SM register 0; a consistent VBRI tag fills its registers, the native table giving the TOC of R540; an inconsistent one is Malformed. That a frame of 40 to 61 bytes, too short for the fields behind the magic, is Malformed whatever those bytes read is the model's reading of R531 and R502 (log 19, DEDUCED). -/
def Obligations.VbriTagIsFoundAtItsOffset : Prop :=
  ∀ s : State, s.SpecConfig → s.arg0.toNat + s.arg1.toNat ≤ 8 * s.cfg.memBytes →
    (s.arg1.toNat < 32 ∨ bits s.bitAt s.arg0.toNat 32 ∉ [0x58696E67, 0x496E666F, 0x4C414D45]) →
    let f := s.sc.thisPtr.toNat
    let fs := if s.hdr.fields.getLsbD 31 then s.hdr.framesize.toNat else 0
    let here := fun (o n : Nat) => bits s.bitAt (8 * (f + 36 + o)) (8 * n)
    let n := here 18 2
    let es := here 22 2
    let entry := fun i => here (26 + i * es) es * here 20 2
    let bad := n = 0 ∨ es < 1 ∨ 4 < es ∨ here 10 4 = 0 ∨ fs < 62 + n * es
    (fs < 40 ∨ s.cfg.memBytes < f + fs ∨ here 0 4 ≠ 0x56425249 →
      exec .smParse s = .next { s with sm := .zero, status := { s.status with code := .ok } }) ∧
    (40 ≤ fs → f + fs ≤ s.cfg.memBytes → here 0 4 = 0x56425249 → bad →
      exec .smParse s = .next { s with
        sm := { SeekRegs.zero with status := { SeekStatus.zero with malformed := true } },
        status := { s.status with code := .malformed } }) ∧
    (40 ≤ fs → f + fs ≤ s.cfg.memBytes → here 0 4 = 0x56425249 → ¬bad →
      ∃ t, exec .smParse s = .next t ∧ t = { s with sm := t.sm, status := { s.status with code := .ok } } ∧
        t.sm.status = { kind := .vbri, framesValid := true, bytesValid := true, tocValid := true, scaleValid := true,
                        lameState := .absent, malformed := false } ∧
        t.sm.xingFlags = 0 ∧ t.sm.lame = .zero ∧ t.sm.enc = Vector.replicate 9 0 ∧
        t.sm.frames.toNat = here 14 4 ∧ t.sm.bytes.toNat = here 10 4 ∧ t.sm.scale.toNat = here 8 2 ∧
        t.sm.vbri.version.toNat = here 4 2 ∧ t.sm.vbri.delay.toNat = here 6 2 ∧ t.sm.vbri.entries.toNat = n ∧
        t.sm.vbri.scale.toNat = here 20 2 ∧ t.sm.vbri.entrySize.toNat = es ∧ t.sm.vbri.fpe.toNat = here 24 2 ∧
        ∀ j : Fin 100, (t.sm.toc[j.val]).toNat =
          min 255 (256 * (100 * ((List.range (j.val * n / 100)).map entry).sum
            + j.val * n % 100 * entry (j.val * n / 100)) / (100 * here 10 4)))

/-- R540, for any number `m` of time boundaries (100 in R7): a reconstructed TOC starts at 0, never passes 255, and, since it interpolates cumulative offsets, never decreases (the last clause is derived). -/
def Obligations.VbriTocNeverDecreases : Prop :=
  ∀ (m : Nat) (v : Nat → Nat) (n nbytes : Nat),
    tocEntry m v n nbytes 0 = 0 ∧ (∀ j, tocEntry m v n nbytes j ≤ 255) ∧
    ∀ j, tocEntry m v n nbytes j ≤ tocEntry m v n nbytes (j + 1)

/-- R550: changing one byte in the first 34 bytes of an accepted LAME block, outside the bits the tag's own fields can occupy, makes the block rejected and leaves the Xing fields as they were. -/
def Obligations.LameByteMutationRejectsTheBlock : Prop :=
  ∀ (s t : State) (m : Memory) (a : Nat), s.SpecConfig → exec .smParse s = .next t →
    t.status.code = .ok → t.sm.status.lameState = .valid →
    let span := if s.hdr.fields.getLsbD 2 then 175 else 190
    let block := s.sc.thisPtr.toNat + span - 34
    block ≤ a → a < block + 34 →
    (8 * a + 8 ≤ s.arg0.toNat ∨ s.arg0.toNat + 960 ≤ 8 * a) →
    ({ s with mem := m } : State).byteAt a ≠ s.byteAt a →
    (∀ b, b ≠ a → ({ s with mem := m } : State).byteAt b = s.byteAt b) →
    ∃ u, exec .smParse { s with mem := m } = .next u ∧ u.status.code = .ok ∧
      u.sm.status = { t.sm.status with lameState := .badCrc } ∧ u.sm.xingFlags = t.sm.xingFlags ∧
      u.sm.frames = t.sm.frames ∧ u.sm.bytes = t.sm.bytes ∧ u.sm.toc = t.sm.toc ∧ u.sm.scale = t.sm.scale
end

