-- ==== Sys2Proof/Laws/State.lean ====
section
/-! SUPPORT. One lemma per field per state update, each true by rfl, so that no later proof unfolds a record update. -/

namespace Sys2Proof.Machine

variable (s : State)

/-! ### `State.raise` -/

@[simp] theorem State.raise_cfg (c : Code) :
    (s.raise c).cfg = s.cfg := rfl
@[simp] theorem State.raise_arg0 (c : Code) :
    (s.raise c).arg0 = s.arg0 := rfl
@[simp] theorem State.raise_arg1 (c : Code) :
    (s.raise c).arg1 = s.arg1 := rfl
@[simp] theorem State.raise_status (c : Code) :
    (s.raise c).status = s.status.ended c := rfl
@[simp] theorem State.raise_result (c : Code) :
    (s.raise c).result = s.result := rfl
@[simp] theorem State.raise_br (c : Code) :
    (s.raise c).br = s.br := rfl
@[simp] theorem State.raise_sc (c : Code) :
    (s.raise c).sc = s.sc := rfl
@[simp] theorem State.raise_hdr (c : Code) :
    (s.raise c).hdr = s.hdr := rfl
@[simp] theorem State.raise_sm (c : Code) :
    (s.raise c).sm = s.sm := rfl
@[simp] theorem State.raise_mem (c : Code) :
    (s.raise c).mem = s.mem := rfl
@[simp] theorem State.raise_stale (c : Code) :
    (s.raise c).stale = s.stale := rfl
@[simp] theorem State.raise_host (c : Code) :
    (s.raise c).host = s.host := rfl
@[simp] theorem State.raise_lastRead (c : Code) :
    (s.raise c).lastRead = s.lastRead := rfl
@[simp] theorem State.raise_draws (c : Code) :
    (s.raise c).draws = s.draws := rfl
@[simp] theorem State.raise_epoch (c : Code) :
    (s.raise c).epoch = s.epoch := rfl

/-! ### `State.complete` -/

@[simp] theorem State.complete_cfg :
    (s.complete).cfg = s.cfg := rfl
@[simp] theorem State.complete_arg0 :
    (s.complete).arg0 = s.arg0 := rfl
@[simp] theorem State.complete_arg1 :
    (s.complete).arg1 = s.arg1 := rfl
@[simp] theorem State.complete_status :
    (s.complete).status = s.status.ended .ok := rfl
@[simp] theorem State.complete_result :
    (s.complete).result = s.result := rfl
@[simp] theorem State.complete_br :
    (s.complete).br = s.br := rfl
@[simp] theorem State.complete_sc :
    (s.complete).sc = s.sc := rfl
@[simp] theorem State.complete_hdr :
    (s.complete).hdr = s.hdr := rfl
@[simp] theorem State.complete_sm :
    (s.complete).sm = s.sm := rfl
@[simp] theorem State.complete_mem :
    (s.complete).mem = s.mem := rfl
@[simp] theorem State.complete_stale :
    (s.complete).stale = s.stale := rfl
@[simp] theorem State.complete_host :
    (s.complete).host = s.host := rfl
@[simp] theorem State.complete_lastRead :
    (s.complete).lastRead = s.lastRead := rfl
@[simp] theorem State.complete_draws :
    (s.complete).draws = s.draws := rfl
@[simp] theorem State.complete_epoch :
    (s.complete).epoch = s.epoch := rfl

/-! ### `State.finish` -/

@[simp] theorem State.finish_cfg (c : Code) :
    (s.finish c).cfg = s.cfg := rfl
@[simp] theorem State.finish_arg0 (c : Code) :
    (s.finish c).arg0 = s.arg0 := rfl
@[simp] theorem State.finish_arg1 (c : Code) :
    (s.finish c).arg1 = s.arg1 := rfl
@[simp] theorem State.finish_status (c : Code) :
    (s.finish c).status = s.status.ended c := rfl
@[simp] theorem State.finish_result (c : Code) :
    (s.finish c).result = s.result := rfl
@[simp] theorem State.finish_br (c : Code) :
    (s.finish c).br = s.br := rfl
@[simp] theorem State.finish_sc (c : Code) :
    (s.finish c).sc = { s.sc with lastError := c } := rfl
@[simp] theorem State.finish_hdr (c : Code) :
    (s.finish c).hdr = s.hdr := rfl
@[simp] theorem State.finish_sm (c : Code) :
    (s.finish c).sm = s.sm := rfl
@[simp] theorem State.finish_mem (c : Code) :
    (s.finish c).mem = s.mem := rfl
@[simp] theorem State.finish_stale (c : Code) :
    (s.finish c).stale = s.stale := rfl
@[simp] theorem State.finish_host (c : Code) :
    (s.finish c).host = s.host := rfl
@[simp] theorem State.finish_lastRead (c : Code) :
    (s.finish c).lastRead = s.lastRead := rfl
@[simp] theorem State.finish_draws (c : Code) :
    (s.finish c).draws = s.draws := rfl
@[simp] theorem State.finish_epoch (c : Code) :
    (s.finish c).epoch = s.epoch := rfl

/-! ### `State.setResult` -/

@[simp] theorem State.setResult_cfg (v : Word) :
    (s.setResult v).cfg = s.cfg := rfl
@[simp] theorem State.setResult_arg0 (v : Word) :
    (s.setResult v).arg0 = s.arg0 := rfl
@[simp] theorem State.setResult_arg1 (v : Word) :
    (s.setResult v).arg1 = s.arg1 := rfl
@[simp] theorem State.setResult_status (v : Word) :
    (s.setResult v).status = s.status := rfl
@[simp] theorem State.setResult_result (v : Word) :
    (s.setResult v).result = v := rfl
@[simp] theorem State.setResult_br (v : Word) :
    (s.setResult v).br = s.br := rfl
@[simp] theorem State.setResult_sc (v : Word) :
    (s.setResult v).sc = s.sc := rfl
@[simp] theorem State.setResult_hdr (v : Word) :
    (s.setResult v).hdr = s.hdr := rfl
@[simp] theorem State.setResult_sm (v : Word) :
    (s.setResult v).sm = s.sm := rfl
@[simp] theorem State.setResult_mem (v : Word) :
    (s.setResult v).mem = s.mem := rfl
@[simp] theorem State.setResult_stale (v : Word) :
    (s.setResult v).stale = s.stale := rfl
@[simp] theorem State.setResult_host (v : Word) :
    (s.setResult v).host = s.host := rfl
@[simp] theorem State.setResult_lastRead (v : Word) :
    (s.setResult v).lastRead = s.lastRead := rfl
@[simp] theorem State.setResult_draws (v : Word) :
    (s.setResult v).draws = s.draws := rfl
@[simp] theorem State.setResult_epoch (v : Word) :
    (s.setResult v).epoch = s.epoch := rfl

/-! ### `State.moveCursor` -/

@[simp] theorem State.moveCursor_cfg (b : Nat) :
    (s.moveCursor b).cfg = s.cfg := rfl
@[simp] theorem State.moveCursor_arg0 (b : Nat) :
    (s.moveCursor b).arg0 = s.arg0 := rfl
@[simp] theorem State.moveCursor_arg1 (b : Nat) :
    (s.moveCursor b).arg1 = s.arg1 := rfl
@[simp] theorem State.moveCursor_status (b : Nat) :
    (s.moveCursor b).status = s.status := rfl
@[simp] theorem State.moveCursor_result (b : Nat) :
    (s.moveCursor b).result = s.result := rfl
@[simp] theorem State.moveCursor_br (b : Nat) :
    (s.moveCursor b).br = { s.br with pos := BitVec.ofNat 32 b } := rfl
@[simp] theorem State.moveCursor_sc (b : Nat) :
    (s.moveCursor b).sc = s.sc := rfl
@[simp] theorem State.moveCursor_hdr (b : Nat) :
    (s.moveCursor b).hdr = s.hdr := rfl
@[simp] theorem State.moveCursor_sm (b : Nat) :
    (s.moveCursor b).sm = s.sm := rfl
@[simp] theorem State.moveCursor_mem (b : Nat) :
    (s.moveCursor b).mem = s.mem := rfl
@[simp] theorem State.moveCursor_stale (b : Nat) :
    (s.moveCursor b).stale = s.stale := rfl
@[simp] theorem State.moveCursor_host (b : Nat) :
    (s.moveCursor b).host = s.host := rfl
@[simp] theorem State.moveCursor_lastRead (b : Nat) :
    (s.moveCursor b).lastRead = s.lastRead := rfl
@[simp] theorem State.moveCursor_draws (b : Nat) :
    (s.moveCursor b).draws = s.draws := rfl
@[simp] theorem State.moveCursor_epoch (b : Nat) :
    (s.moveCursor b).epoch = s.epoch := rfl

/-! ### `State.loadCursor` -/

@[simp] theorem State.loadCursor_cfg (b : Nat) :
    (s.loadCursor b).cfg = s.cfg := rfl
@[simp] theorem State.loadCursor_arg0 (b : Nat) :
    (s.loadCursor b).arg0 = s.arg0 := rfl
@[simp] theorem State.loadCursor_arg1 (b : Nat) :
    (s.loadCursor b).arg1 = s.arg1 := rfl
@[simp] theorem State.loadCursor_status (b : Nat) :
    (s.loadCursor b).status = s.status := rfl
@[simp] theorem State.loadCursor_result (b : Nat) :
    (s.loadCursor b).result = s.result := rfl
@[simp] theorem State.loadCursor_br (b : Nat) :
    (s.loadCursor b).br = { s.br with pos := BitVec.ofNat 32 b } := rfl
@[simp] theorem State.loadCursor_sc (b : Nat) :
    (s.loadCursor b).sc = s.sc := rfl
@[simp] theorem State.loadCursor_hdr (b : Nat) :
    (s.loadCursor b).hdr = s.hdr := rfl
@[simp] theorem State.loadCursor_sm (b : Nat) :
    (s.loadCursor b).sm = s.sm := rfl
@[simp] theorem State.loadCursor_mem (b : Nat) :
    (s.loadCursor b).mem = s.mem := rfl
@[simp] theorem State.loadCursor_stale (b : Nat) :
    (s.loadCursor b).stale = [] := rfl
@[simp] theorem State.loadCursor_host (b : Nat) :
    (s.loadCursor b).host = s.host := rfl
@[simp] theorem State.loadCursor_lastRead (b : Nat) :
    (s.loadCursor b).lastRead = s.lastRead := rfl
@[simp] theorem State.loadCursor_draws (b : Nat) :
    (s.loadCursor b).draws = s.draws := rfl
@[simp] theorem State.loadCursor_epoch (b : Nat) :
    (s.loadCursor b).epoch = s.epoch := rfl

/-! ### `State.setNext` -/

@[simp] theorem State.setNext_cfg (p : Nat) :
    (s.setNext p).cfg = s.cfg := rfl
@[simp] theorem State.setNext_arg0 (p : Nat) :
    (s.setNext p).arg0 = s.arg0 := rfl
@[simp] theorem State.setNext_arg1 (p : Nat) :
    (s.setNext p).arg1 = s.arg1 := rfl
@[simp] theorem State.setNext_status (p : Nat) :
    (s.setNext p).status = s.status := rfl
@[simp] theorem State.setNext_result (p : Nat) :
    (s.setNext p).result = s.result := rfl
@[simp] theorem State.setNext_br (p : Nat) :
    (s.setNext p).br = s.br := rfl
@[simp] theorem State.setNext_sc (p : Nat) :
    (s.setNext p).sc = { s.sc with nextPtr := BitVec.ofNat 32 p } := rfl
@[simp] theorem State.setNext_hdr (p : Nat) :
    (s.setNext p).hdr = s.hdr := rfl
@[simp] theorem State.setNext_sm (p : Nat) :
    (s.setNext p).sm = s.sm := rfl
@[simp] theorem State.setNext_mem (p : Nat) :
    (s.setNext p).mem = s.mem := rfl
@[simp] theorem State.setNext_stale (p : Nat) :
    (s.setNext p).stale = s.stale := rfl
@[simp] theorem State.setNext_host (p : Nat) :
    (s.setNext p).host = s.host := rfl
@[simp] theorem State.setNext_lastRead (p : Nat) :
    (s.setNext p).lastRead = s.lastRead := rfl
@[simp] theorem State.setNext_draws (p : Nat) :
    (s.setNext p).draws = s.draws := rfl
@[simp] theorem State.setNext_epoch (p : Nat) :
    (s.setNext p).epoch = s.epoch := rfl

/-! ### `State.demote` -/

@[simp] theorem State.demote_cfg (p : Nat) :
    (s.demote p).cfg = s.cfg := rfl
@[simp] theorem State.demote_arg0 (p : Nat) :
    (s.demote p).arg0 = s.arg0 := rfl
@[simp] theorem State.demote_arg1 (p : Nat) :
    (s.demote p).arg1 = s.arg1 := rfl
@[simp] theorem State.demote_status (p : Nat) :
    (s.demote p).status = s.status := rfl
@[simp] theorem State.demote_result (p : Nat) :
    (s.demote p).result = s.result := rfl
@[simp] theorem State.demote_br (p : Nat) :
    (s.demote p).br = s.br := rfl
@[simp] theorem State.demote_sc (p : Nat) :
    (s.demote p).sc = { s.sc with thisPtr := BitVec.ofNat 32 p, nextPtr := BitVec.ofNat 32 (p + 1), sync := .unsynced } := rfl
@[simp] theorem State.demote_hdr (p : Nat) :
    (s.demote p).hdr = s.hdr := rfl
@[simp] theorem State.demote_sm (p : Nat) :
    (s.demote p).sm = s.sm := rfl
@[simp] theorem State.demote_mem (p : Nat) :
    (s.demote p).mem = s.mem := rfl
@[simp] theorem State.demote_stale (p : Nat) :
    (s.demote p).stale = s.stale := rfl
@[simp] theorem State.demote_host (p : Nat) :
    (s.demote p).host = s.host := rfl
@[simp] theorem State.demote_lastRead (p : Nat) :
    (s.demote p).lastRead = s.lastRead := rfl
@[simp] theorem State.demote_draws (p : Nat) :
    (s.demote p).draws = s.draws := rfl
@[simp] theorem State.demote_epoch (p : Nat) :
    (s.demote p).epoch = s.epoch := rfl

/-! ### `State.applySkip` -/

@[simp] theorem State.applySkip_cfg :
    (s.applySkip).cfg = s.cfg := rfl
@[simp] theorem State.applySkip_arg0 :
    (s.applySkip).arg0 = s.arg0 := rfl
@[simp] theorem State.applySkip_arg1 :
    (s.applySkip).arg1 = s.arg1 := rfl
@[simp] theorem State.applySkip_status :
    (s.applySkip).status = s.status := rfl
@[simp] theorem State.applySkip_result :
    (s.applySkip).result = s.result := rfl
@[simp] theorem State.applySkip_br :
    (s.applySkip).br = s.br := rfl
@[simp] theorem State.applySkip_sc :
    (s.applySkip).sc = { s.sc with nextPtr := BitVec.ofNat 32 (s.sc.nextPtr.toNat + s.sc.skip.toNat), skip := 0 } := rfl
@[simp] theorem State.applySkip_hdr :
    (s.applySkip).hdr = s.hdr := rfl
@[simp] theorem State.applySkip_sm :
    (s.applySkip).sm = s.sm := rfl
@[simp] theorem State.applySkip_mem :
    (s.applySkip).mem = s.mem := rfl
@[simp] theorem State.applySkip_stale :
    (s.applySkip).stale = s.stale := rfl
@[simp] theorem State.applySkip_host :
    (s.applySkip).host = s.host := rfl
@[simp] theorem State.applySkip_lastRead :
    (s.applySkip).lastRead = s.lastRead := rfl
@[simp] theorem State.applySkip_draws :
    (s.applySkip).draws = s.draws := rfl
@[simp] theorem State.applySkip_epoch :
    (s.applySkip).epoch = s.epoch := rfl

/-! ### `State.setFreeRate` -/

@[simp] theorem State.setFreeRate_cfg (v : Word) :
    (s.setFreeRate v).cfg = s.cfg := rfl
@[simp] theorem State.setFreeRate_arg0 (v : Word) :
    (s.setFreeRate v).arg0 = s.arg0 := rfl
@[simp] theorem State.setFreeRate_arg1 (v : Word) :
    (s.setFreeRate v).arg1 = s.arg1 := rfl
@[simp] theorem State.setFreeRate_status (v : Word) :
    (s.setFreeRate v).status = s.status := rfl
@[simp] theorem State.setFreeRate_result (v : Word) :
    (s.setFreeRate v).result = s.result := rfl
@[simp] theorem State.setFreeRate_br (v : Word) :
    (s.setFreeRate v).br = s.br := rfl
@[simp] theorem State.setFreeRate_sc (v : Word) :
    (s.setFreeRate v).sc = { s.sc with freeRate := v } := rfl
@[simp] theorem State.setFreeRate_hdr (v : Word) :
    (s.setFreeRate v).hdr = s.hdr := rfl
@[simp] theorem State.setFreeRate_sm (v : Word) :
    (s.setFreeRate v).sm = s.sm := rfl
@[simp] theorem State.setFreeRate_mem (v : Word) :
    (s.setFreeRate v).mem = s.mem := rfl
@[simp] theorem State.setFreeRate_stale (v : Word) :
    (s.setFreeRate v).stale = s.stale := rfl
@[simp] theorem State.setFreeRate_host (v : Word) :
    (s.setFreeRate v).host = s.host := rfl
@[simp] theorem State.setFreeRate_lastRead (v : Word) :
    (s.setFreeRate v).lastRead = s.lastRead := rfl
@[simp] theorem State.setFreeRate_draws (v : Word) :
    (s.setFreeRate v).draws = s.draws := rfl
@[simp] theorem State.setFreeRate_epoch (v : Word) :
    (s.setFreeRate v).epoch = s.epoch := rfl

/-! ### `State.writeHdr` -/

@[simp] theorem State.writeHdr_cfg (h : Header) (rate n : Nat) :
    (s.writeHdr h rate n).cfg = s.cfg := rfl
@[simp] theorem State.writeHdr_arg0 (h : Header) (rate n : Nat) :
    (s.writeHdr h rate n).arg0 = s.arg0 := rfl
@[simp] theorem State.writeHdr_arg1 (h : Header) (rate n : Nat) :
    (s.writeHdr h rate n).arg1 = s.arg1 := rfl
@[simp] theorem State.writeHdr_status (h : Header) (rate n : Nat) :
    (s.writeHdr h rate n).status = s.status := rfl
@[simp] theorem State.writeHdr_result (h : Header) (rate n : Nat) :
    (s.writeHdr h rate n).result = s.result := rfl
@[simp] theorem State.writeHdr_br (h : Header) (rate n : Nat) :
    (s.writeHdr h rate n).br = s.br := rfl
@[simp] theorem State.writeHdr_sc (h : Header) (rate n : Nat) :
    (s.writeHdr h rate n).sc = s.sc := rfl
@[simp] theorem State.writeHdr_hdr (h : Header) (rate n : Nat) :
    (s.writeHdr h rate n).hdr = { fields := h.fieldsWord, bitrate := BitVec.ofNat 32 rate, samplerate := BitVec.ofNat 32 h.samplerate, crc := h.crcCheck ++ h.crcTarget, framesize := BitVec.ofNat 32 n, samples := BitVec.ofNat 32 h.samples, duration := BitVec.ofNat 32 (h.ticks s.cfg) } := rfl
@[simp] theorem State.writeHdr_sm (h : Header) (rate n : Nat) :
    (s.writeHdr h rate n).sm = s.sm := rfl
@[simp] theorem State.writeHdr_mem (h : Header) (rate n : Nat) :
    (s.writeHdr h rate n).mem = s.mem := rfl
@[simp] theorem State.writeHdr_stale (h : Header) (rate n : Nat) :
    (s.writeHdr h rate n).stale = s.stale := rfl
@[simp] theorem State.writeHdr_host (h : Header) (rate n : Nat) :
    (s.writeHdr h rate n).host = s.host := rfl
@[simp] theorem State.writeHdr_lastRead (h : Header) (rate n : Nat) :
    (s.writeHdr h rate n).lastRead = s.lastRead := rfl
@[simp] theorem State.writeHdr_draws (h : Header) (rate n : Nat) :
    (s.writeHdr h rate n).draws = s.draws := rfl
@[simp] theorem State.writeHdr_epoch (h : Header) (rate n : Nat) :
    (s.writeHdr h rate n).epoch = s.epoch := rfl

/-! ### `State.commit` -/

@[simp] theorem State.commit_cfg (p : Nat) (h : Header) (len rate n : Nat) :
    (s.commit p h len rate n).cfg = s.cfg := rfl
@[simp] theorem State.commit_arg0 (p : Nat) (h : Header) (len rate n : Nat) :
    (s.commit p h len rate n).arg0 = s.arg0 := rfl
@[simp] theorem State.commit_arg1 (p : Nat) (h : Header) (len rate n : Nat) :
    (s.commit p h len rate n).arg1 = s.arg1 := rfl
@[simp] theorem State.commit_status (p : Nat) (h : Header) (len rate n : Nat) :
    (s.commit p h len rate n).status = s.status := rfl
@[simp] theorem State.commit_result (p : Nat) (h : Header) (len rate n : Nat) :
    (s.commit p h len rate n).result = s.result := rfl
@[simp] theorem State.commit_br (p : Nat) (h : Header) (len rate n : Nat) :
    (s.commit p h len rate n).br = { s.br with pos := BitVec.ofNat 32 (8 * p + len) } := rfl
@[simp] theorem State.commit_sc (p : Nat) (h : Header) (len rate n : Nat) :
    (s.commit p h len rate n).sc = { s.sc with thisPtr := BitVec.ofNat 32 p, nextPtr := BitVec.ofNat 32 (p + n), sync := .synced } := rfl
@[simp] theorem State.commit_hdr (p : Nat) (h : Header) (len rate n : Nat) :
    (s.commit p h len rate n).hdr = (s.writeHdr h rate n).hdr := rfl
@[simp] theorem State.commit_sm (p : Nat) (h : Header) (len rate n : Nat) :
    (s.commit p h len rate n).sm = s.sm := rfl
@[simp] theorem State.commit_mem (p : Nat) (h : Header) (len rate n : Nat) :
    (s.commit p h len rate n).mem = s.mem := rfl
@[simp] theorem State.commit_stale (p : Nat) (h : Header) (len rate n : Nat) :
    (s.commit p h len rate n).stale = [] := rfl
@[simp] theorem State.commit_host (p : Nat) (h : Header) (len rate n : Nat) :
    (s.commit p h len rate n).host = s.host := rfl
@[simp] theorem State.commit_lastRead (p : Nat) (h : Header) (len rate n : Nat) :
    (s.commit p h len rate n).lastRead = s.lastRead := rfl
@[simp] theorem State.commit_draws (p : Nat) (h : Header) (len rate n : Nat) :
    (s.commit p h len rate n).draws = s.draws := rfl
@[simp] theorem State.commit_epoch (p : Nat) (h : Header) (len rate n : Nat) :
    (s.commit p h len rate n).epoch = s.epoch := rfl

/-! ### `State.nextDraw` -/

@[simp] theorem State.nextDraw_cfg :
    (s.nextDraw).cfg = s.cfg := rfl
@[simp] theorem State.nextDraw_arg0 :
    (s.nextDraw).arg0 = s.arg0 := rfl
@[simp] theorem State.nextDraw_arg1 :
    (s.nextDraw).arg1 = s.arg1 := rfl
@[simp] theorem State.nextDraw_status :
    (s.nextDraw).status = s.status := rfl
@[simp] theorem State.nextDraw_result :
    (s.nextDraw).result = s.result := rfl
@[simp] theorem State.nextDraw_br :
    (s.nextDraw).br = s.br := rfl
@[simp] theorem State.nextDraw_sc :
    (s.nextDraw).sc = s.sc := rfl
@[simp] theorem State.nextDraw_hdr :
    (s.nextDraw).hdr = s.hdr := rfl
@[simp] theorem State.nextDraw_sm :
    (s.nextDraw).sm = s.sm := rfl
@[simp] theorem State.nextDraw_mem :
    (s.nextDraw).mem = s.mem := rfl
@[simp] theorem State.nextDraw_stale :
    (s.nextDraw).stale = s.stale := rfl
@[simp] theorem State.nextDraw_host :
    (s.nextDraw).host = s.host := rfl
@[simp] theorem State.nextDraw_lastRead :
    (s.nextDraw).lastRead = s.lastRead := rfl
@[simp] theorem State.nextDraw_draws :
    (s.nextDraw).draws = s.draws + 1 := rfl
@[simp] theorem State.nextDraw_epoch :
    (s.nextDraw).epoch = s.epoch := rfl

/-! ### `State.writeByte` -/

@[simp] theorem State.writeByte_cfg (a : Nat) (v : Byte) :
    (s.writeByte a v).cfg = s.cfg := rfl
@[simp] theorem State.writeByte_arg0 (a : Nat) (v : Byte) :
    (s.writeByte a v).arg0 = s.arg0 := rfl
@[simp] theorem State.writeByte_arg1 (a : Nat) (v : Byte) :
    (s.writeByte a v).arg1 = s.arg1 := rfl
@[simp] theorem State.writeByte_status (a : Nat) (v : Byte) :
    (s.writeByte a v).status = s.status := rfl
@[simp] theorem State.writeByte_result (a : Nat) (v : Byte) :
    (s.writeByte a v).result = s.result := rfl
@[simp] theorem State.writeByte_br (a : Nat) (v : Byte) :
    (s.writeByte a v).br = s.br := rfl
@[simp] theorem State.writeByte_sc (a : Nat) (v : Byte) :
    (s.writeByte a v).sc = s.sc := rfl
@[simp] theorem State.writeByte_hdr (a : Nat) (v : Byte) :
    (s.writeByte a v).hdr = s.hdr := rfl
@[simp] theorem State.writeByte_sm (a : Nat) (v : Byte) :
    (s.writeByte a v).sm = s.sm := rfl
@[simp] theorem State.writeByte_mem (a : Nat) (v : Byte) :
    (s.writeByte a v).mem = s.mem.set a v := rfl
@[simp] theorem State.writeByte_stale (a : Nat) (v : Byte) :
    (s.writeByte a v).stale = if s.cacheWindow a then (a, s.byteAt a) :: s.stale else s.stale := rfl
@[simp] theorem State.writeByte_host (a : Nat) (v : Byte) :
    (s.writeByte a v).host = s.host := rfl
@[simp] theorem State.writeByte_lastRead (a : Nat) (v : Byte) :
    (s.writeByte a v).lastRead = s.lastRead := rfl
@[simp] theorem State.writeByte_draws (a : Nat) (v : Byte) :
    (s.writeByte a v).draws = s.draws := rfl
@[simp] theorem State.writeByte_epoch (a : Nat) (v : Byte) :
    (s.writeByte a v).epoch = s.epoch := rfl

/-! ### `State.pushHost` -/

@[simp] theorem State.pushHost_cfg (a : HostAction) :
    (s.pushHost a).cfg = s.cfg := rfl
@[simp] theorem State.pushHost_arg0 (a : HostAction) :
    (s.pushHost a).arg0 = s.arg0 := rfl
@[simp] theorem State.pushHost_arg1 (a : HostAction) :
    (s.pushHost a).arg1 = s.arg1 := rfl
@[simp] theorem State.pushHost_status (a : HostAction) :
    (s.pushHost a).status = s.status := rfl
@[simp] theorem State.pushHost_result (a : HostAction) :
    (s.pushHost a).result = s.result := rfl
@[simp] theorem State.pushHost_br (a : HostAction) :
    (s.pushHost a).br = s.br := rfl
@[simp] theorem State.pushHost_sc (a : HostAction) :
    (s.pushHost a).sc = s.sc := rfl
@[simp] theorem State.pushHost_hdr (a : HostAction) :
    (s.pushHost a).hdr = s.hdr := rfl
@[simp] theorem State.pushHost_sm (a : HostAction) :
    (s.pushHost a).sm = s.sm := rfl
@[simp] theorem State.pushHost_mem (a : HostAction) :
    (s.pushHost a).mem = s.mem := rfl
@[simp] theorem State.pushHost_stale (a : HostAction) :
    (s.pushHost a).stale = s.stale := rfl
@[simp] theorem State.pushHost_host (a : HostAction) :
    (s.pushHost a).host = a :: s.host := rfl
@[simp] theorem State.pushHost_lastRead (a : HostAction) :
    (s.pushHost a).lastRead = s.lastRead := rfl
@[simp] theorem State.pushHost_draws (a : HostAction) :
    (s.pushHost a).draws = s.draws := rfl
@[simp] theorem State.pushHost_epoch (a : HostAction) :
    (s.pushHost a).epoch = s.epoch := rfl

/-! ### `State.hostReset` -/

@[simp] theorem State.hostReset_cfg :
    (s.hostReset).cfg = s.cfg := rfl
@[simp] theorem State.hostReset_arg0 :
    (s.hostReset).arg0 = 0 := rfl
@[simp] theorem State.hostReset_arg1 :
    (s.hostReset).arg1 = 0 := rfl
@[simp] theorem State.hostReset_status :
    (s.hostReset).status = { code := .ok, fault := false, ill := false } := rfl
@[simp] theorem State.hostReset_result :
    (s.hostReset).result = 0 := rfl
@[simp] theorem State.hostReset_br :
    (s.hostReset).br = { pos := 0, mark := 0 } := rfl
@[simp] theorem State.hostReset_sc :
    (s.hostReset).sc = .zero := rfl
@[simp] theorem State.hostReset_hdr :
    (s.hostReset).hdr = .zero := rfl
@[simp] theorem State.hostReset_sm :
    (s.hostReset).sm = .zero := rfl
@[simp] theorem State.hostReset_mem :
    (s.hostReset).mem = [] := rfl
@[simp] theorem State.hostReset_stale :
    (s.hostReset).stale = [] := rfl
@[simp] theorem State.hostReset_host :
    (s.hostReset).host = s.host := rfl
@[simp] theorem State.hostReset_lastRead :
    (s.hostReset).lastRead = s.lastRead := rfl
@[simp] theorem State.hostReset_draws :
    (s.hostReset).draws = s.draws := rfl
@[simp] theorem State.hostReset_epoch :
    (s.hostReset).epoch = s.epoch + 1 := rfl

/-! ### `Status.ended` -/

@[simp] theorem Status.ended_code (st : Status) (c : Code) : (st.ended c).code = c := rfl

@[simp] theorem Status.ended_fault (st : Status) (c : Code) :
    (st.ended c).fault = (st.fault || c == .accessFault) := rfl

@[simp] theorem Status.ended_ill (st : Status) (c : Code) :
    (st.ended c).ill = (st.ill || c == .illegalCommand) := rfl

/-- A code other than the two sticky ones changes CODE alone. -/
theorem Status.ended_plain (st : Status) {c : Code} (hf : c ≠ .accessFault) (hi : c ≠ .illegalCommand) :
    st.ended c = { st with code := c } := by
  cases c <;> simp_all [Status.ended]

@[simp] theorem Status.ended_ok (st : Status) : st.ended .ok = { st with code := .ok } :=
  st.ended_plain (by decide) (by decide)

@[simp] theorem Status.ended_accessFault (st : Status) :
    st.ended .accessFault = { code := .accessFault, fault := true, ill := st.ill } := by
  simp [Status.ended]

@[simp] theorem Status.ended_illegalCommand (st : Status) :
    st.ended .illegalCommand = { code := .illegalCommand, fault := st.fault, ill := true } := by
  simp [Status.ended]

end Sys2Proof.Machine
end

