-- ==== Sys2Proof/Laws/Memory.lean ====
section
/-! SUPPORT. Memory: a read after a write, and the canonical form, which every memory operation keeps. -/

namespace Sys2Proof.Machine

theorem Memory.get?_set (m : Memory) (a b : Nat) (v : Byte) :
    (m.set a v).get? b = if b = a then some v else m.get? b := by
  induction m with
  | nil => simp [Memory.set, Memory.get?, eq_comm]
  | cons c rest ih =>
    obtain ⟨k, w⟩ := c
    by_cases h1 : a < k
    · by_cases hb : b = a
      · simp [Memory.set, h1, Memory.get?, hb]
      · simp [Memory.set, h1, Memory.get?, hb]
    · by_cases h2 : a = k
      · subst h2
        by_cases hb : b = a
        · simp [Memory.set, Memory.get?, hb]
        · simp [Memory.set, Memory.get?, hb]
      · by_cases hb : b = k
        · subst hb; simp [Memory.set, h1, h2, Memory.get?, Ne.symm h2]
        · simp [Memory.set, h1, h2, Memory.get?, hb, ih]

/-- Every address a write leaves listed was listed, or is the address written. -/
theorem Memory.mem_set {m : Memory} {a : Nat} {v : Byte} {c : Host.Cell} (h : c ∈ m.set a v) :
    c.1 = a ∨ c ∈ m := by
  induction m with
  | nil => simp_all [Memory.set]
  | cons d rest ih =>
    obtain ⟨k, w⟩ := d
    simp only [Memory.set] at h
    split at h
    · rcases List.mem_cons.1 h with rfl | h
      · exact .inl rfl
      · exact .inr h
    · split at h
      · rcases List.mem_cons.1 h with rfl | h
        · exact .inl rfl
        · exact .inr (List.mem_cons_of_mem _ h)
      · rcases List.mem_cons.1 h with rfl | h
        · exact .inr (List.mem_cons_self ..)
        · exact (ih h).imp id (List.mem_cons_of_mem _)

/-- A write keeps the canonical form. -/
theorem Memory.wf_set {m : Memory} (h : m.wf) (a : Nat) (v : Byte) : (m.set a v).wf := by
  induction m with
  | nil => simp [Memory.set, Memory.wf]
  | cons d rest ih =>
    obtain ⟨k, w⟩ := d
    obtain ⟨hk, hrest⟩ := List.pairwise_cons.1 h
    simp only [Memory.set]
    split
    · refine List.pairwise_cons.2 ⟨fun c hc => ?_, h⟩
      rcases List.mem_cons.1 hc with rfl | hc
      · assumption
      · exact lt_trans ‹_› (hk c hc)
    · split
      · subst_vars; exact List.pairwise_cons.2 ⟨hk, hrest⟩
      · refine List.pairwise_cons.2 ⟨fun c hc => ?_, ih hrest⟩
        rcases Memory.mem_set hc with h1 | h1
        · simp only; omega
        · exact hk c h1

/-- The memory after reset has the canonical form. -/
theorem Memory.wf_reset : State.reset.mem.wf := List.Pairwise.nil

theorem State.byteAt_writeByte (s : State) (a b : Nat) (v : Byte) :
    (s.writeByte a v).byteAt b = if b = a then v else s.byteAt b := by
  simp only [State.byteAt, State.writeByte_mem, State.writeByte_epoch, Memory.get?_set]
  split <;> rfl

/-- A byte depends on the memory and the epoch alone. -/
theorem State.byteAt_congr {s t : State} (hm : t.mem = s.mem) (he : t.epoch = s.epoch) : t.byteAt = s.byteAt := by
  funext a; simp only [State.byteAt, hm, he]

/-- So does a bit. -/
theorem State.bitAt_congr {s t : State} (hm : t.mem = s.mem) (he : t.epoch = s.epoch) : t.bitAt = s.bitAt := by
  funext b; simp only [State.bitAt, State.byteAt_congr hm he]

/-- Without a stale copy the cursor reads the memory as it stands. -/
theorem State.cursorBit_of_no_stale {s : State} (h : s.stale = []) (pass : Nat) : s.cursorBit pass = s.bitAt := by
  funext b; simp [State.cursorBit, State.staleAt, h]

/-- What the cursor reads is what R820 lets it see. -/
theorem State.seen_cursorBit (s : State) (pass : Nat) : s.Seen (s.cursorBit pass) := by
  refine ⟨fun b => ?_, fun h => State.cursorBit_of_no_stale h pass⟩
  unfold State.cursorBit
  split
  · rename_i hst
    simp only [State.staleAt, List.any_eq_true, Bool.and_eq_true, beq_iff_eq, bne_iff_ne] at hst
    obtain ⟨⟨a, old⟩, hc, h1, h2⟩ := hst
    dsimp only at h1 h2
    by_cases hx : Config.cacheBit s.draws pass b = s.bitAt b
    · exact .inl hx
    · refine .inr ⟨old, h1 ▸ hc, ?_⟩
      revert hx h2
      generalize Config.cacheBit _ _ _ = x, s.bitAt _ = y, old.getLsbD _ = z
      cases x <;> cases y <;> cases z <;> simp
  · exact .inl rfl

end Sys2Proof.Machine
end

