-- ==== Sys2Proof/Laws/Bits.lean ====
section
/-! SUPPORT. The bit strings of R10: their range, how they split, which bits they read; and the same for the CRC. -/

namespace Sys2Proof.Machine

theorem bits_lt (v : BitView) (b n : Nat) : bits v b n < 2 ^ n := by
  induction n with
  | zero => simp [bits]
  | succ n ih =>
    have : (v (b + n)).toNat ≤ 1 := Bool.toNat_le _
    simp only [bits, pow_succ]; omega

/-- A bit string is its first part followed by its second. -/
theorem bits_add (v : BitView) (b m n : Nat) : bits v b (m + n) = bits v b m * 2 ^ n + bits v (b + m) n := by
  induction n with
  | zero => simp [bits]
  | succ n ih =>
    rw [← Nat.add_assoc, bits, bits, ih, pow_succ, Nat.add_assoc b]; ring

/-- The value depends only on the bits of the string. -/
theorem bits_congr {v w : BitView} {b n : Nat} (h : ∀ i < n, v (b + i) = w (b + i)) : bits v b n = bits w b n := by
  induction n with
  | zero => rfl
  | succ n ih => rw [bits, bits, ih fun i hi => h i (by omega), h n (by omega)]

/-- A field inside a bit string. -/
theorem bits_field (v : BitView) (b k m r : Nat) :
    bits v b (k + m + r) / 2 ^ r % 2 ^ m = bits v (b + k) m := by
  rw [bits_add, Nat.add_comm (_ * _), Nat.add_mul_div_right _ _ (by positivity),
    Nat.div_eq_of_lt (bits_lt ..), Nat.zero_add, bits_add, Nat.add_comm (_ * _), Nat.add_mul_mod_self_right,
    Nat.mod_eq_of_lt (bits_lt ..)]

theorem bits_one (v : BitView) (b : Nat) : bits v b 1 = (v b).toNat := by simp [bits]

/-- Bit `n - 1 - i` of the value is the `i`-th bit read (R201). -/
theorem bits_testBit (v : BitView) (b n i : Nat) (h : i < n) : (bits v b n).testBit (n - 1 - i) = v (b + i) := by
  have := bits_field v b i 1 (n - 1 - i)
  rw [show i + 1 + (n - 1 - i) = n by omega, bits_one] at this
  rw [pow_one] at this
  rw [Nat.testBit_eq_decide_div_mod_eq, this]
  cases v (b + i) <;> rfl

/-- A string of whole bytes is read byte by byte. -/
theorem bitAt_byte (s : State) (a : Nat) : bits s.bitAt (8 * a) 8 = (s.byteAt a).toNat := by
  have h (i : Nat) (hi : i < 8) : s.bitAt (8 * a + i) = (s.byteAt a).getLsbD (7 - i) := by
    simp only [State.bitAt, show (8 * a + i) / 8 = a by omega, show (8 * a + i) % 8 = i by omega]
  refine Nat.eq_of_testBit_eq fun i => ?_
  by_cases hi : i < 8
  · have := bits_testBit s.bitAt (8 * a) 8 (7 - i) (by omega)
    rw [show 8 - 1 - (7 - i) = i by omega, h (7 - i) (by omega), show 7 - (7 - i) = i by omega] at this
    rw [this, BitVec.getLsbD]
  · have h1 : bits s.bitAt (8 * a) 8 < 2 ^ i := lt_of_lt_of_le (bits_lt ..) (Nat.pow_le_pow_right (by decide) (by omega))
    have h2 : (s.byteAt a).toNat < 2 ^ i := lt_of_lt_of_le (s.byteAt a).isLt (Nat.pow_le_pow_right (by decide) (by omega))
    rw [Nat.testBit_lt_two_pow h1, Nat.testBit_lt_two_pow h2]

/-- Bits below byte `e` are the same where the bytes below `e` are. -/
theorem State.bitAt_eq_of_bytes {s t : State} {e : Nat} (h : ∀ a < e, t.byteAt a = s.byteAt a) {b : Nat}
    (hb : b < 8 * e) : t.bitAt b = s.bitAt b := by
  simp only [State.bitAt, h (b / 8) (by omega)]

theorem crc16_congr {poly : Half} {v w : BitView} {b n : Nat} {c : Half} (h : ∀ i < n, v (b + i) = w (b + i)) :
    crc16 poly v b n c = crc16 poly w b n c := by
  induction n generalizing b c with
  | zero => rfl
  | succ n ih =>
    have h0 := h 0 (by omega)
    rw [Nat.add_zero] at h0
    rw [crc16, crc16, h0]
    exact ih fun i hi => by rw [Nat.add_assoc, Nat.add_comm 1]; exact h (i + 1) (by omega)

/-- The CRC of a string is the CRC of its second part, started from that of its first. -/
theorem crc16_add (poly : Half) (v : BitView) (b m n : Nat) (c : Half) :
    crc16 poly v b (m + n) c = crc16 poly v (b + m) n (crc16 poly v b m c) := by
  induction m generalizing b c with
  | zero => simp [crc16]
  | succ m ih => rw [Nat.succ_add, crc16, ih, crc16, Nat.add_assoc b, Nat.add_comm 1]

end Sys2Proof.Machine
end

