-- ==== Sys2Proof/Laws/Crc.lean ====
section
/-! SUPPORT. The CRC of R205 is linear in the register and the data, and, with a generator that has its lowest bit, no step loses a difference. -/

namespace Sys2Proof.Machine

theorem crcStep_xor (poly a b : Half) (x y : Bool) :
    crcStep poly (a ^^^ b) (x ^^ y) = crcStep poly a x ^^^ crcStep poly b y := by
  have h : (a ^^^ b) <<< 1 = (a <<< 1) ^^^ (b <<< 1) := BitVec.shiftLeft_xor_distrib ..
  unfold crcStep
  rw [BitVec.getLsbD_xor, h]
  generalize a <<< 1 = a', b <<< 1 = b'
  have h1 (p : Half) : a' ^^^ (b' ^^^ p) = a' ^^^ b' ^^^ p := (BitVec.xor_assoc ..).symm
  have h2 (p : Half) : a' ^^^ p ^^^ b' = a' ^^^ b' ^^^ p := by rw [BitVec.xor_assoc, BitVec.xor_comm p, h1]
  have h3 (p : Half) : a' ^^^ p ^^^ (b' ^^^ p) = a' ^^^ b' := by
    rw [← BitVec.xor_assoc, h2, BitVec.xor_assoc, BitVec.xor_self, BitVec.xor_zero]
  cases a.getLsbD 15 <;> cases b.getLsbD 15 <;> cases x <;> cases y <;> simp [h1, h2, h3]

/-- Bits 0 from a register 0 leave it 0. -/
theorem crc16_zeros (poly : Half) (v : BitView) (b n : Nat) (hv : ∀ i < n, v (b + i) = false) :
    crc16 poly v b n 0 = 0 := by
  induction n generalizing b with
  | zero => rfl
  | succ n ih =>
    have h0 := hv 0 (by omega)
    rw [Nat.add_zero] at h0
    rw [crc16, h0]
    exact ih (b + 1) fun i hi => by rw [Nat.add_assoc, Nat.add_comm 1]; exact hv (i + 1) (by omega)

/-- The difference of two CRCs is the CRC of the difference of the data, from the difference of the seeds. -/
theorem crc16_xor (poly : Half) (v w : BitView) (b n : Nat) (c d : Half) :
    crc16 poly (fun i => v i ^^ w i) b n (c ^^^ d) = crc16 poly v b n c ^^^ crc16 poly w b n d := by
  induction n generalizing b c d with
  | zero => rfl
  | succ n ih => rw [crc16, crc16, crc16, crcStep_xor, ih]

theorem crcStep_ne_zero {poly : Half} (hp : poly.getLsbD 0 = true) {c : Half} (hc : c ≠ 0) :
    crcStep poly c false ≠ 0 := by
  intro h
  unfold crcStep at h
  rw [Bool.xor_false] at h
  split_ifs at h with h1
  · have h0 := congrArg (·.getLsbD 0) h
    have hp : poly[0] = true := hp
    simp [hp] at h0
  · refine hc (BitVec.eq_of_getLsbD_eq fun i hi => ?_)
    rcases Nat.lt_or_ge i 15 with h2 | h2
    · have h0 := congrArg (·.getLsbD (i + 1)) h
      simpa [show i + 1 < 16 by omega, BitVec.getLsbD_eq_getElem hi] using h0
    · rw [show i = 15 by omega]; simpa using h1

/-- A difference in the register survives unchanged data. -/
theorem crc16_zero_ne {poly : Half} (hp : poly.getLsbD 0 = true) {v : BitView} {b n : Nat} {c : Half} (hc : c ≠ 0)
    (hv : ∀ i < n, v (b + i) = false) : crc16 poly v b n c ≠ 0 := by
  induction n generalizing b c with
  | zero => exact hc
  | succ n ih =>
    have h0 := hv 0 (by omega)
    rw [Nat.add_zero] at h0
    rw [crc16, h0]
    exact ih (crcStep_ne_zero hp hc) fun i hi => by rw [Nat.add_assoc, Nat.add_comm 1]; exact hv (i + 1) (by omega)

end Sys2Proof.Machine
end

