-- ==== Sys2Proof/Laws/Header.lean ====
section
/-! SUPPORT. The header decoder: what it reads, when it can end Fault, and what an OK decode says (R300 to R312). -/

namespace Sys2Proof.Machine

theorem layerOfField_num {lf : Nat} {l : Layer} (h : layerOfField lf = some l) : l.num = 4 - lf := by
  unfold layerOfField at h
  generalize 4 - lf = k at h
  unfold Layer.ofNum at h
  split at h <;> cases h <;> rfl

theorem layerOfField_eq_none {lf : Nat} (h : lf < 4) : layerOfField lf = none ↔ lf = 0 := by
  interval_cases lf <;> simp [layerOfField, Layer.ofNum]

/-- Everything an OK decode says: the record is the one at `b`, no field is reserved (R154), and the header lies inside memory. -/
theorem decodeHeader_ok {c : Config} {v cv : BitView} {b : Nat} {h : Header} {len : Nat}
    (hd : decodeHeader c v cv b = .ok h len) :
    ∃ l, layerOfField (bits v (b + 13) 2) = some l ∧ h = headerAt c v cv b l ∧
      len = (if v (b + 15) then 32 else 48) ∧ b + len ≤ c.bitLimit ∧
      ¬(v (b + 11) = false ∧ v (b + 12) = true) ∧ bits v (b + 16) 4 ≠ 15 ∧ bits v (b + 20) 2 ≠ 3 := by
  unfold decodeHeader at hd
  by_cases h1 : c.bitLimit < b + 13
  · rw [if_pos h1] at hd; cases hd
  rw [if_neg h1] at hd
  by_cases h2 : (!v (b + 11) && v (b + 12)) = true
  · rw [if_pos h2] at hd; cases hd
  rw [if_neg h2] at hd
  by_cases h3 : c.bitLimit < b + 15
  · rw [if_pos h3] at hd; cases hd
  rw [if_neg h3] at hd
  cases hl : layerOfField (bits v (b + 13) 2) with
  | none => rw [hl] at hd; cases hd
  | some l =>
    rw [hl] at hd
    dsimp only at hd
    by_cases h7 : bits v (b + 16) 4 = 15
    · rw [if_pos h7] at hd; (repeat' split at hd) <;> cases hd
    by_cases h9 : bits v (b + 20) 2 = 3
    · rw [if_pos h9] at hd; (repeat' split at hd) <;> cases hd
    rw [if_neg h7, if_neg h9] at hd
    refine ⟨l, rfl, ?_⟩
    cases hv : v (b + 15) <;>
      simp only [hv, Bool.not_true, Bool.not_false, Bool.true_and, Bool.false_and, decide_eq_true_eq,
        Bool.false_eq_true, if_false, if_true] at hd ⊢
    · by_cases h10 : c.bitLimit < b + 48
      · (repeat' split at hd) <;> cases hd
      · rw [if_neg (by omega), if_neg (by omega), if_neg (by omega), if_neg (by omega), if_neg (by omega),
          if_neg h10] at hd
        cases hd
        exact ⟨rfl, rfl, by omega, by simpa using h2, h7, h9⟩
    · by_cases h10 : c.bitLimit < b + 32
      · (repeat' split at hd) <;> cases hd
      · rw [if_neg (by omega), if_neg (by omega), if_neg (by omega), if_neg h10] at hd
        cases hd
        exact ⟨rfl, rfl, by omega, by simpa using h2, h7, h9⟩

/-- And the other way: a header inside memory none of whose fields is reserved decodes (R154). -/
theorem decodeHeader_eq_ok {c : Config} {v : BitView} (cv : BitView) {b : Nat} {l : Layer}
    (hl : layerOfField (bits v (b + 13) 2) = some l) (h1 : ¬(v (b + 11) = false ∧ v (b + 12) = true))
    (h2 : bits v (b + 16) 4 ≠ 15) (h3 : bits v (b + 20) 2 ≠ 3)
    (hb : b + (if v (b + 15) then 32 else 48) ≤ c.bitLimit) :
    decodeHeader c v cv b = .ok (headerAt c v cv b l) (if v (b + 15) then 32 else 48) := by
  have hle : b + 32 ≤ c.bitLimit := by split at hb <;> omega
  have h1' : (!v (b + 11) && v (b + 12)) = false := by
    revert h1; cases v (b + 11) <;> cases v (b + 12) <;> simp
  unfold decodeHeader
  rw [if_neg (by omega), h1', if_neg (by simp), if_neg (by omega), hl]
  dsimp only
  rw [if_neg (by omega)]
  have hcrc : (!v (b + 15) && decide (c.bitLimit < b + 32)) = false := by simp [hle]
  have htgt : (!v (b + 15) && decide (c.bitLimit < b + 48)) = false := by
    cases hv : v (b + 15)
    · rw [hv] at hb; simpa using hb
    · rfl
  rw [hcrc, if_neg (by simp), if_neg (by omega), if_neg h2, if_neg (by omega), if_neg h3, if_neg (by omega), htgt,
    if_neg (by simp)]

/-- When a decode ends Fault: exactly when a read step that is reached does not fit (R300 to R312). -/
theorem decodeHeader_fault_iff {c : Config} (v cv : BitView) (b : Nat) :
    decodeHeader c v cv b = .fault ↔
      c.bitLimit < b + 13 ∨ (¬(v (b + 11) = false ∧ v (b + 12) = true) ∧
      (c.bitLimit < b + 15 ∨ (bits v (b + 13) 2 ≠ 0 ∧
      (c.bitLimit < b + 16 ∨ (v (b + 15) = false ∧ c.bitLimit < b + 32) ∨ c.bitLimit < b + 20 ∨
        (bits v (b + 16) 4 ≠ 15 ∧
      (c.bitLimit < b + 22 ∨ (bits v (b + 20) 2 ≠ 3 ∧
      (c.bitLimit < b + 32 ∨ (v (b + 15) = false ∧ c.bitLimit < b + 48))))))))) := by
  have hf (p : Prop) [Decidable p] (x : DecodeResult) : (if p then .fault else x) = .fault ↔ p ∨ x = .fault := by
    by_cases hp : p <;> simp [hp]
  have he (p : Prop) [Decidable p] (e : HeaderError) (x : DecodeResult) :
      (if p then .err e else x) = .fault ↔ ¬p ∧ x = .fault := by
    by_cases hp : p <;> simp [hp]
  have hn := layerOfField_eq_none (bits_lt v (b + 13) 2)
  cases hl : layerOfField (bits v (b + 13) 2) with
  | none =>
    have h0 := hn.1 hl
    rw [h0] at hl
    simp [decodeHeader, hf, he, hl, h0]
  | some l =>
    have h0 : bits v (b + 13) 2 ≠ 0 := fun h => by rw [hn.2 h] at hl; cases hl
    simp [decodeHeader, hf, he, hl, h0]

/-- A header whose 48 bits lie inside memory never ends Fault. -/
theorem decodeHeader_ne_fault {c : Config} (v cv : BitView) {b : Nat} (h : b + 48 ≤ c.bitLimit) :
    decodeHeader c v cv b ≠ .fault := by
  unfold decodeHeader
  simp only [show ¬ c.bitLimit < b + 13 by omega, show ¬ c.bitLimit < b + 15 by omega,
    show ¬ c.bitLimit < b + 16 by omega, show ¬ c.bitLimit < b + 20 by omega, show ¬ c.bitLimit < b + 22 by omega,
    show ¬ c.bitLimit < b + 32 by omega, show ¬ c.bitLimit < b + 48 by omega, if_false, decide_false,
    Bool.and_false, Bool.false_eq_true]
  cases layerOfField (bits v (b + 13) 2) <;> dsimp only <;> split_ifs <;> simp

/-- The record depends on the 48 bits from `b` on alone. -/
theorem headerAt_congr {c : Config} {v cv w cw : BitView} {b : Nat} (l : Layer)
    (h : ∀ i < 48, v (b + i) = w (b + i)) (hc : ∀ i < 48, cv (b + i) = cw (b + i)) :
    headerAt c v cv b l = headerAt c w cw b l := by
  have hb (k n : Nat) (hk : k + n ≤ 48) : bits v (b + k) n = bits w (b + k) n :=
    bits_congr fun i hi => by rw [Nat.add_assoc]; exact h _ (by omega)
  have hcrc : crc16 c.crcPoly cv (b + 16) 16 c.hdrCrcSeed = crc16 c.crcPoly cw (b + 16) 16 c.hdrCrcSeed :=
    crc16_congr fun i hi => by rw [Nat.add_assoc]; exact hc _ (by omega)
  simp only [headerAt, hcrc, h 11 (by omega), h 12 (by omega), h 15 (by omega), h 22 (by omega), h 23 (by omega),
    h 28 (by omega), h 29 (by omega), hb 16 4 (by omega), hb 20 2 (by omega), hb 24 2 (by omega), hb 26 2 (by omega),
    hb 30 2 (by omega), hb 32 16 (by omega)]

/-- So does the decode. -/
theorem decodeHeader_congr {c : Config} {v cv w cw : BitView} {b : Nat}
    (h : ∀ i < 48, v (b + i) = w (b + i)) (hc : ∀ i < 48, cv (b + i) = cw (b + i)) :
    decodeHeader c v cv b = decodeHeader c w cw b := by
  have hb (k n : Nat) (hk : k + n ≤ 48) : bits v (b + k) n = bits w (b + k) n :=
    bits_congr fun i hi => by rw [Nat.add_assoc]; exact h _ (by omega)
  simp only [decodeHeader, h 11 (by omega), h 12 (by omega), h 15 (by omega), hb 13 2 (by omega),
    hb 16 4 (by omega), hb 20 2 (by omega), headerAt_congr _ h hc]

/-- The number a bit of `HDR_FIELDS` stands at (R55): each field of the word is the field of the record. -/
theorem Header.fieldsWord_toNat (h : Header) :
    h.fieldsWord.toNat = h.layer.num + 2 ^ 2 * h.lsf.toNat + 2 ^ 3 * h.mpeg25.toNat + 2 ^ 4 * h.prot.toNat
      + 2 ^ 5 * h.brIdx.toNat + 2 ^ 9 * h.srIdx.toNat + 2 ^ 11 * h.padding.toNat + 2 ^ 12 * h.priv.toNat
      + 2 ^ 13 * h.mode.toNat + 2 ^ 15 * h.modeExt.toNat + 2 ^ 17 * h.copyright.toNat
      + 2 ^ 18 * h.original.toNat + 2 ^ 19 * h.emphasis.toNat + 2 ^ 21 * h.channels.toNat + 2 ^ 31 := by
  have app {m n : Nat} (x : BitVec m) (y : BitVec n) : (x ++ y).toNat = x.toNat * 2 ^ n + y.toNat := by
    rw [BitVec.toNat_append, ← Nat.shiftLeft_add_eq_or_of_lt y.isLt, Nat.shiftLeft_eq]
  have hl : h.layer.num % 4 = h.layer.num := by cases h.layer <;> rfl
  simp only [Header.fieldsWord, app, BitVec.toNat_ofBool, BitVec.toNat_ofNat, Nat.reducePow, hl]
  ring

/-- Each field of `HDR_FIELDS`, read back. -/
theorem Header.fieldsWord_valid (h : Header) : h.fieldsWord.getLsbD 31 = true := by
  rw [Header.fieldsWord, BitVec.getLsbD_append]; rfl

theorem Header.fieldsWord_layer (h : Header) : h.fieldsWord.extractLsb' 0 2 = BitVec.ofNat 2 h.layer.num := by
  apply BitVec.eq_of_toNat_eq
  rw [BitVec.extractLsb'_toNat, Header.fieldsWord_toNat]
  have := h.brIdx.isLt
  have hl : h.layer.num < 4 := by cases h.layer <;> decide
  simp [Nat.shiftRight_eq_div_pow]
  omega

theorem Header.fieldsWord_brIdx (h : Header) : h.fieldsWord.extractLsb' 5 4 = h.brIdx := by
  apply BitVec.eq_of_toNat_eq
  rw [BitVec.extractLsb'_toNat, Header.fieldsWord_toNat]
  have := h.brIdx.isLt
  have hl : h.layer.num < 4 := by cases h.layer <;> decide
  have := Bool.toNat_le h.lsf
  have := Bool.toNat_le h.mpeg25
  have := Bool.toNat_le h.prot
  simp only [Nat.shiftRight_eq_div_pow]
  omega

theorem Header.fieldsWord_srIdx (h : Header) : h.fieldsWord.extractLsb' 9 2 = h.srIdx := by
  apply BitVec.eq_of_toNat_eq
  rw [BitVec.extractLsb'_toNat, Header.fieldsWord_toNat]
  have := h.brIdx.isLt
  have := h.srIdx.isLt
  have hl : h.layer.num < 4 := by cases h.layer <;> decide
  have := Bool.toNat_le h.lsf
  have := Bool.toNat_le h.mpeg25
  have := Bool.toNat_le h.prot
  simp only [Nat.shiftRight_eq_div_pow]
  omega

/-- The fields below CHANNELS stay below its place. -/
theorem Header.fieldsWord_low (h : Header) : h.layer.num + 2 ^ 2 * h.lsf.toNat + 2 ^ 3 * h.mpeg25.toNat + 2 ^ 4 * h.prot.toNat
      + 2 ^ 5 * h.brIdx.toNat + 2 ^ 9 * h.srIdx.toNat + 2 ^ 11 * h.padding.toNat + 2 ^ 12 * h.priv.toNat
      + 2 ^ 13 * h.mode.toNat + 2 ^ 15 * h.modeExt.toNat + 2 ^ 17 * h.copyright.toNat
      + 2 ^ 18 * h.original.toNat + 2 ^ 19 * h.emphasis.toNat < 2 ^ 21 := by
  have := h.brIdx.isLt
  have := h.srIdx.isLt
  have := h.mode.isLt
  have := h.modeExt.isLt
  have := h.emphasis.isLt
  have hl : h.layer.num < 4 := by cases h.layer <;> decide
  have := Bool.toNat_le h.lsf
  have := Bool.toNat_le h.mpeg25
  have := Bool.toNat_le h.prot
  have := Bool.toNat_le h.padding
  have := Bool.toNat_le h.priv
  have := Bool.toNat_le h.copyright
  have := Bool.toNat_le h.original
  omega

theorem Header.fieldsWord_channels (h : Header) : h.fieldsWord.extractLsb' 21 2 = h.channels := by
  apply BitVec.eq_of_toNat_eq
  rw [BitVec.extractLsb'_toNat, Header.fieldsWord_toNat]
  have := Header.fieldsWord_low h
  have := h.channels.isLt
  simp only [Nat.shiftRight_eq_div_pow]
  omega

theorem Header.fieldsWord_reserved (h : Header) : h.fieldsWord.extractLsb' 23 8 = 0 := by
  apply BitVec.eq_of_toNat_eq
  rw [BitVec.extractLsb'_toNat, Header.fieldsWord_toNat]
  have := Header.fieldsWord_low h
  have := h.channels.isLt
  simp only [Nat.shiftRight_eq_div_pow]
  change _ = 0
  omega

/-- The header registers an OK decode writes are legal (R55, R154). -/
theorem decodeHeader_legal {c : Config} {v cv : BitView} {b : Nat} {h : Header} {len : Nat}
    (hd : decodeHeader c v cv b = .ok h len) (s : State) (rate n : Nat) : (s.writeHdr h rate n).hdr.Legal := by
  obtain ⟨l, -, rfl, -, -, -, h15, h3⟩ := decodeHeader_ok hd
  have hv : (s.writeHdr (headerAt c v cv b l) rate n).hdr.valid = true := Header.fieldsWord_valid _
  rw [HeaderRegs.Legal, if_pos hv]
  simp only [State.writeHdr_hdr, Header.fieldsWord_layer, Header.fieldsWord_brIdx, Header.fieldsWord_srIdx,
    Header.fieldsWord_channels, Header.fieldsWord_reserved]
  refine ⟨by cases l <;> simp [headerAt, Layer.num], fun h => h15 ?_, fun h => h3 ?_, ?_, rfl⟩
  · have := bits_lt v (b + 16) 4
    have := congrArg BitVec.toNat h
    simp only [headerAt, BitVec.toNat_ofNat] at this
    omega
  · have := bits_lt v (b + 20) 2
    have := congrArg BitVec.toNat h
    simp only [headerAt, BitVec.toNat_ofNat] at this
    omega
  · simp only [headerAt, channelsOf]; split <;> simp

end Sys2Proof.Machine
end

