-- ==== Sys2Proof/Laws/Cursor.lean ====
section
/-! SUPPORT. The StreamCursor: what a scan, a search for a sync point, a probe and a whole SC_NEXT can answer (R420 to R430). -/

namespace Sys2Proof.Machine

/-! ### The scan -/

theorem scanSync_le (sync : Nat → Bool) (e p k : Nat) : p ≤ scanSync sync e p k := by
  induction k generalizing p with
  | zero => exact le_rfl
  | succ k ih =>
    rw [scanSync]
    split
    · exact (Nat.le_succ p).trans (ih (p + 1))
    · exact le_rfl

/-- Nothing before the answer is a sync point. -/
theorem scanSync_before (sync : Nat → Bool) (e p k : Nat) {q : Nat} (h1 : p ≤ q) (h2 : q < scanSync sync e p k) :
    sync q = false := by
  induction k generalizing p with
  | zero => simp only [scanSync] at h2; omega
  | succ k ih =>
    rw [scanSync] at h2
    split at h2
    · rename_i h
      rcases Nat.lt_or_ge p q with h3 | h3
      · exact ih (p + 1) h3 h2
      · rw [show q = p by omega]; exact h.2
    · omega

/-- Where a byte is left after it, the answer is a sync point. -/
theorem scanSync_sync (sync : Nat → Bool) (e p k : Nat) (hk : e ≤ p + k) (h : scanSync sync e p k + 1 < e) :
    sync (scanSync sync e p k) = true := by
  induction k generalizing p with
  | zero => simp only [scanSync] at h; omega
  | succ k ih =>
    rw [scanSync] at h ⊢
    split at h
    · rename_i h1; rw [if_pos h1]; exact ih (p + 1) (by omega) h
    · rename_i h1
      rw [if_neg h1]
      cases hs : sync p
      · exact absurd ⟨h, hs⟩ h1
      · rfl

/-- The answer stays inside the window, if the start does. -/
theorem scanSync_le_end (sync : Nat → Bool) (e p k : Nat) (h : p ≤ e) : scanSync sync e p k ≤ e := by
  induction k generalizing p with
  | zero => exact h
  | succ k ih =>
    rw [scanSync]
    split
    · exact ih (p + 1) (by omega)
    · exact h

/-- The scan looks at no pair of bytes that does not end before `e`. -/
theorem scanSync_congr {f g : Nat → Bool} {e : Nat} (p k : Nat) (h : ∀ q, p ≤ q → q + 1 < e → f q = g q) :
    scanSync f e p k = scanSync g e p k := by
  induction k generalizing p with
  | zero => rfl
  | succ k ih =>
    rw [scanSync, scanSync]
    by_cases h1 : p + 1 < e
    · rw [h p le_rfl h1, ih (p + 1) fun q hq => h q (by omega)]
    · rw [if_neg (by omega), if_neg (by omega)]

/-- The scan stops at the first sync point. -/
theorem scanSync_eq {sync : Nat → Bool} {e p k q : Nat} (hk : e ≤ p + k) (h1 : p ≤ q) (h2 : sync q = true)
    (h3 : q + 1 < e) (h4 : ∀ r < q, p ≤ r → sync r = false) : scanSync sync e p k = q := by
  rcases Nat.lt_trichotomy (scanSync sync e p k) q with h | h | h
  · have := scanSync_sync sync e p k hk (by omega)
    rw [h4 _ h (scanSync_le ..)] at this; cases this
  · exact h
  · rw [scanSync_before sync e p k h1 h] at h2; cases h2

/-! ### The search for a sync point -/

/-- A found candidate is a sync point with a full guard, and the first one, or the next pointer itself (R422, R423). -/
theorem State.candidate_found {s : State} {base p : Nat} (hg : 2 ≤ s.cfg.guardBytes) (h : s.candidate base = .found p) :
    s.syncAt p = true ∧ p + s.cfg.guardBytes ≤ s.sc.bufEnd.toNat ∧ base ≤ p ∧
      (s.sc.sync = .synced → p = base) ∧ ∀ q < p, base ≤ q → s.syncAt q = false := by
  unfold State.candidate at h
  split at h
  · split_ifs at h with h1 h2
    cases h
    exact ⟨h2, by omega, le_rfl, fun _ => rfl, fun q hq hq' => by omega⟩
  · rename_i hs
    dsimp only at h
    split_ifs at h with h1
    cases h
    refine ⟨scanSync_sync _ _ _ _ (by omega) ?_, by omega, scanSync_le .., (by rw [hs]; nofun),
      fun q hq hq' => scanSync_before _ _ _ _ hq' hq⟩
    have : s.scan base s.sc.bufEnd.toNat = scanSync s.syncAt s.sc.bufEnd.toNat base (s.sc.bufEnd.toNat - base) := rfl
    omega

/-- And such a position is found. -/
theorem State.candidate_eq_found {s : State} {base p : Nat} (hg : 2 ≤ s.cfg.guardBytes) (h1 : s.syncAt p = true)
    (h2 : p + s.cfg.guardBytes ≤ s.sc.bufEnd.toNat) (h3 : base ≤ p) (h4 : s.sc.sync = .synced → p = base)
    (h5 : ∀ q < p, base ≤ q → s.syncAt q = false) : s.candidate base = .found p := by
  unfold State.candidate
  split
  · rename_i hs
    obtain rfl := h4 hs
    rw [if_neg (by omega), if_pos h1]
  · have : s.scan base s.sc.bufEnd.toNat = p := scanSync_eq (by omega) h3 h1 (by omega) h5
    simp only [this]
    rw [if_neg (by omega)]

/-- A cursor that is not `Synced` never loses sync in the search (R423). -/
theorem State.candidate_lost {s : State} {base : Nat} (h : s.candidate base = .lost) :
    s.sc.sync = .synced ∧ base + s.cfg.guardBytes ≤ s.sc.bufEnd.toNat ∧ s.syncAt base = false := by
  unfold State.candidate at h
  split at h
  · split_ifs at h with h1 h2
    exact ⟨by assumption, by omega, by simpa using h2⟩
  · dsimp only at h; split_ifs at h

/-! ### The probe -/

/-- What the probe answers: the decision on a candidate from the first byte after the header on, with a full guard (R325). -/
theorem State.probeFrom_cases {s : State} (hg : 2 ≤ s.cfg.guardBytes) (p : Nat) (h : Header) (q k : Nat) :
    s.probeFrom p h q k = .needMoreData ∨
      ∃ r, q ≤ r ∧ r + s.cfg.guardBytes ≤ s.sc.bufEnd.toNat ∧ s.syncAt r = true ∧ s.peekMatches h r = true ∧
        s.probeFrom p h q k = s.probeRate p h r := by
  induction k generalizing q with
  | zero => exact .inl rfl
  | succ k ih =>
    rw [State.probeFrom]
    have hle : q ≤ s.scan q s.sc.bufEnd.toNat := scanSync_le ..
    split_ifs with h1 h2
    · exact .inl rfl
    · refine .inr ⟨_, hle, by omega, scanSync_sync _ _ _ _ (by omega) ?_, h2, rfl⟩
      have : s.scan q s.sc.bufEnd.toNat = scanSync s.syncAt s.sc.bufEnd.toNat q (s.sc.bufEnd.toNat - q) := rfl
      omega
    · exact (ih _).imp_right fun ⟨r, hr, h⟩ => ⟨r, by omega, h⟩

/-- The first matching candidate decides the probe. -/
theorem State.probeFrom_hit {s : State} {p r : Nat} {h : Header} {q k : Nat} (hg : 2 ≤ s.cfg.guardBytes)
    (h1 : s.syncAt r = true) (h2 : s.peekMatches h r = true) (h3 : r + s.cfg.guardBytes ≤ s.sc.bufEnd.toNat)
    (h4 : q ≤ r) (h5 : ∀ x < r, q ≤ x → (s.syncAt x && s.peekMatches h x) = false) (hk : r < q + k) :
    s.probeFrom p h q k = s.probeRate p h r := by
  induction k generalizing q with
  | zero => omega
  | succ k ih =>
    rw [State.probeFrom]
    have hle : q ≤ s.scan q s.sc.bufEnd.toNat := scanSync_le ..
    have hx : s.scan q s.sc.bufEnd.toNat ≤ r := by
      by_contra hc
      have := scanSync_before s.syncAt s.sc.bufEnd.toNat q _ h4 (not_le.1 hc)
      rw [h1] at this; cases this
    rw [if_neg (by omega)]
    rcases Nat.lt_or_ge (s.scan q s.sc.bufEnd.toNat) r with hlt | hge
    · have hs : s.syncAt (s.scan q s.sc.bufEnd.toNat) = true := scanSync_sync _ _ _ _ (by omega)
        (by have : s.scan q s.sc.bufEnd.toNat = scanSync s.syncAt s.sc.bufEnd.toNat q (s.sc.bufEnd.toNat - q) := rfl
            omega)
      have := h5 _ hlt hle
      rw [hs, Bool.true_and] at this
      rw [this, if_neg (by simp)]
      exact ih (by omega) (fun x hx hx' => h5 x hx (by omega)) (by omega)
    · rw [show s.scan q s.sc.bufEnd.toNat = r by omega, if_pos h2]

/-! ### What SC_NEXT reads -/

/-- A header, a sync pattern, a scan, a search and a probe depend on no byte at or past the window's end (R441). -/
theorem State.decodeAt_congr {s : State} {m : Memory} {e p : Nat} (h : ∀ a < e, ({ s with mem := m } : State).byteAt a = s.byteAt a) (hp : p + 6 ≤ e) :
   ({ s with mem := m } : State).decodeAt p = s.decodeAt p := by
  have hb : ∀ i < 48, ({ s with mem := m } : State).bitAt (8 * p + i) = s.bitAt (8 * p + i) := fun i hi =>
    State.bitAt_eq_of_bytes (e := e) h (by omega)
  exact decodeHeader_congr hb hb

theorem State.syncAt_congr {s : State} {m : Memory} {e p : Nat} (h : ∀ a < e, ({ s with mem := m } : State).byteAt a = s.byteAt a) (hp : p + 1 < e) :
   ({ s with mem := m } : State).syncAt p = s.syncAt p := by
  unfold State.syncAt; rw [h p (by omega), h (p+1) hp]

theorem State.scan_congr {s : State} {m : Memory} (h : ∀ a < s.sc.bufEnd.toNat, ({ s with mem := m } : State).byteAt a = s.byteAt a) (p : Nat) :
   ({ s with mem := m } : State).scan p s.sc.bufEnd.toNat = s.scan p s.sc.bufEnd.toNat :=
  scanSync_congr _ _ fun _ _ hq => State.syncAt_congr h hq

theorem State.candidate_congr {s : State} {m : Memory} (hg : 6 ≤ s.cfg.guardBytes) (h : ∀ a < s.sc.bufEnd.toNat, ({ s with mem := m } : State).byteAt a = s.byteAt a) (b : Nat) :
   ({ s with mem := m } : State).candidate b = s.candidate b := by
  unfold State.candidate
  dsimp only
  rw [State.scan_congr h]
  split
  · split
    · rfl
    · rw [State.syncAt_congr h (by omega)]
  · rfl

theorem State.probeFrom_congr {s : State} {m : Memory} (hg : 6 ≤ s.cfg.guardBytes) (h : ∀ a < s.sc.bufEnd.toNat, ({ s with mem := m } : State).byteAt a = s.byteAt a) (p : Nat) (hh : Header) (q k : Nat) :
   ({ s with mem := m } : State).probeFrom p hh q k = s.probeFrom p hh q k := by
  induction k generalizing q with
  | zero => rfl
  | succ k ih => 
    rw [State.probeFrom, State.probeFrom]
    dsimp only
    rw [State.scan_congr h, ih]
    split
    · rfl
    · have : ({ s with mem := m } : State).peekMatches hh (s.scan q s.sc.bufEnd.toNat) = s.peekMatches hh (s.scan q s.sc.bufEnd.toNat) := by
        unfold State.peekMatches; rw [State.decodeAt_congr h (by omega)]
      rw [this]; rfl

/-! ### SC_NEXT as a whole -/

/-- An address inside the window fits a pointer register. -/
theorem State.ofNat_toNat_of_le {s : State} {x : Nat} (hx : x ≤ s.sc.bufEnd.toNat) : (BitVec.ofNat 32 x).toNat = x := by
  have := s.sc.bufEnd.isLt
  rw [BitVec.toNat_ofNat, Nat.mod_eq_of_lt (by omega)]

/-- Applying a pending skip of 0 changes nothing. -/
theorem State.applySkip_zero {s : State} (h : s.sc.skip = 0) : s.applySkip = s := by
  obtain ⟨cfg, a0, a1, st, res, br, sc, hdr, sm, mem, stale, host, lr, dr, ep⟩ := s
  obtain ⟨sync, bs, be, tp, np, sk, fr, le⟩ := sc
  cases h
  simp [State.applySkip]

theorem State.applySkip_next {s : State} (h : s.base ≤ s.sc.bufEnd.toNat) : s.applySkip.sc.nextPtr.toNat = s.base := by
  have := s.sc.bufEnd.isLt
  simp only [State.applySkip, BitVec.toNat_ofNat, State.base] at h ⊢
  omega

/-- With the pointers in order SC_NEXT is the skip phase, then the rest (R421). -/
theorem execScNext_eq {s : State} (hp : s.Pointers) :
    execScNext s = if s.sc.bufEnd.toNat < s.base then .next (s.finish .needMoreData)
      else .next (State.nextFrame s s.applySkip) := by
  unfold execScNext
  by_cases h : s.sc.skip = 0
  · rw [if_pos h, State.applySkip_zero h, if_neg]
    have : s.sc.skip.toNat = 0 := by rw [h]; rfl
    have := hp.2.2.1
    simp only [State.base]; omega
  · rw [if_neg h]; rfl

/-- The header at a candidate lies inside memory, so its decode never ends Fault (R441). -/
theorem State.decodeAt_ne_fault {s : State} {p : Nat} (hw : s.cfg.wf) (hp : s.Pointers)
    (h : p + s.cfg.guardBytes ≤ s.sc.bufEnd.toNat) : s.decodeAt p ≠ .fault :=
  decodeHeader_ne_fault _ _ (by have := hw.2.2; have := hp.2.2.2; simp only [Config.bitLimit]; omega)

theorem State.base_le_of_syncPoint {s : State} {p : Nat} (h : s.SyncPoint p) : s.base ≤ s.sc.bufEnd.toNat := by
  have := h.2.1; have := h.2.2.1; omega

/-- After the skip phase the search finds the sync point of the state before it. -/
theorem State.candidate_of_syncPoint {s : State} {p : Nat} (hw : s.cfg.wf) (h : s.SyncPoint p) :
    s.applySkip.candidate s.applySkip.sc.nextPtr.toNat = .found p := by
  rw [State.applySkip_next (State.base_le_of_syncPoint h)]
  have hg : 2 ≤ s.applySkip.cfg.guardBytes := by rw [State.applySkip_cfg]; have := hw.2.2; omega
  exact State.candidate_eq_found (s := s.applySkip) hg h.1 h.2.1 h.2.2.1 h.2.2.2.1 h.2.2.2.2

/-- SC_NEXT at its sync point is what the decode there says. -/
theorem exec_scNext_of_syncPoint {s : State} {p : Nat} (hw : s.cfg.wf) (hp : s.Pointers) (h : s.SyncPoint p) :
    exec .scNext s = .next (match s.decodeAt p with
      | .fault => s.finish .accessFault
      | .err e => (s.applySkip.demote p).finish e.code
      | .ok h len => s.applySkip.advance p h len) := by
  have hb := State.base_le_of_syncPoint h
  refine (execScNext_eq hp).trans ?_
  rw [if_neg (by omega), State.nextFrame]
  simp only [State.candidate_of_syncPoint hw h]
  rfl

/-- A usable cache is the negation of R425's test. -/
theorem State.cacheUsable_of_mustProbe {s : State} {l : Layer} (h : s.MustProbe l) : s.cacheUsable l = false := by
  unfold State.cacheUsable
  rcases h with h | h | ⟨h, h'⟩ <;> simp [*]

theorem State.cacheUsable_of_not_mustProbe {s : State} {l : Layer} (hc : s.cfg.staleCheckL12 = false)
    (h : ¬s.MustProbe l) : s.cacheUsable l = true := by
  unfold State.MustProbe at h
  push Not at h
  obtain ⟨h1, h2, h3⟩ := h
  have h2 : s.sc.sync = .synced := by cases hs : s.sc.sync <;> simp_all
  unfold State.cacheUsable
  by_cases hl : l = .three
  · simpa [h2, hc, h3 hl] using h1
  · simpa [h2, hc, hl] using h1

/-- The rate a hit gives, in the state the skip phase leaves. -/
theorem State.probe_of_hit {s : State} {p q : Nat} {h : Header} {e : Nat} (hw : s.cfg.wf) (hh : s.ProbeHit h e q) :
    s.applySkip.probe p h e = s.probeRate p h q := by
  have hg : 2 ≤ s.applySkip.cfg.guardBytes := by rw [State.applySkip_cfg]; have := hw.2.2; omega
  have hb : s.applySkip.sc.bufEnd = s.sc.bufEnd := rfl
  refine State.probeFrom_hit (s := s.applySkip) hg hh.1 hh.2.1 hh.2.2.1 hh.2.2.2.1 hh.2.2.2.2 ?_
  have := hh.2.2.1
  rw [hb]; omega

/-- Where a resolved rate comes from (R425): the header, the cache, or a plausible probed rate. -/
theorem State.resolve_rate {s : State} {p : Nat} {h : Header} {len r : Nat} {cache : Word}
    (hg : 2 ≤ s.cfg.guardBytes) (hr : s.resolve p h len = .rate cache r) :
    (h.bitrate ≠ 0 ∧ cache = s.sc.freeRate ∧ r = h.bitrate) ∨
    (h.bitrate = 0 ∧ s.cacheUsable h.layer = true ∧ cache = s.sc.freeRate ∧ r = s.sc.freeRate.toNat) ∨
    (h.bitrate = 0 ∧ s.cacheUsable h.layer = false ∧ ∃ k, s.cfg.freeMinKbps ≤ k ∧
      (h.layer = .three → k ≤ s.cfg.freeMaxL3Kbps) ∧ cache = s.rateWord (k * 1000) ∧ r = cache.toNat) := by
  unfold State.resolve at hr
  by_cases hb : h.bitrate = 0
  · rw [if_neg (by simpa using hb)] at hr
    cases hu : s.cacheUsable h.layer
    · rw [hu, if_neg (by simp)] at hr
      refine .inr (.inr ⟨hb, rfl, ?_⟩)
      rcases State.probeFrom_cases hg p h ((8 * p + len + 7) / 8) (s.sc.bufEnd.toNat + 1) with
        h1 | ⟨q, -, -, -, -, h1⟩
      · rw [State.probe, h1] at hr; cases hr
      · rw [State.probe, h1, State.probeRate] at hr
        split_ifs at hr with h2
        cases hr
        simp only [plausibleRate, Bool.not_eq_true', Bool.or_eq_false_iff, decide_eq_false_iff_not, not_lt,
          Bool.and_eq_false_iff] at h2
        refine ⟨_, h2.1, fun hl => ?_, rfl, rfl⟩
        rcases h2.2 with h3 | h3
        · exact absurd hl h3
        · exact h3
    · rw [hu, if_pos rfl] at hr
      cases hr
      exact .inr (.inl ⟨hb, rfl, rfl, rfl⟩)
  · rw [if_pos hb] at hr
    cases hr
    exact .inl ⟨hb, rfl, rfl⟩

/-- A rate that 32 bits hold is held as it is (R425, R48). -/
theorem State.rateWord_of_lt {s : State} {rate : Nat} (hw : s.cfg.wf) (h : rate < 2 ^ 32) :
    s.rateWord rate = BitVec.ofNat 32 rate := by
  rw [State.rateWord, hw.2.2.2.1, if_pos h]

/-- A plausible rate is at least the smallest one, in the register too (R327, log 5). -/
theorem State.rateWord_ge {s : State} {k : Nat} (hw : s.cfg.wf) (hc : s.cfg.freeMinKbps * 1000 < 2 ^ 32)
    (hk : s.cfg.freeMinKbps ≤ k) :
    s.cfg.freeMinKbps * 1000 ≤ (s.rateWord (k * 1000)).toNat := by
  rw [State.rateWord, hw.2.2.2.1]
  split_ifs with h
  · rw [BitVec.toNat_ofNat, Nat.mod_eq_of_lt h]; omega
  · have := (Config.wideRate s.draws (k * 1000)).isLt
    rw [BitVec.toNat_ofNat, Nat.mod_eq_of_lt (by omega)]
    exact le_max_right ..

/-- Every way SC_NEXT can end, from a state with its pointers in order: the rows of R430, each with its state. -/
theorem exec_scNext_cases {s t : State} (hw : s.cfg.wf) (hp : s.Pointers) (hx : exec .scNext s = .next t) :
    (s.sc.bufEnd.toNat < s.base ∧ t = s.finish .needMoreData) ∨
    (s.base ≤ s.sc.bufEnd.toNat ∧ t = s.applySkip.finish .needMoreData) ∨
    (s.sc.sync = .synced ∧ s.base + s.cfg.guardBytes ≤ s.sc.bufEnd.toNat ∧ s.syncAt s.base = false ∧
      t = (s.applySkip.demote s.base).finish .lostSync) ∨
    (∃ p, s.SyncPoint p ∧
      ((∃ e, s.decodeAt p = .err e ∧ t = (s.applySkip.demote p).finish e.code) ∨
      ∃ h len, s.decodeAt p = .ok h len ∧
        ((h.bitrate = 0 ∧ s.applySkip.resolve p h len = .needMoreData ∧
            t = (s.applySkip.setNext p).finish .needMoreData) ∨
          (h.bitrate = 0 ∧ s.applySkip.resolve p h len = .lostSync ∧
            t = (s.applySkip.demote p).finish .lostSync) ∨
          ∃ cache r, s.applySkip.resolve p h len = .rate cache r ∧
            ((s.sc.bufEnd.toNat < p + h.length r ∧
                t = ((s.applySkip.setFreeRate cache).setNext p).finish .needMoreData) ∨
              (p + h.length r ≤ s.sc.bufEnd.toNat ∧
                t = ((s.applySkip.setFreeRate cache).commit p h len r (h.length r)).finish .ok))))) := by
  have h0 := (execScNext_eq hp).symm.trans hx
  have hg : 2 ≤ s.applySkip.cfg.guardBytes := by rw [State.applySkip_cfg]; have := hw.2.2; omega
  split_ifs at h0 with h1
  · cases h0; exact .inl ⟨h1, rfl⟩
  · right
    have hb : s.base ≤ s.sc.bufEnd.toNat := by omega
    injection h0 with h0
    rw [State.nextFrame] at h0
    simp only [State.applySkip_next hb] at h0
    split at h0
    · exact .inl ⟨hb, h0.symm⟩
    · rename_i hc
      exact .inr (.inl ⟨(State.candidate_lost hc).1, (State.candidate_lost hc).2.1, (State.candidate_lost hc).2.2,
        h0.symm⟩)
    · rename_i p hc
      have hsp : s.SyncPoint p := State.candidate_found hg hc
      refine .inr (.inr ⟨p, hsp, ?_⟩)
      split at h0
      · exact absurd ‹_› (State.decodeAt_ne_fault hw hp hsp.2.1)
      · exact .inl ⟨_, ‹_›, h0.symm⟩
      · rename_i h len hd
        refine .inr ⟨h, len, hd, ?_⟩
        have hz (hne : ∀ c r, s.applySkip.resolve p h len ≠ .rate c r) : h.bitrate = 0 := by
          by_contra hz; exact hne _ _ (by rw [State.resolve, if_pos hz])
        rw [State.advance] at h0
        split at h0
        · rename_i hr
          exact .inl ⟨hz (by simp [hr]), hr, h0.symm⟩
        · rename_i hr
          exact .inr (.inl ⟨hz (by simp [hr]), hr, h0.symm⟩)
        · rename_i cache r hr
          refine .inr (.inr ⟨cache, r, hr, ?_⟩)
          dsimp only at h0
          split_ifs at h0 with h2
          · exact .inl ⟨h2, h0.symm⟩
          · exact .inr ⟨not_lt.1 h2, h0.symm⟩

end Sys2Proof.Machine
end

