-- ==== Sys2Proof/Laws/Decode.lean ====
section
/-! SUPPORT. The fields of a command word as numbers, and back (R132). -/

namespace Sys2Proof

theorem opField_toNat (w : Word) : (opField w).toNat = w.toNat % 2 ^ 8 := by
  simp [opField, BitVec.extractLsb'_toNat]

theorem nField_toNat (w : Word) : (nField w).toNat = w.toNat / 2 ^ 8 % 2 ^ 6 := by
  simp [nField, BitVec.extractLsb'_toNat, Nat.shiftRight_eq_div_pow]

theorem reservedField_toNat (w : Word) : (reservedField w).toNat = w.toNat / 2 ^ 14 % 2 ^ 2 := by
  simp [reservedField, BitVec.extractLsb'_toNat, Nat.shiftRight_eq_div_pow]

theorem immField_toNat (w : Word) : (immField w).toNat = w.toNat / 2 ^ 16 := by
  have := w.isLt
  simp [immField, BitVec.extractLsb'_toNat, Nat.shiftRight_eq_div_pow]
  omega

/-- A command word as a number: its fields at their places. -/
theorem commandWord_toNat (op : BitVec 8) (n : BitVec 6) (imm : Half) :
    (commandWord op n imm).toNat = op.toNat + n.toNat * 2 ^ 8 + imm.toNat * 2 ^ 16 := by
  have hop := op.isLt
  have hn := n.isLt
  have h1 : n.toNat <<< 8 ||| op.toNat = n.toNat * 2 ^ 8 + op.toNat := by
    rw [← Nat.shiftLeft_add_eq_or_of_lt hop, Nat.shiftLeft_eq]
  have h2 : imm.toNat <<< 16 ||| (n.toNat * 2 ^ 8 + op.toNat) = imm.toNat * 2 ^ 16 + (n.toNat * 2 ^ 8 + op.toNat) := by
    rw [← Nat.shiftLeft_add_eq_or_of_lt (by omega), Nat.shiftLeft_eq]
  have h3 : (0#2 ++ (n ++ op)).toNat = n.toNat * 2 ^ 8 + op.toNat := by
    rw [BitVec.toNat_append, BitVec.toNat_append, h1]; simp
  rw [commandWord, BitVec.toNat_append, h3]
  exact h2.trans (by omega)

@[simp] theorem opField_commandWord (op : BitVec 8) (n : BitVec 6) (imm : Half) :
    opField (commandWord op n imm) = op := by
  have := op.isLt
  refine BitVec.eq_of_toNat_eq ?_
  rw [opField_toNat, commandWord_toNat]; omega

@[simp] theorem nField_commandWord (op : BitVec 8) (n : BitVec 6) (imm : Half) :
    nField (commandWord op n imm) = n := by
  have := op.isLt
  have := n.isLt
  refine BitVec.eq_of_toNat_eq ?_
  rw [nField_toNat, commandWord_toNat]; omega

@[simp] theorem reservedField_commandWord (op : BitVec 8) (n : BitVec 6) (imm : Half) :
    reservedField (commandWord op n imm) = 0 := by
  have := op.isLt
  have := n.isLt
  refine BitVec.eq_of_toNat_eq ?_
  rw [reservedField_toNat, commandWord_toNat]
  change _ = 0; omega

@[simp] theorem immField_commandWord (op : BitVec 8) (n : BitVec 6) (imm : Half) :
    immField (commandWord op n imm) = imm := by
  have := op.isLt
  have := n.isLt
  refine BitVec.eq_of_toNat_eq ?_
  rw [immField_toNat, commandWord_toNat]; omega

/-- A word whose reserved bits are 0 is the command word of its fields. -/
theorem commandWord_fields {w : Word} (h : reservedField w = 0) :
    commandWord (opField w) (nField w) (immField w) = w := by
  have h := congrArg BitVec.toNat h
  rw [reservedField_toNat] at h; change _ = 0 at h
  refine BitVec.eq_of_toNat_eq ?_
  rw [commandWord_toNat, opField_toNat, nField_toNat, immField_toNat]
  omega

/-- The reserved bits are looked at first, then the opcode (R134 lists independent tests: their order changes no outcome). -/
theorem decode_of_reserved {w : Word} (h : reservedField w = 0) : decode w = decodeOp w := by
  simp [decode, h]

/-- The word an instruction has a form of is legal only if its unused fields are 0 (R134). -/
theorem decodePlain_ok {i j : Instr} {w : Word} (h : decodePlain i w = .ok j) :
    j = i ∧ nField w = 0 ∧ immField w = 0 := by
  unfold decodePlain at h
  split_ifs at h with h1 h2
  exact ⟨by simpa using h.symm, by simpa using h1, by simpa using h2⟩

theorem decodeRead_ok {j : Instr} {w : Word} (h : decodeRead w = .ok j) :
    j = .brRead (nField w) ∧ (nField w).toNat ≤ 32 ∧ immField w = 0 := by
  unfold decodeRead at h
  split_ifs at h with h1 h2
  exact ⟨by simpa using h.symm, by omega, by simpa using h2⟩

theorem decodeCrc_ok {j : Instr} {w : Word} (h : decodeCrc w = .ok j) :
    j = .brCrc (immField w) ∧ nField w = 0 := by
  unfold decodeCrc at h
  split_ifs at h with h1
  exact ⟨by simpa using h.symm, by simpa using h1⟩

end Sys2Proof
end

