-- ==== Sys2Proof/Laws/Seek.lean ====
section
/-! SUPPORT. SM_PARSE: when a Xing/Info tag fits and what it then holds, the LAME check, and the tagged union its registers are (R501). -/

namespace Sys2Proof.Machine

/-- An optional field: absent and skipped, or present, fitting and stored (R510). -/
theorem XingParse.field_cases {x y : XingParse} {present : Bool} {width : Nat} {put : Nat → SeekRegs → SeekRegs}
    (h : x.field present width put = some y) :
    (present = false ∧ y = x) ∨
      (present = true ∧ width ≤ x.rem ∧
        y = { pos := x.pos + width, rem := x.rem - width, regs := put x.pos x.regs }) := by
  unfold XingParse.field at h
  split_ifs at h with h1 h2
  · cases h; exact .inl ⟨h1, rfl⟩
  · cases h; exact .inr ⟨by simpa using h1, by omega, rfl⟩

/-- A field that is present only if its flag is set takes its width times the flag. -/
theorem XingParse.field_eq {x : XingParse} {present : Bool} {width : Nat} {put : Nat → SeekRegs → SeekRegs} :
    x.field present width put =
      if x.rem < width * present.toNat then none
      else some { pos := x.pos + width * present.toNat, rem := x.rem - width * present.toNat,
                  regs := if present then put x.pos x.regs else x.regs } := by
  cases present <;> simp [XingParse.field]

/-- A register of the seek table below TOC_ENTRIES holds its entry (R65). -/
theorem tocRegs_get {c : Config} (entry : Nat → Nat) {j : Nat} (h : j < 100) (hj : j < c.tocEntries) :
    (tocRegs c entry)[j] = BitVec.ofNat 8 (entry j) := by
  rw [tocRegs, Vector.getElem_ofFn, if_pos hj]

/-- And one from TOC_ENTRIES on reads 0. -/
theorem tocRegs_past {c : Config} (entry : Nat → Nat) {j : Nat} (h : j < 100) (hj : c.tocEntries ≤ j) :
    (tocRegs c entry)[j] = 0 := by
  rw [tocRegs, Vector.getElem_ofFn, if_neg (not_lt.2 hj)]

/-- The registers a Xing parse leaves: the four optional fields after the flags word, each at the place the ones before it leave (R510). -/
def xingRegs (c : Config) (v : BitView) (pos : Nat) : SeekRegs :=
  let flags : Word := BitVec.ofNat 32 (bits v pos 32)
  let p0 := pos + 32
  let p1 := p0 + 32 * (flags.getLsbD 0).toNat
  let p2 := p1 + 32 * (flags.getLsbD 1).toNat
  let p3 := p2 + 8 * c.tocEntries * (flags.getLsbD 2).toNat
  let r : SeekRegs := { SeekRegs.zero with xingFlags := flags }
  let r := if flags.getLsbD 0 then putFrames v p0 r else r
  let r := if flags.getLsbD 1 then putBytes v p1 r else r
  let r := if flags.getLsbD 2 then putToc c v p2 r else r
  if flags.getLsbD 3 then putScale v p3 r else r

/-- The number of bits the flagged fields and the flags word take (R510). -/
def xingLength (c : Config) (v : BitView) (pos : Nat) : Nat :=
  let flags : Word := BitVec.ofNat 32 (bits v pos 32)
  32 + 32 * (flags.getLsbD 0).toNat + 32 * (flags.getLsbD 1).toNat + 8 * c.tocEntries * (flags.getLsbD 2).toNat
    + 32 * (flags.getLsbD 3).toNat

/-- `parse_xing` is Malformed exactly when the flagged fields do not fit (R510, R511). -/
theorem parseXing_eq (c : Config) (v : BitView) (pos rem : Nat) :
    parseXing c v pos rem = if rem < 32 ∨ rem < xingLength c v pos then none else some (xingRegs c v pos) := by
  unfold parseXing xingLength xingRegs
  dsimp only
  generalize (BitVec.ofNat 32 (bits v pos 32) : Word) = flags
  by_cases h : rem < 32
  · rw [if_pos h, if_pos (.inl h)]
  rw [if_neg h]
  simp only [XingParse.field_eq]
  by_cases h0 : rem - 32 < 32 * (flags.getLsbD 0).toNat
  · rw [if_pos h0, if_pos (by omega)]; rfl
  by_cases h1 : rem - 32 - 32 * (flags.getLsbD 0).toNat < 32 * (flags.getLsbD 1).toNat
  · rw [if_neg h0, Option.bind_some, if_pos h1, if_pos (by omega)]; rfl
  by_cases h2 : rem - 32 - 32 * (flags.getLsbD 0).toNat - 32 * (flags.getLsbD 1).toNat < 8 * c.tocEntries * (flags.getLsbD 2).toNat
  · rw [if_neg h0, Option.bind_some, if_neg h1, Option.bind_some, if_pos h2, if_pos (by omega)]; rfl
  by_cases h3 : rem - 32 - 32 * (flags.getLsbD 0).toNat - 32 * (flags.getLsbD 1).toNat
      - 8 * c.tocEntries * (flags.getLsbD 2).toNat < 32 * (flags.getLsbD 3).toNat
  · rw [if_neg h0, Option.bind_some, if_neg h1, Option.bind_some, if_neg h2, Option.bind_some, if_pos h3,
      if_pos (by omega)]; rfl
  · rw [if_neg (show ¬(rem < 32 ∨ rem < 32 + 32 * (flags.getLsbD 0).toNat + 32 * (flags.getLsbD 1).toNat
        + 8 * c.tocEntries * (flags.getLsbD 2).toNat + 32 * (flags.getLsbD 3).toNat) by omega),
      if_neg h0, Option.bind_some, if_neg h1, Option.bind_some, if_neg h2, Option.bind_some, if_neg h3]
    rfl

/-- Nothing but the flags word and the four optional fields comes from a Xing parse. -/
theorem xingRegs_spec (c : Config) (v : BitView) (pos : Nat) :
    let flags : Word := BitVec.ofNat 32 (bits v pos 32)
    let p0 := pos + 32
    let p1 := p0 + 32 * (flags.getLsbD 0).toNat
    let p2 := p1 + 32 * (flags.getLsbD 1).toNat
    let p3 := p2 + 8 * c.tocEntries * (flags.getLsbD 2).toNat
    xingRegs c v pos =
      { status := { kind := .none, framesValid := flags.getLsbD 0, bytesValid := flags.getLsbD 1,
                    tocValid := flags.getLsbD 2, scaleValid := flags.getLsbD 3, lameState := .absent,
                    malformed := false },
        xingFlags := flags,
        frames := if flags.getLsbD 0 then BitVec.ofNat 32 (bits v p0 32) else 0,
        bytes := if flags.getLsbD 1 then BitVec.ofNat 32 (bits v p1 32) else 0,
        scale := if flags.getLsbD 3 then BitVec.ofNat 32 (bits v p3 32) else 0,
        vbri := .zero, lame := .zero, enc := Vector.replicate 9 0,
        toc := if flags.getLsbD 2 then tocRegs c fun i => bits v (p2 + 8 * i) 8
               else Vector.replicate 100 0 } := by
  unfold xingRegs
  dsimp only
  generalize (BitVec.ofNat 32 (bits v pos 32) : Word) = flags
  generalize flags.getLsbD 0 = b0, flags.getLsbD 1 = b1, flags.getLsbD 2 = b2, flags.getLsbD 3 = b3
  cases b0 <;> cases b1 <;> cases b2 <;> cases b3 <;> rfl

/-- The union of R501 holds of the registers of a Xing, Info or LAME tag, before the LAME check. -/
theorem xingRegs_union (c : Config) (v : BitView) (pos : Nat) {k : TagKind} (hk : k = .xing ∨ k = .info) :
    ((xingRegs c v pos).setKind k).Union := by
  have := xingRegs_spec c v pos
  dsimp only at this
  rw [this]
  rcases hk with rfl | rfl <;> constructor <;> simp +contextual [SeekRegs.setKind, LameRegs.zero]

theorem SeekRegs.zero_union : SeekRegs.zero.Union := by
  constructor <;> simp [SeekRegs.zero, SeekStatus.zero, LameRegs.zero]

theorem SeekRegs.malformed_union : SeekRegs.malformed.Union := by
  constructor <;> simp [SeekRegs.malformed, SeekRegs.zero, SeekStatus.zero, LameRegs.zero]

/-- The LAME check keeps the union, and every field outside LAME (R520 to R522). -/
theorem lameCheck_union (c : Config) (v : BitView) (f : FrameContext) {r : SeekRegs} (h : r.Union)
    (hl : r.lame = .zero) (he : r.enc = Vector.replicate 9 0) (hk : r.status.kind ≠ .vbri)
    (hm : r.status.malformed = false) : (lameCheck c v f r).Union := by
  unfold lameCheck
  obtain ⟨h1, h2, h3, h4, h5, h6, h7, h8, h9, h10⟩ := h
  split_ifs
  · exact ⟨h1, h2, h3, h4, h5, h6, h7, h8, h9, h10⟩
  · constructor <;> simp_all [acceptLame]
  · constructor <;> simp_all [LameRegs.zero]

/-- What the LAME check leaves alone. -/
theorem lameCheck_frame (c : Config) (v : BitView) (f : FrameContext) (r : SeekRegs) :
    (lameCheck c v f r).status.kind = r.status.kind ∧
      (lameCheck c v f r).status.framesValid = r.status.framesValid ∧
      (lameCheck c v f r).status.bytesValid = r.status.bytesValid ∧
      (lameCheck c v f r).status.tocValid = r.status.tocValid ∧
      (lameCheck c v f r).status.scaleValid = r.status.scaleValid ∧
      (lameCheck c v f r).status.malformed = r.status.malformed ∧
      (lameCheck c v f r).xingFlags = r.xingFlags ∧ (lameCheck c v f r).frames = r.frames ∧
      (lameCheck c v f r).bytes = r.bytes ∧ (lameCheck c v f r).scale = r.scale ∧
      (lameCheck c v f r).vbri = r.vbri ∧ (lameCheck c v f r).toc = r.toc := by
  unfold lameCheck
  split_ifs <;> simp [acceptLame]

/-- Every result of SM_PARSE is a tagged union. -/
theorem parseTag_union {c : Config} {v : BitView} {f : FrameContext} {t l : Nat} {r : SeekRegs}
    (h : parseTag c v f t l = some r) : r.Union := by
  have xing (k : TagKind) (hk : k = .xing ∨ k = .info)
      (h : (parseXing c v (t + 32) (l - 32)).map (fun r => lameCheck c v f (r.setKind k)) = some r) : r.Union := by
    rw [parseXing_eq] at h
    split_ifs at h
    · cases h
    · rw [Option.map_some, Option.some.injEq] at h
      have hs := xingRegs_spec c v (t + 32)
      dsimp only at hs
      subst h
      refine lameCheck_union _ _ _ (xingRegs_union c v (t + 32) hk) ?_ ?_ ?_ ?_ <;> rw [hs] <;>
        rcases hk with rfl | rfl <;> simp [SeekRegs.setKind]
  have vbri (h : findVbri c v f = some r) : r.Union := by
    unfold findVbri parseVbri at h
    dsimp only at h
    split_ifs at h <;> cases h
    · exact SeekRegs.zero_union
    · exact SeekRegs.zero_union
    · constructor <;> simp [vbriRegs, SeekRegs.zero, SeekStatus.zero, LameRegs.zero]
  unfold parseTag at h
  split at h
  · exact xing .xing (.inl rfl) h
  · exact xing .info (.inr rfl) h
  · cases h
    refine lameCheck_union _ _ _ ?_ rfl rfl (by simp [SeekRegs.setKind]) rfl
    constructor <;> simp [SeekRegs.setKind, SeekRegs.zero, SeekStatus.zero, LameRegs.zero]
  · exact vbri h
  · exact vbri h

/-- The registers of a tag with a Xing, Info or LAME magic are those of a LAME check over registers with no LAME part yet: what the magic and the fields after it left (R500). -/
theorem parseTag_lame {c : Config} {v : BitView} {f : FrameContext} {t l : Nat} {r : SeekRegs}
    (h : parseTag c v f t l = some r)
    (hk : r.status.kind = .xing ∨ r.status.kind = .info ∨ r.status.kind = .lame) :
    ∃ r0 : SeekRegs, r = lameCheck c v f r0 ∧ r0.lame = .zero ∧ r0.enc = Vector.replicate 9 0 ∧
      r0.status.lameState = .absent ∧
      (((tagKindAt c v t l = .xing ∨ tagKindAt c v t l = .info) ∧
          r0 = (xingRegs c v (t + 32)).setKind (tagKindAt c v t l)) ∨
        (tagKindAt c v t l = .lame ∧ r0 = SeekRegs.zero.setKind .lame)) := by
  have hs := xingRegs_spec c v (t + 32)
  dsimp only at hs
  have vbri (h : findVbri c v f = some r) : False := by
    unfold findVbri parseVbri at h
    dsimp only at h
    split_ifs at h <;> cases h <;>
      simp [vbriRegs, SeekRegs.zero, SeekStatus.zero] at hk
  unfold parseTag at h
  split at h
  · rw [parseXing_eq] at h
    split_ifs at h
    · cases h
    · rw [Option.map_some, Option.some.injEq] at h
      refine ⟨_, h.symm, ?_, ?_, ?_, .inl ⟨.inl ‹_›, by rw [‹tagKindAt c v t l = _›]⟩⟩ <;> rw [hs] <;> rfl
  · rw [parseXing_eq] at h
    split_ifs at h
    · cases h
    · rw [Option.map_some, Option.some.injEq] at h
      refine ⟨_, h.symm, ?_, ?_, ?_, .inl ⟨.inr ‹_›, by rw [‹tagKindAt c v t l = _›]⟩⟩ <;> rw [hs] <;> rfl
  · cases h
    exact ⟨_, rfl, rfl, rfl, rfl, .inr ⟨‹_›, rfl⟩⟩
  · exact absurd (vbri h) id
  · exact absurd (vbri h) id

end Sys2Proof.Machine
end

