-- ==== Sys2Proof/Laws/Exec.lean ====
section
/-! SUPPORT. Commands as a whole: each one answers a next state, and, for the commands with a test in front, the answer on either side of it. -/

namespace Sys2Proof.Machine

/-- No command stops the machine (R701, R830). -/
theorem exec_total (i : Instr) (s : State) : ∃ t, exec i s = .next t := by
  cases i <;> simp only [exec, execNop, execBrSet, execBrRead, execBrSkip, execBrPos, execBrMark, execBrDist,
    execBrCrc, execFhDecode, execFhFramelen, execScSetbuf, execScExtend, execScSetskip, execScNext, execSmParse,
    accessFault, illegalCommand]
  all_goals repeat' split
  all_goals exact ⟨_, rfl⟩

theorem exec_brRead {s : State} {n : BitVec 6} (h1 : n.toNat ≤ 32) (h2 : s.br.pos.toNat + n.toNat ≤ 8 * s.cfg.memBytes) :
    exec (.brRead n) s = .next (((s.setResult (BitVec.ofNat 32 (bits (s.cursorBit fieldPass) s.br.pos.toNat
      n.toNat))).moveCursor (s.br.pos.toNat + n.toNat)).complete) :=
  (if_neg (not_lt.2 h1)).trans (if_neg (not_lt.2 h2))

theorem exec_brRead_fault {s : State} {n : BitVec 6} (h1 : n.toNat ≤ 32)
    (h2 : 8 * s.cfg.memBytes < s.br.pos.toNat + n.toNat) : exec (.brRead n) s = accessFault s :=
  (if_neg (not_lt.2 h1)).trans (if_pos h2)

theorem exec_brSkip {s : State} (h : s.br.pos.toNat + s.arg0.toNat ≤ 8 * s.cfg.memBytes) :
    exec .brSkip s = .next ((s.moveCursor (s.br.pos.toNat + s.arg0.toNat)).complete) :=
  if_neg (not_lt.2 h)

theorem exec_brSkip_fault {s : State} (h : 8 * s.cfg.memBytes < s.br.pos.toNat + s.arg0.toNat) :
    exec .brSkip s = accessFault s := if_pos h

theorem exec_brSet {s : State} (h : s.arg0.toNat ≤ 8 * s.cfg.memBytes) :
    exec .brSet s = .next ((s.loadCursor s.arg0.toNat).complete) := if_neg (not_lt.2 h)

theorem exec_brSet_fault {s : State} (h : 8 * s.cfg.memBytes < s.arg0.toNat) : exec .brSet s = accessFault s := if_pos h

theorem exec_brCrc {s : State} (seed : Half) (h : s.br.pos.toNat + s.arg0.toNat ≤ 8 * s.cfg.memBytes) :
    exec (.brCrc seed) s = .next ((s.setResult
      ((crc16 s.cfg.crcPoly (s.cursorBit crcPass) s.br.pos.toNat s.arg0.toNat seed).setWidth 32)).complete) :=
  if_neg (not_lt.2 h)

theorem exec_brCrc_fault {s : State} (seed : Half) (h : 8 * s.cfg.memBytes < s.br.pos.toNat + s.arg0.toNat) :
    exec (.brCrc seed) s = accessFault s := if_pos h

theorem exec_smParse {s : State} (h : s.arg0.toNat + s.arg1.toNat ≤ 8 * s.cfg.memBytes) :
    exec .smParse s = match parseTag s.cfg s.bitAt s.frameContext s.arg0.toNat s.arg1.toNat with
      | some r => .next (({ s with sm := r }).complete)
      | none => .next (({ s with sm := .malformed }).raise .malformed) :=
  if_neg (not_lt.2 h)

/-- On a LAME magic SM_PARSE runs the LAME check alone (R515). -/
theorem exec_smParse_lame {s : State} (h : s.arg0.toNat + s.arg1.toNat ≤ 8 * s.cfg.memBytes)
    (hk : tagKindAt s.cfg s.bitAt s.arg0.toNat s.arg1.toNat = .lame) :
    exec .smParse s = .next (State.complete { s with
      sm := lameCheck s.cfg s.bitAt s.frameContext (SeekRegs.zero.setKind .lame) }) := by
  have ht : parseTag s.cfg s.bitAt s.frameContext s.arg0.toNat s.arg1.toNat
      = some (lameCheck s.cfg s.bitAt s.frameContext (SeekRegs.zero.setKind .lame)) := by
    rw [parseTag, hk]
  rw [exec_smParse h, ht]

theorem exec_smParse_fault {s : State} (h : 8 * s.cfg.memBytes < s.arg0.toNat + s.arg1.toNat) :
    exec .smParse s = accessFault s := if_pos h

end Sys2Proof.Machine
end

