-- ==== Sys2Proof/Laws/PerInstr.lean ====
section
/-! SUPPORT. The family of statements made per instruction: the word of an instruction matches its row of spec/opcode_table.json. -/

namespace Sys2Proof.Laws.TableRow

open Sys2Proof

/-- The `mask` and `match` words of an instruction's row in spec/opcode_table.json. -/
def row : Instr → Word × Word
  | .nop        => (0xFFFFFFFF, 0x00000000)
  | .brSet      => (0xFFFFFFFF, 0x00000001)
  | .brRead _   => (0xFFFFC0FF, 0x00000002)
  | .brSkip     => (0xFFFFFFFF, 0x00000003)
  | .brPos      => (0xFFFFFFFF, 0x00000004)
  | .brMark     => (0xFFFFFFFF, 0x00000005)
  | .brDist     => (0xFFFFFFFF, 0x00000006)
  | .brCrc _    => (0x0000FFFF, 0x00000007)
  | .fhDecode   => (0xFFFFFFFF, 0x00000010)
  | .fhFramelen => (0xFFFFFFFF, 0x00000011)
  | .scSetbuf   => (0xFFFFFFFF, 0x00000020)
  | .scExtend   => (0xFFFFFFFF, 0x00000021)
  | .scSetskip  => (0xFFFFFFFF, 0x00000022)
  | .scNext     => (0xFFFFFFFF, 0x00000023)
  | .smParse    => (0xFFFFFFFF, 0x00000030)

/-- The word of `i`, under its row's mask, is its row's match. -/
def Statement (i : Instr) : Prop := encode i &&& (row i).1 = (row i).2

theorem nop : Statement .nop := rfl
theorem brSet : Statement .brSet := rfl
theorem brRead (n : BitVec 6) : Statement (.brRead n) := by
  revert n; unfold Statement; decide
theorem brSkip : Statement .brSkip := rfl
theorem brPos : Statement .brPos := rfl
theorem brMark : Statement .brMark := rfl
theorem brDist : Statement .brDist := rfl
theorem brCrc (seed : Half) : Statement (.brCrc seed) := by
  refine BitVec.eq_of_toNat_eq ?_
  rw [BitVec.toNat_and]
  change (commandWord 7#8 0 seed).toNat &&& 2 ^ 16 - 1 = 7
  rw [Nat.and_two_pow_sub_one_eq_mod, commandWord_toNat]
  change (7 + 0 * 2 ^ 8 + seed.toNat * 2 ^ 16) % 2 ^ 16 = 7
  omega
theorem fhDecode : Statement .fhDecode := rfl
theorem fhFramelen : Statement .fhFramelen := rfl
theorem scSetbuf : Statement .scSetbuf := rfl
theorem scExtend : Statement .scExtend := rfl
theorem scSetskip : Statement .scSetskip := rfl
theorem scNext : Statement .scNext := rfl
theorem smParse : Statement .smParse := rfl

end Sys2Proof.Laws.TableRow
end

