-- ==== Sys2Proof/Laws/Rates.lean ====
section
/-! SUPPORT. The rates and sample rates of the tables of this spec, and the smallest frame they allow (R310, R311, R320). -/

namespace Sys2Proof.Machine

/-- A table rate is free format, or at least 8 kb/s (R310). -/
theorem tableBitrate_ge (l : Layer) (lsf : Bool) (i n : Nat) :
    tableBitrate (specConfig n) l lsf i = 0 ∨ 8000 ≤ tableBitrate (specConfig n) l lsf i := by
  change tableBitrate (specConfig 0) l lsf i = 0 ∨ 8000 ≤ tableBitrate (specConfig 0) l lsf i
  by_cases h : i < 15
  · interval_cases i <;> cases l <;> cases lsf <;> decide
  · left
    have hd (t : List Nat) (ht : t.length = 15) : t.getD i 0 = 0 := List.getD_eq_default _ _ (by omega)
    rw [tableBitrate, hd]
    cases l <;> cases lsf <;> rfl

/-- A table sample rate is at most 48000 Hz, and at most 24000 Hz under LSF (R311). -/
theorem tableSamplerate_le {i : Nat} (hi : i < 3) (lsf m : Bool) (n : Nat) :
    0 < tableSamplerate (specConfig n) i lsf m ∧ tableSamplerate (specConfig n) i lsf m ≤ 48000 ∧
      (lsf = true → tableSamplerate (specConfig n) i lsf m ≤ 24000) := by
  change 0 < tableSamplerate (specConfig 0) i lsf m ∧ tableSamplerate (specConfig 0) i lsf m ≤ 48000 ∧
    (lsf = true → tableSamplerate (specConfig 0) i lsf m ≤ 24000)
  interval_cases i <;> cases lsf <;> cases m <;> decide

/-- At those sample rates a frame of at least 8 kb/s has at least 8 bytes. -/
theorem eight_le_framelen {l : Layer} {lsf pad : Bool} {rate sr : Nat} (h : 8000 ≤ rate) (h0 : 0 < sr)
    (h1 : sr ≤ 48000) (h2 : lsf = true → sr ≤ 24000) : 8 ≤ framelen l lsf rate sr pad := by
  have div (c : Nat) (hc : 8 * sr ≤ c * 8000) : 8 ≤ c * rate / sr := by
    rw [Nat.le_div_iff_mul_le h0]
    exact hc.trans (Nat.mul_le_mul_left _ h)
  have div12 : 2 ≤ 12 * rate / sr := by rw [Nat.le_div_iff_mul_le h0]; omega
  cases l with
  | one => simp only [framelen]; omega
  | two =>
    have := div 144 (by omega)
    simp only [framelen, slotsOf, reduceCtorEq, and_false, if_false]; omega
  | three =>
    cases lsf
    · have := div 144 (by omega)
      simp only [framelen, slotsOf, Bool.false_eq_true, false_and, if_false]; omega
    · have := h2 rfl
      have := div 72 (by omega)
      simp only [framelen, slotsOf, and_self, if_true]; omega

/-- A decoded header of this spec has a frame of at least 8 bytes at any rate of at least 8 kb/s. -/
theorem Header.eight_le_length {s : State} (hs : s.SpecConfig) {v cv : BitView} {b : Nat} {h : Header} {len : Nat}
    (hd : decodeHeader s.cfg v cv b = .ok h len) {rate : Nat} (hr : 8000 ≤ rate) : 8 ≤ h.length rate := by
  obtain ⟨l, -, rfl, -, -, -, -, h3⟩ := decodeHeader_ok hd
  have := bits_lt v (b + 20) 2
  have h4 := tableSamplerate_le (show bits v (b + 20) 2 < 3 by omega) (!v (b + 12)) (!v (b + 11)) s.cfg.memBytes
  rw [← hs.1] at h4
  exact eight_le_framelen hr h4.1 h4.2.1 h4.2.2

/-- And its bitrate is free format or at least 8 kb/s. -/
theorem Header.bitrate_ge {s : State} (hs : s.SpecConfig) {v cv : BitView} {b : Nat} {h : Header} {len : Nat}
    (hd : decodeHeader s.cfg v cv b = .ok h len) : h.bitrate = 0 ∨ 8000 ≤ h.bitrate := by
  obtain ⟨l, -, rfl, -⟩ := decodeHeader_ok hd
  have := tableBitrate_ge l (!v (b + 12)) (bits v (b + 16) 4) s.cfg.memBytes
  rw [← hs.1] at this
  exact this

end Sys2Proof.Machine
end

