-- ==== Sys2Proof/Tests/Slice0.lean ====
section
/-! SUPPORT. Tests: the WellFormed smoke test, command words written out from the encoding, one-step tests whose expected values are vectors of spec/95_test_vectors.md or worked examples of the rules (each test names its source), and, for every statement with hypotheses, a state and operands that meet them. -/

namespace Sys2Proof.Machine

set_option Elab.async false -- each theorem is checked before the next one is read

/-! ### Helpers -/

/-- The bytes `l` from address `a` on. -/
def cells (a : Nat) : List Byte → Memory
  | [] => []
  | b :: bs => (a, b) :: cells (a + 1) bs

/-- The frame F24 of spec/95_test_vectors.md: 24 bytes. -/
def f24 : List Byte := [0xFF, 0xF3, 0x14, 0xC4] ++ List.replicate 20 0

/-- The eight bytes of the BitReader vectors. -/
def b8 : List Byte := [0xFF, 0xFB, 0x90, 0x64, 0x12, 0x34, 0xA5, 0x0F]

/-- An engine after reset with `m` written. -/
def engine (m : Memory) : State := { State.reset with mem := m }

/-- That engine with the cursor at bit `pos` and operands in ARG0 and ARG1. -/
def reader (m : Memory) (pos a0 a1 : Nat) : State :=
  { engine m with br := { pos := BitVec.ofNat 32 pos, mark := 0 }, arg0 := BitVec.ofNat 32 a0, arg1 := BitVec.ofNat 32 a1 }

/-- That engine with the window `[0, stop)`, its scan start at `next`, and a pending skip. -/
def window (m : Memory) (stop next skip : Nat) (sync : SyncState) : State :=
  { engine m with sc := { StreamCursor.zero with bufEnd := BitVec.ofNat 32 stop, nextPtr := BitVec.ofNat 32 next,
                                                 skip := BitVec.ofNat 32 skip, sync := sync } }

/-- The same with a cached free-format rate. -/
def State.cached (s : State) (rate : Nat) : State := { s with sc := { s.sc with freeRate := BitVec.ofNat 32 rate } }

/-- The state an answer leaves. -/
def after (r : Result) : State :=
  match r with
  | .next t => t
  | .fault _ => State.reset
  | .refused _ => State.reset

theorem next_after (i : Instr) (s : State) : exec i s = .next (after (exec i s)) := by
  obtain ⟨t, h⟩ := exec_total i s
  rw [h]; rfl

/-- The invariants of a state with the reset header and SeekMetadata registers. -/
theorem inv_of {s : State} (hc : s.cfg = specConfig 4096) (hm : s.MemOk) (hb : s.Cursors) (hp : s.Pointers)
    (hf : s.sc.freeRate = 0 ∨ 8000 ≤ s.sc.freeRate.toNat) (hh : s.hdr = .zero) (hs : s.sm = .zero) : s.Inv :=
  ⟨by rw [hc]; decide, hm, hb, hp, fun _ => by rw [hc]; exact hf, by rw [hh]; decide, by rw [hs]; exact SeekRegs.zero_union⟩

/-- Equal but for registers the invariants do not read. -/
theorem spec_of {s : State} (hc : s.cfg = specConfig 4096) : s.SpecConfig := by
  refine ⟨?_, by rw [hc]; decide⟩
  rw [hc]; rfl

/-! ### WellFormed -/

/-- R134 (d): a count above 32 is refused. -/
theorem test_wf_refuses_count_33 : Instr.wf (.brRead 33) = false := by decide
theorem test_wf_refuses_count_63 : Instr.wf (.brRead 63) = false := by decide
theorem test_wf_accepts_count_32 : Instr.wf (.brRead 32) = true := by decide

/-! ### Command words, written out from R132 and R133: IMM16, the reserved bits, N, OP -/

theorem test_word_nop : decode (0b0000000000000000#16 ++ (0b00#2 ++ (0b000000#6 ++ 0b00000000#8))) = .ok .nop := by decide
theorem test_word_brSet : decode (0b0000000000000000#16 ++ (0b00#2 ++ (0b000000#6 ++ 0b00000001#8))) = .ok .brSet := by decide
theorem test_word_brRead_12 : decode 0b00000000000000000000110000000010#32 = .ok (.brRead 12) := by decide
theorem test_word_brRead_32 : decode 0b00000000000000000010000000000010#32 = .ok (.brRead 32) := by decide
theorem test_word_brSkip : decode 0b00000000000000000000000000000011#32 = .ok .brSkip := by decide
theorem test_word_brPos : decode 0b00000000000000000000000000000100#32 = .ok .brPos := by decide
theorem test_word_brMark : decode 0b00000000000000000000000000000101#32 = .ok .brMark := by decide
theorem test_word_brDist : decode 0b00000000000000000000000000000110#32 = .ok .brDist := by decide
theorem test_word_brCrc_ffff : decode 0b11111111111111110000000000000111#32 = .ok (.brCrc 0xFFFF) := by decide
theorem test_word_brCrc_1d0f : decode 0b00011101000011110000000000000111#32 = .ok (.brCrc 0x1D0F) := by decide
theorem test_word_fhDecode : decode 0b00000000000000000000000000010000#32 = .ok .fhDecode := by decide
theorem test_word_fhFramelen : decode 0b00000000000000000000000000010001#32 = .ok .fhFramelen := by decide
theorem test_word_scSetbuf : decode 0b00000000000000000000000000100000#32 = .ok .scSetbuf := by decide
theorem test_word_scExtend : decode 0b00000000000000000000000000100001#32 = .ok .scExtend := by decide
theorem test_word_scSetskip : decode 0b00000000000000000000000000100010#32 = .ok .scSetskip := by decide
theorem test_word_scNext : decode 0b00000000000000000000000000100011#32 = .ok .scNext := by decide
theorem test_word_smParse : decode 0b00000000000000000000000000110000#32 = .ok .smParse := by decide

/-- R134, one word for each of its five cases. -/
theorem test_illegal_words :
    decode 0x00000008 = .error .reservedOp ∧ decode 0x00004000 = .error .reservedBits ∧
    decode 0x00000101 = .error .unusedN ∧ decode 0x00002102 = .error .countTooLarge ∧
    decode 0x00010023 = .error .unusedImm ∧ decode 0x00010002 = .error .unusedImm ∧
    decode 0xFFFF0107 = .error .unusedN := by decide

/-- The table's words, and nothing above 32 bits. -/
theorem test_decodeTableWord : decodeTableWord 32 0x23 = some .scNext ∧ decodeTableWord 32 0x00FF0000 = none ∧
    decodeTableWord 40 0x100000023 = none := by decide

/-! ### One step each -/

/-- 95, V-BR-2 of section 2.1: twelve bits at bit 4 of the eight bytes. -/
theorem test_brRead : (after (exec (.brRead 12) (reader (cells 0 b8) 4 0 0))).result = 0xFFB ∧
    (after (exec (.brRead 12) (reader (cells 0 b8) 4 0 0))).br.pos = 16 := by decide +kernel

/-- 95, V-BR-22: one bit past the end of memory. -/
theorem test_brRead_fault : (after (exec (.brRead 1) (reader [] 32768 0 0))).status.toWord = 0x107 := by decide +kernel

/-- 95, V-BR-20: the end of memory is a legal position. -/
theorem test_brSet_end : (after (exec .brSet (reader [] 0 32768 0))).br.pos = 32768 := by decide +kernel

/-- 95, V-BR-24: one bit further is not. -/
theorem test_brSet_fault : (after (exec .brSet (reader [] 32768 32769 0))).status.code = .accessFault := by decide +kernel

/-- 95, V-BR-28: the sum does not wrap. -/
theorem test_brSkip_no_wrap : (after (exec .brSkip (reader [] 0 0xFFFFFFFF 0))).status.toWord = 0x107 ∧
    (after (exec .brSkip (reader [] 0 0xFFFFFFFF 0))).br.pos = 0 := by decide +kernel

/-- R225's example: bit 52 is in byte 6, so the position rounds up to 7. -/
theorem test_brPos : (after (exec .brPos (reader [] 52 0 0))).result = 7 := by decide +kernel

theorem test_brMark : (after (exec .brMark (reader [] 52 0 0))).br.mark = 52 := by decide +kernel

/-- R235's examples. -/
theorem test_brDist :
    (after (exec .brDist { reader [] 48 0 0 with br := { pos := 48, mark := 11 } })).result = 37 ∧
    (after (exec .brDist { reader [] 48 0 0 with br := { pos := 11, mark := 48 } })).result = 0xFFFFFFDB := by
  decide +kernel

/-- R205's check value: "123456789" with seed 0xFFFF. -/
theorem test_brCrc :
    (after (exec (.brCrc 0xFFFF) (reader (cells 0 [0x31, 0x32, 0x33, 0x34, 0x35, 0x36, 0x37, 0x38, 0x39]) 0 72 0))).result
      = 0x29B1 := by decide +kernel

/-- 95, V-FH-18: a protected header. -/
theorem test_fhDecode_crc :
    (after (exec .fhDecode (reader (cells 0 [0xFF, 0xFA, 0x90, 0x64, 0x12, 0x34]) 0 0 0))).hdr.crc = 0x29C61234 ∧
    (after (exec .fhDecode (reader (cells 0 [0xFF, 0xFA, 0x90, 0x64, 0x12, 0x34]) 0 0 0))).br.pos = 48 := by
  decide +kernel

/-- 95, V-FH-15: a header at bit 4. -/
theorem test_fhDecode_unaligned :
    (after (exec .fhDecode (reader (cells 0 [0x0F, 0xFF, 0xB9, 0x06, 0x40]) 4 0 0))).hdr
      = { fields := 0x80452123, bitrate := 128000, samplerate := 44100, crc := 0, framesize := 417, samples := 1152,
          duration := 26122 } := by decide +kernel

/-- 95, V-FH-20: 128 kb/s at 44100 Hz, padded. -/
theorem test_fhFramelen : (after (exec .fhFramelen (reader [] 0 128000 0x000BAC44))).result = 418 := by decide +kernel

/-- 95, V-FH-39: a reserved bit of ARG1. -/
theorem test_fhFramelen_reserved :
    (after (exec .fhFramelen (reader [] 0 128000 0x0013AC44))).status.toWord = 0x208 := by decide +kernel

/-- R410: an inverted window. -/
theorem test_scSetbuf_inverted : (after (exec .scSetbuf (reader [] 0 10 5))).status.code = .illegalCommand := by
  decide +kernel

/-- R410: the whole of memory. -/
theorem test_scSetbuf : (after (exec .scSetbuf (reader [] 0 10 4096))).sc.nextPtr = 10 := by decide +kernel

/-- R411: a window does not shrink. -/
theorem test_scExtend : (after (exec .scExtend { window [] 40 0 0 .unsynced with arg0 := 39 })).status.code
    = .illegalCommand := by decide +kernel

theorem test_scSetskip : (after (exec .scSetskip (reader [] 0 0xFFFFFFFF 0))).sc.skip = 0xFFFFFFFF := by decide +kernel

/-- R427: F24 at the scan start is committed. -/
theorem test_scNext_commits :
    (after (exec .scNext (window (cells 0 f24) 24 0 0 .unsynced))).sc
      = { StreamCursor.zero with sync := .synced, bufEnd := 24, thisPtr := 0, nextPtr := 24 } ∧
    (after (exec .scNext (window (cells 0 f24) 24 0 0 .unsynced))).hdr.fields = 0x80246227 := by decide +kernel

/-- R422: a Synced cursor that finds no sync pattern loses sync and moves one byte on. -/
theorem test_scNext_loses_sync :
    (after (exec .scNext (window (cells 0 (List.replicate 8 0)) 8 0 0 .synced))).sc
      = { StreamCursor.zero with bufEnd := 8, thisPtr := 0, nextPtr := 1, lastError := .lostSync } := by decide +kernel

/-- R510: a Xing tag with a frame count of 10 (no LAME block: no frame). -/
theorem test_smParse_xing :
    (after (exec .smParse (reader (cells 0 [0x58, 0x69, 0x6E, 0x67, 0, 0, 0, 1, 0, 0, 0, 10]) 0 0 96))).sm.frames = 10 ∧
    (after (exec .smParse (reader (cells 0 [0x58, 0x69, 0x6E, 0x67, 0, 0, 0, 1, 0, 0, 0, 10]) 0 0 96))).sm.status.toWord
      = 0x9 := by decide +kernel

/-- R511: its count does not fit in 95 bits. -/
theorem test_smParse_malformed :
    (after (exec .smParse (reader (cells 0 [0x58, 0x69, 0x6E, 0x67, 0, 0, 0, 1, 0, 0, 0, 10]) 0 0 95))).sm
      = .malformed := by decide +kernel

/-- The first command after reset: a NOP written to CMD. -/
theorem test_first_step : after (step (State.reset.withFetchWord 32 0)) = { State.reset with draws := 1 } := by
  decide +kernel

/-! ### States that meet the hypotheses of the statements, clause by clause at the edge of its range -/

theorem witness_DecodeEncodeRoundTrip : Instr.wf (.brRead 32) = true ∧ Instr.wf (.brCrc 0xFFFF) = true := by decide

theorem witness_LegalWordIsTheWordOfItsCommand : decode 0x00002002#32 = .ok (.brRead 32) := by decide

/-- An engine with one action pending. -/
def pending (a : HostAction) : State := { State.reset with host := [a] }

/-- One word for each of the five cases, (d) and (c) at their edges: N = 33, N = 1; and a legal word. -/
theorem witness_IllegalWordsRaiseIllegalCommand :
    (pending (.writeReg 32 0x000 0x000000FF#32)).host = .writeReg 32 0x000 0x000000FF#32 :: [] ∧
    0xFF ∉ [0x00, 0x01, 0x02, 0x03, 0x04, 0x05, 0x06, 0x07, 0x10, 0x11, 0x20, 0x21, 0x22, 0x23, 0x30] ∧
    (0x00004000 / 2 ^ 14 % 2 ^ 2 ≠ 0) ∧ (0x00000100 / 2 ^ 8 % 2 ^ 6 ≠ 0 ∧ 0x00000100 % 2 ^ 8 ≠ 0x02) ∧
    (0x00002102 % 2 ^ 8 = 0x02 ∧ 32 < 0x00002102 / 2 ^ 8 % 2 ^ 6) ∧
    (0x00010000 % 2 ^ 8 ≠ 0x07 ∧ 0x00010000 / 2 ^ 16 ≠ 0) := by decide

theorem witness_StepRunsTheDecodedCommand :
    (pending (.writeReg 32 0x000 0x00000023#32)).host = .writeReg 32 0x000 0x00000023#32 :: [] ∧
    decode 0x00000023#32 = .ok .scNext := by decide

/-- The edges of the unmapped ranges. -/
theorem witness_RegisterMapReads :
    (0x05C : Offset) ≤ 0x05C ∧ (0x07F : Offset) < 0x080 ∧ (0x0AC : Offset) ≤ 0x0BF ∧ (0x0F8 : Offset) ≤ 0x0FF ∧
    (0x124 : Offset) ≤ 0x1FF ∧ (0x390 : Offset) ≤ 0xFFF := by decide

/-- Each access: none, a read, the two writable operands, an ignored write, a buffer read at the last byte, and refusals just outside: width 16, offset 0x002, width 16, address MEM_BYTES. -/
theorem witness_HostAccessesFollowTheAccessRules :
    State.reset.host = [] ∧ (pending (.readReg 32 0xFFC)).host = .readReg 32 0xFFC :: [] ∧
    (0xFFC : Offset).toNat % 4 = 0 ∧ (pending (.writeReg 32 0x004 7)).host = .writeReg 32 0x004 7 :: [] ∧
    (pending (.writeReg 32 0x008 7)).host = .writeReg 32 0x008 7 :: [] ∧
    (pending (.writeReg 32 0x00C 7)).host = .writeReg 32 0x00C 7 :: [] ∧
    (0x00C : Offset).toNat % 4 = 0 ∧ (0x00C : Offset) ≠ 0x000 ∧ (0x00C : Offset) ≠ 0x004 ∧ (0x00C : Offset) ≠ 0x008 ∧
    (pending (.readBuf 8 4095)).host = .readBuf 8 4095 :: [] ∧ 4095 < (pending (.readBuf 8 4095)).cfg.memBytes ∧
    (pending (.readReg 16 0x000)).host = .readReg 16 0x000 :: [] ∧ 16 ≠ 32 ∧
    (pending (.writeReg 32 0x002 7)).host = .writeReg 32 0x002 7 :: [] ∧ (0x002 : Offset).toNat % 4 ≠ 0 ∧
    (pending (.readBuf 16 0)).host = .readBuf 16 0 :: [] ∧ 16 ≠ 8 ∧
    (pending (.writeBuf 8 4096 7)).host = .writeBuf 8 4096 7 :: [] ∧
    (pending (.writeBuf 8 4096 7)).cfg.memBytes ≤ 4096 := by decide

theorem witness_BufferReadAfterWrite :
    (pending (.writeBuf 8 4095 7)).host = .writeBuf 8 4095 7 :: [] ∧
    4095 < (pending (.writeBuf 8 4095 7)).cfg.memBytes ∧ (pending (.writeBuf 8 4095 7)).mem.wf := by decide

theorem witness_ConformingHostNeverStops :
    (pending (.writeReg 32 0x000 0xFFFFFFFF)).Conforming ∧ (pending (.writeBuf 8 4095 7)).Conforming := by
  decide

/-- The smallest and the largest MEM_BYTES of R7. -/
theorem witness_ResetStateAsStated : (specConfig 64).wf ∧ (specConfig (2 ^ 28)).wf := by decide

theorem witness_ResetInputClearsEveryRegister : (pending .reset).host = .reset :: [] := rfl

theorem inv_pending (a : HostAction) : (pending a).Inv :=
  inv_of rfl (show State.reset.MemOk by decide) (show State.reset.Cursors by decide)
    (show State.reset.Pointers by decide) (.inl rfl) rfl rfl

theorem witness_EveryStepKeepsTheInvariants :
    (pending (.writeBuf 8 4095 7)).Inv ∧
    step (pending (.writeBuf 8 4095 7)) = .next (after (step (pending (.writeBuf 8 4095 7)))) :=
  ⟨inv_pending _, rfl⟩

/-- For the statements about every command that answers a next state: each of the rules for all commands. -/
theorem witness_CommandsKeepTheArgumentsAndTheBuffer :
    exec .scNext State.reset = .next (after (exec .scNext State.reset)) := next_after ..

theorem witness_StickyBitsAreNeverCleared :
    exec .brSet (reader [] 0 32769 0) = .next (after (exec .brSet (reader [] 0 32769 0))) ∧
    (after (exec .brSet (reader [] 0 32769 0))).status.fault = true := ⟨next_after .., by decide +kernel⟩

theorem witness_ResultIsKeptUnlessAValueIsReturned :
    exec .brSet (reader [] 0 32769 0) = .next (after (exec .brSet (reader [] 0 32769 0))) ∧
    (after (exec .brSet (reader [] 0 32769 0))).status.code ≠ .ok := ⟨next_after .., by decide +kernel⟩

theorem witness_OnlyScNextRecordsItsCode :
    exec .scNext State.reset = .next (after (exec .scNext State.reset)) ∧
    exec .nop State.reset = .next (after (exec .nop State.reset)) := ⟨next_after .., next_after ..⟩

theorem witness_HeaderRegistersChangeOnlyOnASuccessfulDecode :
    exec .fhDecode (reader (cells 0 b8) 0 0 0) = .next (after (exec .fhDecode (reader (cells 0 b8) 0 0 0))) ∧
    (after (exec .fhDecode (reader (cells 0 b8) 0 0 0))).status.code = .ok := ⟨next_after .., by decide +kernel⟩

theorem witness_RegistersBelongToTheirUnits :
    exec .smParse (reader [] 0 0 0) = .next (after (exec .smParse (reader [] 0 0 0))) ∧
    exec .nop State.reset = .next (after (exec .nop State.reset)) ∧
    Instr.nop ≠ .smParse ∧ Instr.nop ≠ .brMark ∧ Instr.nop ≠ .scSetbuf ∧ Instr.nop ≠ .scExtend ∧
    Instr.nop ≠ .scSetskip ∧ Instr.nop ≠ .scNext := ⟨next_after .., next_after .., by decide⟩

theorem inv_window (m : Memory) (stop next skip : Nat) (sync : SyncState)
    (h : (window m stop next skip sync).MemOk ∧ (window m stop next skip sync).Pointers) :
    (window m stop next skip sync).Inv :=
  inv_of rfl h.1 (show State.reset.Cursors by decide) h.2 (.inl rfl) rfl rfl

theorem inv_reader (m : Memory) (pos a0 a1 : Nat) (h : (reader m pos a0 a1).MemOk ∧ (reader m pos a0 a1).Cursors) :
    (reader m pos a0 a1).Inv :=
  inv_of rfl h.1 h.2 (show State.reset.Pointers by decide) (.inl rfl) rfl rfl

/-- Each code, from a state that meets the invariants. -/
theorem witness_EachCodeComesFromItsCommands :
    ((window [] 0 0 0 .unsynced).Inv ∧ (after (exec .scNext (window [] 0 0 0 .unsynced))).status.code = .needMoreData) ∧
    ((window (cells 0 (List.replicate 8 0)) 8 0 0 .synced).Inv ∧
      (after (exec .scNext (window (cells 0 (List.replicate 8 0)) 8 0 0 .synced))).status.code = .lostSync) ∧
    ((reader (cells 0 [0xFF, 0xEB, 0x10, 0xC0]) 0 0 0).Inv ∧
      (after (exec .fhDecode (reader (cells 0 [0xFF, 0xEB, 0x10, 0xC0]) 0 0 0))).status.code = .badLayer) ∧
    ((reader (cells 0 [0xFF, 0xFB, 0xF0, 0xC0]) 0 0 0).Inv ∧
      (after (exec .fhDecode (reader (cells 0 [0xFF, 0xFB, 0xF0, 0xC0]) 0 0 0))).status.code = .badBitrate) ∧
    ((reader (cells 0 [0xFF, 0xFB, 0x9C, 0xC0]) 0 0 0).Inv ∧
      (after (exec .fhDecode (reader (cells 0 [0xFF, 0xFB, 0x9C, 0xC0]) 0 0 0))).status.code = .badSampleRate) ∧
    ((reader (cells 0 [0x58, 0x69, 0x6E, 0x67]) 0 0 63).Inv ∧
      (after (exec .smParse (reader (cells 0 [0x58, 0x69, 0x6E, 0x67]) 0 0 63))).status.code = .malformed) ∧
    ((reader [] 32768 0 0).Inv ∧ Instr.wf (.brRead 1) = true ∧
      (after (exec (.brRead 1) (reader [] 32768 0 0))).status.code = .accessFault) ∧
    ((reader [] 0 10 5).Inv ∧ (after (exec .scSetbuf (reader [] 0 10 5))).status.code = .illegalCommand) :=
  ⟨⟨inv_window _ _ _ _ _ (by decide), by decide +kernel⟩, ⟨inv_window _ _ _ _ _ (by decide), by decide +kernel⟩,
    ⟨inv_reader _ _ _ _ (by decide), by decide +kernel⟩, ⟨inv_reader _ _ _ _ (by decide), by decide +kernel⟩,
    ⟨inv_reader _ _ _ _ (by decide), by decide +kernel⟩, ⟨inv_reader _ _ _ _ (by decide), by decide +kernel⟩,
    ⟨inv_reader _ _ _ _ (by decide), by decide, by decide +kernel⟩,
    ⟨inv_reader _ _ _ _ (by decide), by decide +kernel⟩⟩

/-- The last 32 bits of memory, and no bits at its end. -/
theorem witness_BrReadReturnsTheBitsMsbFirst :
    (reader [] 32736 0 0).cfg.wf ∧ (32 : BitVec 6).toNat ≤ 32 ∧
    (reader [] 32736 0 0).br.pos.toNat + (32 : BitVec 6).toNat ≤ 8 * (reader [] 32736 0 0).cfg.memBytes ∧
    (reader [] 32768 0 0).br.pos.toNat + (0 : BitVec 6).toNat ≤ 8 * (reader [] 32768 0 0).cfg.memBytes := by decide

/-- A write to the second byte at the cursor, one to the byte after it, a load, and a command that is not one. -/
theorem witness_HazardLastsUntilTheCursorIsLoaded :
    (pending (.writeBuf 8 1 7)).host = .writeBuf 8 1 7 :: [] ∧ 1 < (pending (.writeBuf 8 1 7)).cfg.memBytes ∧
    1 = (pending (.writeBuf 8 1 7)).br.pos.toNat / 8 + 1 ∧
    (pending (.writeBuf 8 2 7)).host = .writeBuf 8 2 7 :: [] ∧
    (exec .brSet State.reset = .next (after (exec .brSet State.reset)) ∧
      (after (exec .brSet State.reset)).status.code = .ok) ∧
    exec .brSkip State.reset = .next (after (exec .brSkip State.reset)) :=
  ⟨rfl, by decide, by decide, rfl, ⟨next_after .., by decide⟩, next_after ..⟩

/-- One bit too far, for each of the four commands. -/
theorem witness_BitReaderFaultsPastMemory :
    ((1 : BitVec 6).toNat ≤ 32 ∧
      8 * (reader [] 32768 1 0).cfg.memBytes < (reader [] 32768 1 0).br.pos.toNat + (1 : BitVec 6).toNat) ∧
    8 * (reader [] 32768 1 0).cfg.memBytes < (reader [] 32768 1 0).br.pos.toNat + (reader [] 32768 1 0).arg0.toNat ∧
    8 * (reader [] 0 32769 0).cfg.memBytes < (reader [] 0 32769 0).arg0.toNat := by decide

/-- A word with OP 0 that is not 0. -/
theorem witness_NopOnlyResetsTheCode : (0x00010000#32 : Word) ≠ 0 ∧ (0x00010000#32 : Word).toNat % 2 ^ 8 = 0 := by decide

/-- Exactly to the end of memory, and one bit further. -/
theorem witness_BrSkipAndBrSetMoveTheCursor :
    (reader [] 32760 8 0).cfg.wf ∧
    (reader [] 32760 8 0).br.pos.toNat + (reader [] 32760 8 0).arg0.toNat ≤ 8 * (reader [] 32760 8 0).cfg.memBytes ∧
    8 * (reader [] 32760 9 0).cfg.memBytes < (reader [] 32760 9 0).br.pos.toNat + (reader [] 32760 9 0).arg0.toNat ∧
    (reader [] 0 32768 0).arg0.toNat ≤ 8 * (reader [] 0 32768 0).cfg.memBytes ∧
    8 * (reader [] 0 32769 0).cfg.memBytes < (reader [] 0 32769 0).arg0.toNat := by decide

theorem witness_BrPosRoundsUp : (reader [] 32768 0 0).Inv := inv_reader _ _ _ _ (by decide)

/-- A cursor at the saved position, and one before it. -/
theorem witness_BrDistIsTheSignedDistance :
    ((reader [] 0 0 0).Inv ∧ (reader [] 0 0 0).br.mark.toNat ≤ (reader [] 0 0 0).br.pos.toNat) ∧
    (State.Inv { reader [] 0 0 0 with br := { pos := 0, mark := 1 } } ∧ (0 : Word).toNat < (1 : Word).toNat) :=
  ⟨⟨inv_reader _ _ _ _ (by decide), by decide⟩,
    ⟨inv_of rfl (by decide) (by decide) (by decide) (.inl rfl) rfl rfl, by decide⟩⟩

/-- Nothing at the end of memory, and its last byte. -/
theorem witness_BrCrcReplaysTheBits :
    ((reader [] 32768 0 0).br.pos.toNat + (reader [] 32768 0 0).arg0.toNat ≤ 8 * (reader [] 32768 0 0).cfg.memBytes ∧
      (reader [] 32768 0 0).arg0 = 0) ∧
    ((reader [] 32760 8 0).br.pos.toNat + (reader [] 32760 8 0).arg0.toNat ≤ 8 * (reader [] 32760 8 0).cfg.memBytes ∧
      (reader [] 32760 8 0).arg0.toNat = 8 * 1) := by decide

theorem witness_BitReaderIsApartFromTheOtherUnits :
    exec (.brRead 8) (reader (cells 0 b8) 0 0 0) = .next (after (exec (.brRead 8) (reader (cells 0 b8) 0 0 0))) :=
  next_after ..

/-- A plain header in the last four bytes of memory, a protected one in the last six. -/
theorem witness_DecodeReadsTheHeaderWord :
    (let v := (engine (cells 4092 [0xFF, 0xFB, 0x90, 0x64])).bitAt
     let w := bits v 32736 32
     ¬(w / 2 ^ 20 % 2 = 0 ∧ w / 2 ^ 19 % 2 = 1) ∧ w / 2 ^ 17 % 4 ≠ 0 ∧ w / 2 ^ 12 % 16 ≠ 15 ∧ w / 2 ^ 10 % 4 ≠ 3 ∧
       32736 + (if w / 2 ^ 16 % 2 = 0 then 48 else 32) ≤ 8 * (specConfig 4096).memBytes) ∧
    (let v := (engine (cells 4090 [0xFF, 0xFA, 0x90, 0x64, 0x12, 0x34])).bitAt
     let w := bits v 32720 32
     ¬(w / 2 ^ 20 % 2 = 0 ∧ w / 2 ^ 19 % 2 = 1) ∧ w / 2 ^ 17 % 4 ≠ 0 ∧ w / 2 ^ 12 % 16 ≠ 15 ∧ w / 2 ^ 10 % 4 ≠ 3 ∧
       32720 + (if w / 2 ^ 16 % 2 = 0 then 48 else 32) ≤ 8 * (specConfig 4096).memBytes) := by decide +kernel

/-- `FF EB 10 C0`, `FF F9 10 C0`, `FF FB F0 C0` and `FF FB 9C C0`, each in the last four bytes of memory. -/
theorem witness_ReservedHeaderValuesFailWithTheirError :
    (let w := bits (engine (cells 4092 [0xFF, 0xEB, 0x10, 0xC0])).bitAt 32736 32
     32736 + 13 ≤ 8 * (specConfig 4096).memBytes ∧ w / 2 ^ 20 % 2 = 0 ∧ w / 2 ^ 19 % 2 = 1) ∧
    (let w := bits (engine (cells 4092 [0xFF, 0xF9, 0x10, 0xC0])).bitAt 32736 32
     32736 + 15 ≤ 8 * (specConfig 4096).memBytes ∧ w / 2 ^ 17 % 4 = 0) ∧
    (let w := bits (engine (cells 4092 [0xFF, 0xFB, 0xF0, 0xC0])).bitAt 32736 32
     32736 + 20 ≤ 8 * (specConfig 4096).memBytes ∧ w / 2 ^ 16 % 2 ≠ 0 ∧ w / 2 ^ 20 % 2 ≠ 0 ∧ w / 2 ^ 17 % 4 ≠ 0 ∧
       w / 2 ^ 12 % 16 = 15) ∧
    (let w := bits (engine (cells 4092 [0xFF, 0xFB, 0x9C, 0xC0])).bitAt 32736 32
     32736 + 22 ≤ 8 * (specConfig 4096).memBytes ∧ w / 2 ^ 16 % 2 ≠ 0 ∧ w / 2 ^ 20 % 2 ≠ 0 ∧ w / 2 ^ 17 % 4 ≠ 0 ∧
       w / 2 ^ 12 % 16 ≠ 15 ∧ w / 2 ^ 10 % 4 = 3) := by decide +kernel

/-- The record a view holds at `b`, its layer being `l`. -/
def headerOf (s : State) (b : Nat) (l : Layer) : Header := headerAt s.cfg s.bitAt s.bitAt b l

/-- With no overwritten byte the view is the memory: a header that decodes, one for each error, and one past the end of memory. -/
theorem witness_FhDecodeWritesTheHeaderRegisters :
    (reader (cells 0 b8) 0 0 0).stale = [] ∧
    decodeHeader (specConfig 4096) (reader (cells 0 b8) 0 0 0).bitAt (reader (cells 0 b8) 0 0 0).bitAt 0
      = .ok (headerOf (reader (cells 0 b8) 0 0 0) 0 .three) 32 ∧
    decodeHeader (specConfig 4096) (engine (cells 0 [0xFF, 0xEB, 0x10, 0xC0])).bitAt
      (engine (cells 0 [0xFF, 0xEB, 0x10, 0xC0])).bitAt 0 = .err .badLayer ∧
    decodeHeader (specConfig 4096) (engine (cells 0 [0xFF, 0xFB, 0xF0, 0xC0])).bitAt
      (engine (cells 0 [0xFF, 0xFB, 0xF0, 0xC0])).bitAt 0 = .err .badBitrate ∧
    decodeHeader (specConfig 4096) (engine (cells 0 [0xFF, 0xFB, 0x9C, 0xC0])).bitAt
      (engine (cells 0 [0xFF, 0xFB, 0x9C, 0xC0])).bitAt 0 = .err .badSampleRate ∧
    decodeHeader (specConfig 4096) (engine (cells 4094 [0xFF, 0xFB])).bitAt (engine (cells 4094 [0xFF, 0xFB])).bitAt
      32752 = .fault := ⟨rfl, by decide +kernel⟩

/-- A failed decode; 12 bits left; a decode that runs past memory at the bitrate index (95, V-FH-17) and one in the 16 bits its CRC replays; a legal header in the last 48 bits of memory. -/
theorem witness_FhDecodeFailureChangesOnlyStatus :
    (exec .fhDecode (reader (cells 0 [0xFF, 0xEB, 0x10, 0xC0]) 0 0 0)
        = .next (after (exec .fhDecode (reader (cells 0 [0xFF, 0xEB, 0x10, 0xC0]) 0 0 0))) ∧
      (after (exec .fhDecode (reader (cells 0 [0xFF, 0xEB, 0x10, 0xC0]) 0 0 0))).status.code ≠ .ok) ∧
    8 * (reader [] 32756 0 0).cfg.memBytes < (reader [] 32756 0 0).br.pos.toNat + 13 ∧
    (after (exec .fhDecode (reader (cells 4094 [0xFF, 0xFB]) 32752 0 0))).status.toWord = 0x107 ∧
    (after (exec .fhDecode (reader (cells 4093 [0xFF, 0xFA, 0xF0]) 32744 0 0))).status.toWord = 0x107 ∧
    (let s := reader (cells 4090 b8) 32720 0 0
     let w := bits s.bitAt s.br.pos.toNat 32
     s.br.pos.toNat + 48 ≤ 8 * s.cfg.memBytes ∧ s.stale = [] ∧ ¬(w / 2 ^ 20 % 2 = 0 ∧ w / 2 ^ 19 % 2 = 1) ∧
       w / 2 ^ 17 % 4 ≠ 0 ∧ w / 2 ^ 12 % 16 ≠ 15 ∧ w / 2 ^ 10 % 4 ≠ 3) :=
  ⟨⟨next_after .., by decide +kernel⟩, by decide +kernel⟩

theorem witness_FhFramelenEvaluatesTheFormula : State.reset.cfg.wf := by decide

theorem witness_TableFrameLengthsAreBounded :
    (1 ≤ 1 ∧ 1 ≤ 14 ∧ 2 ≤ 2 ∧ (true = true → true = true)) ∧ (1 ≤ 14 ∧ 14 ≤ 14) ∧ (2 ≤ 2 ∧ 8 ≤ 8) := by decide

theorem witness_RateFromDistanceInvertsFramelen :
    0 < 44100 ∧ 4 ≤ 4 ∧ framelen .three false (128 * 1000) 44100 false = 417 := by decide

/-- A skip of one byte past an empty window. -/
theorem witness_SkipPastTheWindowStaysPending :
    (window [] 24 24 1 .unsynced).Inv ∧
    (window [] 24 24 1 .unsynced).sc.bufEnd.toNat < (window [] 24 24 1 .unsynced).base :=
  ⟨inv_window _ _ _ _ _ (by decide), by decide⟩

/-- Seven bytes left, and eight without a sync pattern. -/
theorem witness_SyncedPathTrustsOnlyTheNextPointer :
    ((window [] 7 0 0 .synced).Inv ∧ (window [] 7 0 0 .synced).base ≤ 7 ∧
      (window [] 7 0 0 .synced).sc.sync = .synced ∧
      (window [] 7 0 0 .synced).sc.bufEnd.toNat
        < (window [] 7 0 0 .synced).base + (window [] 7 0 0 .synced).cfg.guardBytes) ∧
    (let s := window (cells 0 (List.replicate 8 0)) 8 0 0 .synced
     s.Inv ∧ s.base ≤ s.sc.bufEnd.toNat ∧ s.sc.sync = .synced ∧ s.base + s.cfg.guardBytes ≤ s.sc.bufEnd.toNat ∧
       s.syncAt s.base = false) :=
  ⟨⟨inv_window _ _ _ _ _ (by decide), by decide⟩, inv_window _ _ _ _ _ (by decide), by decide +kernel⟩

/-- Eight bytes with no sync pattern among them. -/
theorem witness_UnsyncedScanWithoutASyncPointNeedsMoreData :
    let s := window (cells 0 (List.replicate 8 0)) 8 0 0 .unsynced
    s.Inv ∧ s.base ≤ s.sc.bufEnd.toNat ∧ s.sc.sync = .unsynced ∧
      ∀ q, s.base ≤ q → q + s.cfg.guardBytes ≤ s.sc.bufEnd.toNat → s.syncAt q = false := by
  refine ⟨inv_window _ _ _ _ _ (by decide), by decide, rfl, fun q _ h => ?_⟩
  have h : q + 8 ≤ 8 := h
  obtain rfl : q = 0 := by omega
  decide +kernel

/-- `FF F9 10 C0` with exactly the guard behind it. -/
theorem witness_HeaderErrorMovesOneByteFurther :
    let s := window (cells 0 [0xFF, 0xF9, 0x10, 0xC0, 0, 0, 0, 0]) 8 0 0 .unsynced
    s.Inv ∧ s.SyncPoint 0 ∧ s.decodeAt 0 = .err .badLayer :=
  ⟨inv_window _ _ _ _ _ (by decide), by decide +kernel⟩

/-- F24 in a window one byte too short. -/
theorem witness_FrameThatDoesNotFitNeedsMoreData :
    let s := window (cells 0 f24) 23 0 0 .synced
    let h := headerOf s 0 .three
    s.Inv ∧ s.SyncPoint 0 ∧ s.decodeAt 0 = .ok h 32 ∧ h.bitrate ≠ 0 ∧
      s.sc.bufEnd.toNat < 0 + framelen h.layer h.lsf h.bitrate h.samplerate h.padding :=
  ⟨inv_window _ _ _ _ _ (by decide), by decide +kernel⟩

/-- F24 in a window that just holds it, after a skip of two bytes. -/
theorem witness_ScNextCommitsTheFrame :
    let s := window (cells 2 f24) 26 0 2 .unsynced
    let h := headerOf s 16 .three
    s.Inv ∧ s.SyncPoint 2 ∧ s.decodeAt 2 = .ok h 32 ∧ h.bitrate ≠ 0 ∧
      2 + framelen h.layer h.lsf h.bitrate h.samplerate h.padding ≤ s.sc.bufEnd.toNat :=
  ⟨inv_window _ _ _ _ _ (by decide), by decide +kernel⟩

/-- A free-format header of 24000 Hz, LSF Layer III. -/
def free24 (d n : Nat) : Memory := cells 0 ([0xFF, 0xF3, 0x04, 0xC4] ++ List.replicate (d - 4) 0 ++ [0xFF, 0xF3, 0x04, 0xC4]
  ++ List.replicate (n - d - 4) 0)

/-- A distance of 20 bytes is 7 kb/s: implausible. One of 24 bytes is 8 kb/s, and the frame fits. -/
theorem witness_FreeFormatRateComesFromTheProbe :
    (let s := window (free24 20 28) 28 0 0 .unsynced
     let h := headerOf s 0 .three
     s.Inv ∧ s.SyncPoint 0 ∧ s.decodeAt 0 = .ok h 32 ∧ h.bitrate = 0 ∧ s.MustProbe h.layer ∧ s.ProbeHit h 32 20 ∧
       rateFromDistance h.layer h.lsf h.samplerate h.padding (20 - 0) < s.cfg.freeMinKbps) ∧
    (let s := window (free24 24 32) 32 0 0 .unsynced
     let h := headerOf s 0 .three
     let k := rateFromDistance h.layer h.lsf h.samplerate h.padding (24 - 0)
     s.Inv ∧ s.SyncPoint 0 ∧ s.decodeAt 0 = .ok h 32 ∧ h.bitrate = 0 ∧ s.MustProbe h.layer ∧ s.ProbeHit h 32 24 ∧
       s.cfg.freeMinKbps ≤ k ∧ (h.layer = .three → k ≤ s.cfg.freeMaxL3Kbps) ∧ k * 1000 < 2 ^ 32 ∧
       0 + framelen h.layer h.lsf (k * 1000) h.samplerate h.padding ≤ s.sc.bufEnd.toNat) :=
  ⟨⟨inv_window _ _ _ _ _ (by decide), by decide +kernel⟩, inv_window _ _ _ _ _ (by decide), by decide +kernel⟩

/-- Two free-format headers of Layer II at 8000 Hz, 150 bytes apart. -/
def freeL2 : Memory := cells 0 ([0xFF, 0xE5, 0x08, 0x00] ++ List.replicate 146 0 ++ [0xFF, 0xE5, 0x08, 0x00, 0, 0, 0, 0])

/-- The rate is rounded up to 9 kb/s, whose frame of 162 bytes is longer than the window of 158. -/
theorem witness_FreeFormatRateThatDoesNotFit :
    let s := window freeL2 158 0 0 .unsynced
    let h := headerOf s 0 .two
    let k := rateFromDistance h.layer h.lsf h.samplerate h.padding (150 - 0)
    s.Inv ∧ s.SyncPoint 0 ∧ s.decodeAt 0 = .ok h 32 ∧ h.bitrate = 0 ∧ s.MustProbe h.layer ∧ s.ProbeHit h 32 150 ∧
      s.cfg.freeMinKbps ≤ k ∧ (h.layer = .three → k ≤ s.cfg.freeMaxL3Kbps) ∧ k * 1000 < 2 ^ 32 ∧
      s.sc.bufEnd.toNat < 0 + framelen h.layer h.lsf (k * 1000) h.samplerate h.padding :=
  ⟨inv_window _ _ _ _ _ (by decide +kernel), by decide +kernel⟩

/-- The second header has one byte too few behind it. -/
theorem witness_ProbeWithoutACandidateNeedsMoreData :
    let s := window (free24 24 31) 31 0 0 .unsynced
    let h := headerOf s 0 .three
    s.Inv ∧ s.SyncPoint 0 ∧ s.decodeAt 0 = .ok h 32 ∧ h.bitrate = 0 ∧ s.MustProbe h.layer ∧
      ∀ q, (8 * 0 + 32 + 7) / 8 ≤ q → q + s.cfg.guardBytes ≤ s.sc.bufEnd.toNat →
        (s.syncAt q && s.peekMatches h q) = false := by
  refine ⟨inv_window _ _ _ _ _ (by decide +kernel), by decide +kernel, by decide +kernel, by decide +kernel,
    by decide +kernel, fun q _ h => ?_⟩
  have h : q + 8 ≤ 31 := h
  have key : ∀ q < 24, ((window (free24 24 31) 31 0 0 .unsynced).syncAt q &&
      (window (free24 24 31) 31 0 0 .unsynced).peekMatches
        (headerOf (window (free24 24 31) 31 0 0 .unsynced) 0 .three) q) = false ∨ q < 4 := by decide +kernel
  rcases key q (by omega) with h1 | h1
  · exact h1
  · omega

/-- A cached rate of 8 kb/s, a window that just holds its frame, and one a byte shorter. -/
theorem witness_CachedFreeRateSkipsTheProbe :
    (let s := (window (free24 24 28) 24 0 0 .synced).cached 8000
     let h := headerOf s 0 .three
     s.Inv ∧ s.SpecConfig ∧ s.SyncPoint 0 ∧ s.decodeAt 0 = .ok h 32 ∧ h.bitrate = 0 ∧ ¬s.MustProbe h.layer ∧
       0 + framelen h.layer h.lsf s.sc.freeRate.toNat h.samplerate h.padding ≤ s.sc.bufEnd.toNat) ∧
    (let s := (window (free24 24 28) 23 0 0 .synced).cached 8000
     let h := headerOf s 0 .three
     s.Inv ∧ s.SpecConfig ∧ s.SyncPoint 0 ∧ s.decodeAt 0 = .ok h 32 ∧ h.bitrate = 0 ∧ ¬s.MustProbe h.layer ∧
       s.sc.bufEnd.toNat < 0 + framelen h.layer h.lsf s.sc.freeRate.toNat h.samplerate h.padding) :=
  ⟨⟨inv_of rfl (by decide +kernel) (by decide) (by decide) (.inr (by decide)) rfl rfl, spec_of rfl, by decide +kernel⟩,
    inv_of rfl (by decide +kernel) (by decide) (by decide) (.inr (by decide)) rfl rfl, spec_of rfl, by decide +kernel⟩

theorem witness_OnlyASuccessfulScNextEntersSynced :
    (window (cells 0 f24) 24 0 0 .unsynced).Inv ∧
    exec .scNext (window (cells 0 f24) 24 0 0 .unsynced)
      = .next (after (exec .scNext (window (cells 0 f24) 24 0 0 .unsynced))) :=
  ⟨inv_window _ _ _ _ _ (by decide), next_after ..⟩

/-- A byte at the window's end that differs. -/
theorem witness_ScNextNeverReadsPastTheWindow :
    let s := window (cells 0 f24) 24 0 0 .unsynced
    let m := cells 0 (f24 ++ [0x55])
    s.Inv ∧ (∀ a < s.sc.bufEnd.toNat, ({ s with mem := m } : State).byteAt a = s.byteAt a) ∧
      exec .scNext s = .next (after (exec .scNext s)) :=
  ⟨inv_window _ _ _ _ _ (by decide), by decide +kernel, next_after ..⟩

theorem witness_NextPointerNeverDecreases :
    (window (cells 0 f24) 24 0 0 .unsynced).Inv ∧ Instr.scNext ≠ .scSetbuf ∧
    exec .scNext (window (cells 0 f24) 24 0 0 .unsynced)
      = .next (after (exec .scNext (window (cells 0 f24) 24 0 0 .unsynced))) :=
  ⟨inv_window _ _ _ _ _ (by decide), by decide, next_after ..⟩

/-- A commit, a lost sync and a wait. -/
theorem witness_ScNextMakesProgress :
    ((window (cells 0 f24) 24 0 0 .unsynced).Inv ∧ (window (cells 0 f24) 24 0 0 .unsynced).SpecConfig ∧
      (after (exec .scNext (window (cells 0 f24) 24 0 0 .unsynced))).status.code = .ok) ∧
    ((window (cells 0 (List.replicate 8 0)) 8 0 0 .synced).Inv ∧
      (after (exec .scNext (window (cells 0 (List.replicate 8 0)) 8 0 0 .synced))).status.code = .lostSync) ∧
    ((window (cells 0 f24) 23 0 0 .unsynced).Inv ∧
      (after (exec .scNext (window (cells 0 f24) 23 0 0 .unsynced))).status.code = .needMoreData) :=
  ⟨⟨inv_window _ _ _ _ _ (by decide), spec_of rfl, by decide +kernel⟩,
    ⟨inv_window _ _ _ _ _ (by decide), by decide +kernel⟩, inv_window _ _ _ _ _ (by decide), by decide +kernel⟩

/-- F24 cut off after 23 bytes, and its last byte appended; after that, a read of STATUS and one more SC_NEXT. -/
theorem witness_TruncatedFrameIsResumedExactlyOnce :
    let s := window (cells 0 (f24.take 23)) 23 0 0 .synced
    let h := headerOf s 0 .three
    let m := cells 0 f24
    s.Inv ∧ s.SpecConfig ∧ s.SyncPoint 0 ∧ s.decodeAt 0 = .ok h 32 ∧ h.bitrate ≠ 0 ∧
      s.sc.bufEnd.toNat < 0 + framelen h.layer h.lsf h.bitrate h.samplerate h.padding ∧
      0 + framelen h.layer h.lsf h.bitrate h.samplerate h.padding ≤ (24 : Word).toNat ∧
      (24 : Word).toNat ≤ s.cfg.memBytes ∧
      (∀ a < s.sc.bufEnd.toNat, ({ s with mem := m } : State).byteAt a = s.byteAt a) ∧
      ({ s with mem := m } : State).MemOk ∧
      (let s3 := after (exec .scNext (window m 24 0 0 .synced))
       let t : State := { s3 with lastRead := s3.readRegister 0x00C }
       Relation.ReflTransGen State.Continues s3 t ∧ exec .scNext t = .next (after (exec .scNext t))) := by
  refine ⟨inv_window _ _ _ _ _ (by decide), spec_of rfl, by decide +kernel, by decide +kernel, by decide +kernel,
    by decide +kernel, by decide +kernel, by decide, by decide +kernel, by decide, ?_, next_after ..⟩
  exact .single ⟨.readReg 32 0x00C, by decide, fun _ _ h => (by cases h), rfl⟩

/-- A zero byte before F24. -/
theorem witness_ResyncFindsTheNextFrame :
    let s := window (cells 0 (0 :: f24)) 25 0 0 .synced
    let h := headerOf s 8 .three
    s.Inv ∧ s.sc.sync = .synced ∧ s.sc.skip = 0 ∧ s.byteAt 0 ≠ 0xFF#8 ∧ s.syncAt (0 + 1) = true ∧
      0 + 1 + s.cfg.guardBytes ≤ s.sc.bufEnd.toNat ∧ s.decodeAt (0 + 1) = .ok h 32 ∧ h.bitrate ≠ 0 ∧
      0 + 1 + framelen h.layer h.lsf h.bitrate h.samplerate h.padding ≤ s.sc.bufEnd.toNat :=
  ⟨inv_window _ _ _ _ _ (by decide), by decide +kernel⟩

theorem witness_SmParseChecksItsRangeFirst :
    8 * (reader [] 0 32768 1).cfg.memBytes < (reader [] 0 32768 1).arg0.toNat + (reader [] 0 32768 1).arg1.toNat := by
  decide

/-- An Info tag with a frame count and a byte count, in all its 128 bits, and one bit fewer. -/
def infoTag : Memory := cells 0 [0x49, 0x6E, 0x66, 0x6F, 0, 0, 0, 3, 0, 0, 0, 10, 0, 0, 0, 99]

theorem witness_XingTagIsReadFieldByField :
    (let s := reader infoTag 0 0 128
     s.SpecConfig ∧ s.arg0.toNat + s.arg1.toNat ≤ 8 * s.cfg.memBytes ∧ 64 ≤ s.arg1.toNat ∧
       bits s.bitAt s.arg0.toNat 32 = 0x496E666F ∧ bits s.bitAt (s.arg0.toNat + 32) 32 = 3 ∧
       64 + 32 * 1 + 32 * 1 + 800 * 0 + 32 * 0 ≤ s.arg1.toNat) ∧
    (let s := reader infoTag 0 0 127
     s.SpecConfig ∧ s.arg0.toNat + s.arg1.toNat ≤ 8 * s.cfg.memBytes ∧ 32 ≤ s.arg1.toNat ∧
       bits s.bitAt s.arg0.toNat 32 = 0x496E666F ∧ bits s.bitAt (s.arg0.toNat + 32) 32 = 3 ∧
       s.arg1.toNat < 64 + 32 * 1 + 32 * 1 + 800 * 0 + 32 * 0) :=
  ⟨⟨spec_of rfl, by decide +kernel⟩, spec_of rfl, by decide +kernel⟩

/-- An LSF frame of `n` bytes at address 0, all 0 but for the last byte of its stored CRC, and a LAME magic at byte 400. -/
def lameState (n : Nat) (stored : Byte) : State :=
  { reader (cells 0 (List.replicate 176 0 ++ [stored]) ++ cells 400 [0x4C, 0x41, 0x4D, 0x45]) 0 3200 32 with
    hdr := { HeaderRegs.zero with fields := 0x80000004, framesize := BitVec.ofNat 32 n } }

/-- What SM_PARSE leaves of it. -/
def lameParsed (s : State) : SeekRegs := lameCheck s.cfg s.bitAt s.frameContext (SeekRegs.zero.setKind .lame)

theorem lame_after {s : State} (h : s.arg0.toNat + s.arg1.toNat ≤ 8 * s.cfg.memBytes)
    (hk : tagKindAt s.cfg s.bitAt s.arg0.toNat s.arg1.toNat = .lame) :
    (after (exec .smParse s)).status.code = .ok ∧ (after (exec .smParse s)).sm = lameParsed s ∧
      (after (exec .smParse s)).sm.status.kind = .lame := by
  rw [exec_smParse_lame h hk]
  exact ⟨rfl, rfl, (lameCheck_frame ..).1⟩

/-- A frame whose covered bytes are all 0 has CRC 0. -/
theorem lame_crc {s : State} (hc : s.cfg.lameCrcSeed = 0) (hf : s.frameContext.start = 0)
    (hz : ∀ a < s.frameContext.span, s.byteAt a = 0) : lameCrc s.cfg s.bitAt s.frameContext = 0 := by
  rw [lameCrc, hc, hf]
  refine crc16_zeros _ _ _ _ fun i hi => ?_
  rw [State.bitAt, hz _ (by omega)]
  exact BitVec.getLsbD_zero

theorem lame_valid {s : State} (hc : s.cfg.lameCrcSeed = 0) (hf : s.frameContext.start = 0)
    (hz : ∀ a < s.frameContext.span, s.byteAt a = 0)
    (hn : ¬(s.frameContext.size < s.frameContext.span + 2 ∨ s.cfg.memBytes < s.frameContext.start + s.frameContext.size))
    (hs : lameStored s.bitAt s.frameContext = 0) : (lameParsed s).status.lameState = .valid := by
  rw [lameParsed, lameCheck, if_neg hn, lame_crc hc hf hz, hs]; rfl

theorem lame_badCrc {s : State} (hc : s.cfg.lameCrcSeed = 0) (hf : s.frameContext.start = 0)
    (hz : ∀ a < s.frameContext.span, s.byteAt a = 0)
    (hn : ¬(s.frameContext.size < s.frameContext.span + 2 ∨ s.cfg.memBytes < s.frameContext.start + s.frameContext.size))
    (hs : lameStored s.bitAt s.frameContext = 1) : (lameParsed s).status.lameState = .badCrc := by
  rw [lameParsed, lameCheck, if_neg hn, lame_crc hc hf hz, hs]; rfl

/-- A LAME magic in the 32 bits from T; a frame one byte too short for a LAME block; one that just holds it, with the CRC that agrees, and with one that does not. -/
theorem witness_LameBlockIsValidatedByItsCrc :
    ((lameState 176 0).SpecConfig ∧
      (lameState 176 0).arg0.toNat + (lameState 176 0).arg1.toNat ≤ 8 * (lameState 176 0).cfg.memBytes ∧
      32 ≤ (lameState 176 0).arg1.toNat ∧ bits (lameState 176 0).bitAt (lameState 176 0).arg0.toNat 32 = 0x4C414D45) ∧
    ((lameState 176 0).SpecConfig ∧ (after (exec .smParse (lameState 176 0))).status.code = .ok ∧
      (after (exec .smParse (lameState 176 0))).sm.status.kind = .lame ∧ 176 < 175 + 2) ∧
    ((lameState 177 0).SpecConfig ∧ (after (exec .smParse (lameState 177 0))).status.code = .ok ∧
      (after (exec .smParse (lameState 177 0))).sm.status.kind = .lame ∧
      (after (exec .smParse (lameState 177 0))).sm.status.lameState = .valid) ∧
    ((lameState 177 1).SpecConfig ∧ (after (exec .smParse (lameState 177 1))).status.code = .ok ∧
      (after (exec .smParse (lameState 177 1))).sm.status.kind = .lame ∧
      (after (exec .smParse (lameState 177 1))).sm.status.lameState = .badCrc) := by
  have h0 := lame_after (s := lameState 176 0) (by decide) (by decide +kernel)
  have h1 := lame_after (s := lameState 177 0) (by decide) (by decide +kernel)
  have h2 := lame_after (s := lameState 177 1) (by decide) (by decide +kernel)
  refine ⟨⟨spec_of rfl, by decide +kernel⟩, ⟨spec_of rfl, h0.1, h0.2.2, by decide⟩, ⟨spec_of rfl, h1.1, h1.2.2, ?_⟩, spec_of rfl, h2.1, h2.2.2, ?_⟩
  · rw [h1.2.1]
    exact lame_valid rfl rfl (by decide +kernel) (by decide) (by decide +kernel)
  · rw [h2.2.1]
    exact lame_badCrc rfl rfl (by decide +kernel) (by decide) (by decide +kernel)

/-- A frame of `n` bytes at address 0 with a VBRI tag of `k` entries of one byte, its tag start empty. -/
def vbriState (n : Nat) (k : Byte) : State :=
  { reader (cells 0 (List.replicate 36 0 ++ [0x56, 0x42, 0x52, 0x49, 0, 1, 0, 0, 0, 75, 0, 0, 0, 100, 0, 0, 0, 10, 0, k, 0, 1,
      0, 1, 0, 50] ++ [60, 40])) 0 0 0 with
    hdr := { HeaderRegs.zero with fields := 0x80000000, framesize := BitVec.ofNat 32 n } }

/-- A frame one byte too short for the magic; one with no entries; one that just holds its two. -/
theorem witness_VbriTagIsFoundAtItsOffset :
    ((vbriState 39 2).SpecConfig ∧
      (vbriState 39 2).arg0.toNat + (vbriState 39 2).arg1.toNat ≤ 8 * (vbriState 39 2).cfg.memBytes ∧
      (vbriState 39 2).arg1.toNat < 32 ∧ (vbriState 39 2).hdr.framesize.toNat < 40) ∧
    ((vbriState 64 0).SpecConfig ∧ 40 ≤ (vbriState 64 0).hdr.framesize.toNat ∧
      bits (vbriState 64 0).bitAt (8 * (0 + 36 + 0)) (8 * 4) = 0x56425249 ∧
      bits (vbriState 64 0).bitAt (8 * (0 + 36 + 18)) (8 * 2) = 0) ∧
    ((vbriState 64 2).SpecConfig ∧ 0 + 64 ≤ (vbriState 64 2).cfg.memBytes ∧
      bits (vbriState 64 2).bitAt (8 * (0 + 36 + 0)) (8 * 4) = 0x56425249 ∧
      (after (exec .smParse (vbriState 64 2))).sm.status.kind = .vbri ∧
      ¬(vbriState 64 2).hdr.framesize.toNat < 62 + 2 * 1) :=
  ⟨⟨spec_of rfl, by decide +kernel⟩, ⟨spec_of rfl, by decide +kernel⟩, spec_of rfl, by decide +kernel⟩

/-- The last byte of the block before its stored CRC changed. -/
theorem witness_LameByteMutationRejectsTheBlock :
    let s := lameState 177 0
    let m := (lameState 177 0).mem.set 174 1
    s.SpecConfig ∧ exec .smParse s = .next (after (exec .smParse s)) ∧
      (after (exec .smParse s)).status.code = .ok ∧ (after (exec .smParse s)).sm.status.lameState = .valid ∧
      0 + 175 - 34 ≤ 174 ∧ 174 < 0 + 175 - 34 + 34 ∧ 8 * 174 + 8 ≤ s.arg0.toNat ∧
      ({ s with mem := m } : State).byteAt 174 ≠ s.byteAt 174 ∧
      ∀ b, b ≠ 174 → ({ s with mem := m } : State).byteAt b = s.byteAt b := by
  obtain ⟨-, -, ⟨h1, h2, -, h3⟩, -⟩ := witness_LameBlockIsValidatedByItsCrc
  refine ⟨h1, next_after .., h2, h3, by decide, by decide, by decide, by decide +kernel, fun b hb => ?_⟩
  simp only [State.byteAt, Memory.get?_set, if_neg hb]

end Sys2Proof.Machine
end

section
/-! SUPPORT. The host's port and the shared operations of the commands: one rule for each kind of step, every way a command can end, and the statements about the state that follow. -/

namespace Sys2Proof.Machine

/-! ### One step of the host (R66, R105, R830) -/

/-- With nothing pending the engine is idle (R830). -/
theorem step_idle {s : State} (h : s.host = []) : step s = .next s := by
  simp only [step, State.popHost, h]

/-- A step takes the oldest pending action off the list and performs it (R112). -/
theorem step_pending {s : State} {a : HostAction} {rest : List HostAction} (h : s.host = a :: rest) :
    step s = hostStep a { s with host := rest } := by
  simp only [step, State.popHost, h]

/-- An access of the register space is one of 32 bits at an aligned offset (R105). -/
theorem wordAccess_eq_true {width : Nat} {o : Offset} :
    wordAccess width o = true ↔ width = 32 ∧ o.toNat % 4 = 0 := by
  simp [wordAccess]

/-- An access of the buffer memory is one of 8 bits below `MEM_BYTES` (R105). -/
theorem State.byteAccess_eq_true {s : State} {width a : Nat} :
    s.byteAccess width a = true ↔ width = 8 ∧ a < s.cfg.memBytes := by
  simp [State.byteAccess]

section
variable {s : State} {o : Offset} {width a : Nat} {v : Word} {x : Byte}

theorem hostStep_readReg (h : o.toNat % 4 = 0) :
    hostStep (.readReg 32 o) s = .next { s with lastRead := s.readRegister o } :=
  if_pos (wordAccess_eq_true.2 ⟨rfl, h⟩)

theorem hostStep_writeReg (h : o.toNat % 4 = 0) : hostStep (.writeReg 32 o v) s = writeRegister o v s :=
  if_pos (wordAccess_eq_true.2 ⟨rfl, h⟩)

theorem hostStep_readBuf (h : a < s.cfg.memBytes) :
    hostStep (.readBuf 8 a) s = .next { s with lastRead := (s.byteAt a).setWidth 32 } :=
  if_pos (State.byteAccess_eq_true.2 ⟨rfl, h⟩)

theorem hostStep_writeBuf (h : a < s.cfg.memBytes) : hostStep (.writeBuf 8 a x) s = .next (s.writeByte a x) :=
  if_pos (State.byteAccess_eq_true.2 ⟨rfl, h⟩)

theorem hostStep_readReg_refused (h : width ≠ 32 ∨ o.toNat % 4 ≠ 0) :
    hostStep (.readReg width o) s = .refused .badRegisterAccess :=
  if_neg fun hw => by have := wordAccess_eq_true.1 hw; omega

theorem hostStep_writeReg_refused (h : width ≠ 32 ∨ o.toNat % 4 ≠ 0) :
    hostStep (.writeReg width o v) s = .refused .badRegisterAccess :=
  if_neg fun hw => by have := wordAccess_eq_true.1 hw; omega

theorem hostStep_readBuf_refused (h : width ≠ 8 ∨ s.cfg.memBytes ≤ a) :
    hostStep (.readBuf width a) s = .refused .badBufferAccess :=
  if_neg fun hb => by have := State.byteAccess_eq_true.1 hb; omega

theorem hostStep_writeBuf_refused (h : width ≠ 8 ∨ s.cfg.memBytes ≤ a) :
    hostStep (.writeBuf width a x) s = .refused .badBufferAccess :=
  if_neg fun hb => by have := State.byteAccess_eq_true.1 hb; omega

/-- A write to a register other than `CMD`, `ARG0` and `ARG1` is ignored (R66). -/
theorem writeRegister_ignored (h0 : o ≠ 0x000) (h4 : o ≠ 0x004) (h8 : o ≠ 0x008) :
    writeRegister o v s = .next s := by
  have ne {c : Offset} (h : o ≠ c) : o.toNat ≠ c.toNat := fun e => h (BitVec.eq_of_toNat_eq e)
  unfold writeRegister
  split
  · exact absurd ‹_› (ne h0)
  · exact absurd ‹_› (ne h4)
  · exact absurd ‹_› (ne h8)
  · rfl

end

/-- Settles O8: the step is `State.writeByte`, whose reads and canonical form the memory laws state. -/
theorem bufferReadAfterWrite : Obligations.BufferReadAfterWrite := by
  intro s rest a v hs ha
  refine ⟨_, (step_pending hs).trans (hostStep_writeBuf ha), ?_, fun b hb => ?_, fun hm => Memory.wf_set hm a v, rfl⟩
  · rw [State.byteAt_writeByte, if_pos rfl]
  · rw [State.byteAt_writeByte, if_neg hb]; rfl

/-- Settles O7, one rule of the host's port for each kind of access. -/
theorem hostAccessesFollowTheAccessRules : Obligations.HostAccessesFollowTheAccessRules := by
  intro s rest o v width a x
  refine ⟨step_idle, fun hs ho => (step_pending hs).trans (hostStep_readReg ho), fun hs => step_pending hs,
    fun hs => step_pending hs,
    fun hs ho h0 h4 h8 =>
      (step_pending hs).trans ((hostStep_writeReg ho).trans (writeRegister_ignored h0 h4 h8)),
    fun hs ha => (step_pending hs).trans (hostStep_readBuf ha), fun hbad hs => ?_, fun hbad hs => ?_⟩
  · rcases hs with hs | hs
    · exact (step_pending hs).trans (hostStep_readReg_refused hbad)
    · exact (step_pending hs).trans (hostStep_writeReg_refused hbad)
  · rcases hs with hs | hs
    · exact (step_pending hs).trans (hostStep_readBuf_refused hbad)
    · exact (step_pending hs).trans (hostStep_writeBuf_refused hbad)

/-! ### The register map (R33, R34, R66) -/

/-- Below 0x100 the offsets of R33's gaps, and `CMD`, read 0. -/
theorem State.readFixed_unmapped (s : State) {o : Nat} (h : o = 0x000 ∨ o = 0x01C ∨ (0x05C ≤ o ∧ o < 0x080) ∨
    (0x0AC ≤ o ∧ o < 0x0C0) ∨ 0x0F8 ≤ o) : s.readFixed o = 0 := by
  unfold State.readFixed
  split
  case h_1 => rfl
  case h_48 => rfl
  all_goals omega

theorem readArray_of_lt {n i : Nat} (v : Vector Byte n) (h : i < n) : readArray v i = (v[i]).setWidth 32 := by
  rw [readArray, Vector.getElem?_eq_getElem h, Option.getD_some]

theorem readArray_of_le {n i : Nat} (v : Vector Byte n) (h : n ≤ i) : readArray v i = 0 := by
  rw [readArray, Vector.getElem?_eq_none h]; rfl

theorem State.readRegister_fixed (s : State) {o : Offset} (h : o.toNat < 0x100) :
    s.readRegister o = s.readFixed o.toNat := if_pos h

theorem State.readRegister_enc (s : State) {o : Offset} (h1 : 0x100 ≤ o.toNat) (h2 : o.toNat < 0x200) :
    s.readRegister o = readArray s.sm.enc ((o.toNat - 0x100) / 4) :=
  (if_neg (not_lt.2 h1)).trans (if_pos h2)

theorem State.readRegister_toc (s : State) {o : Offset} (h : 0x200 ≤ o.toNat) :
    s.readRegister o = readArray s.sm.toc ((o.toNat - 0x200) / 4) :=
  (if_neg (by omega)).trans (if_neg (not_lt.2 h))

/-- `CMD` and every offset outside R33's map read 0 (R34, R66). -/
theorem State.readRegister_unmapped (s : State) (o : Offset) (h : o = 0x000 ∨ o = 0x01C ∨ (0x05C ≤ o ∧ o < 0x080) ∨
    (0x0AC ≤ o ∧ o < 0x0C0) ∨ (0x0F8 ≤ o ∧ o < 0x100) ∨ (0x124 ≤ o ∧ o < 0x200) ∨ 0x390 ≤ o) :
    s.readRegister o = 0 := by
  rcases Nat.lt_or_ge o.toNat 0x100 with h1 | h1
  · rw [s.readRegister_fixed h1]
    exact s.readFixed_unmapped (by bv_omega)
  · rcases Nat.lt_or_ge o.toNat 0x200 with h2 | h2
    · rw [s.readRegister_enc h1 h2]
      exact readArray_of_le _ (by bv_omega)
    · rw [s.readRegister_toc h2]
      exact readArray_of_le _ (by bv_omega)

/-- Byte `i` of the encoder string is the register at `0x100 + 4*i` (R64). -/
theorem State.readRegister_enc_getElem (s : State) (i : Fin 9) :
    s.readRegister (BitVec.ofNat 12 (0x100 + 4 * i.val)) = (s.sm.enc[i.val]).setWidth 32 := by
  have ho : (BitVec.ofNat 12 (0x100 + 4 * i.val)).toNat = 0x100 + 4 * i.val :=
    Nat.mod_eq_of_lt (by omega)
  rw [s.readRegister_enc (by omega) (by omega), ho, Nat.add_sub_cancel_left, Nat.mul_div_cancel_left _ (by decide),
    readArray_of_lt _ i.isLt]

/-- Entry `i` of the seek table is the register at `0x200 + 4*i` (R65). -/
theorem State.readRegister_toc_getElem (s : State) (i : Fin 100) :
    s.readRegister (BitVec.ofNat 12 (0x200 + 4 * i.val)) = (s.sm.toc[i.val]).setWidth 32 := by
  have ho : (BitVec.ofNat 12 (0x200 + 4 * i.val)).toNat = 0x200 + 4 * i.val :=
    Nat.mod_eq_of_lt (by omega)
  rw [s.readRegister_toc (by omega), ho, Nat.add_sub_cancel_left, Nat.mul_div_cancel_left _ (by decide),
    readArray_of_lt _ i.isLt]

/-- A register that shows a field no wider than itself reads as the field's value. -/
theorem State.readRegister_toNat {s : State} {o : Offset} {w : Nat} {x : BitVec w} (h : s.readRegister o = x.setWidth 32)
    (hw : w ≤ 32) : (s.readRegister o).toNat = x.toNat := by
  rw [h, BitVec.toNat_setWidth_of_le hw]

theorem SyncState.toWord_eq (y : SyncState) : y.toWord = if y = .synced then 1 else 0 := by
  cases y <;> rfl

/-- Settles O6, offset by offset: the 32-bit registers are the map's own arms, the packed and the narrow ones by their words. -/
theorem registerMapReads : Obligations.RegisterMapReads := by
  intro s
  refine ⟨s.readRegister_unmapped, rfl, rfl, ?status, rfl, rfl, rfl, s.sc.sync.toWord_eq, rfl, rfl, rfl, rfl, rfl,
    rfl, rfl, rfl, rfl, rfl, rfl, rfl, rfl, rfl, ?smStatus, rfl, rfl, rfl, rfl,
    ?_, ?_, ?_, ?_, ?_, ?_, ?_, ?_, rfl, rfl, ?_, ?_, ?_, ?_, ?_, ?_, rfl, ?_, ?_, ?_, fun i => ?enc, fun i => ?toc⟩
  case status =>
    change s.status.toWord = _
    simp only [Status.toWord, Nat.mul_comm]
  case smStatus =>
    change s.sm.status.toWord = _
    simp only [SeekStatus.toWord, Nat.mul_comm]
  case enc => exact State.readRegister_toNat (s.readRegister_enc_getElem i) (by decide)
  case toc => exact State.readRegister_toNat (s.readRegister_toc_getElem i) (by decide)
  all_goals exact State.readRegister_toNat rfl (by decide)

end Sys2Proof.Machine
end

section
/-! SUPPORT. Every way a command can end, each with its test and the state it leaves, and what all of them share: the outcome code, the sticky bits, RESULT and SC_LAST_ERROR (R35, R36, R49, R701). -/

namespace Sys2Proof.Machine

/-- What SC_NEXT's search answers once the skip phase is over (R421 to R423). -/
def State.search (s : State) : Candidate := s.applySkip.candidate s.applySkip.sc.nextPtr.toNat

/-- Every way SC_NEXT can end, from any state (R420 to R427; `faulted` is log 8). -/
inductive NextEnded (s : State) : State → Prop
  | skipWaits (h : s.sc.bufEnd.toNat < s.base) : NextEnded s (s.finish .needMoreData)
  | searchWaits (h : s.search = .needMoreData) : NextEnded s (s.applySkip.finish .needMoreData)
  | searchLost (h : s.search = .lost) :
      NextEnded s ((s.applySkip.demote s.applySkip.sc.nextPtr.toNat).finish .lostSync)
  | faulted {p : Nat} (hp : s.search = .found p) (hd : s.decodeAt p = .fault) : NextEnded s (s.finish .accessFault)
  | headerError {p : Nat} {e : HeaderError} (hp : s.search = .found p) (hd : s.decodeAt p = .err e) :
      NextEnded s ((s.applySkip.demote p).finish e.code)
  | probeWaits {p len : Nat} {h : Header} (hp : s.search = .found p) (hd : s.decodeAt p = .ok h len)
      (hr : s.applySkip.resolve p h len = .needMoreData) :
      NextEnded s ((s.applySkip.setNext p).finish .needMoreData)
  | probeLost {p len : Nat} {h : Header} (hp : s.search = .found p) (hd : s.decodeAt p = .ok h len)
      (hr : s.applySkip.resolve p h len = .lostSync) : NextEnded s ((s.applySkip.demote p).finish .lostSync)
  | frameWaits {p len r : Nat} {h : Header} {cache : Word} (hp : s.search = .found p)
      (hd : s.decodeAt p = .ok h len) (hr : s.applySkip.resolve p h len = .rate cache r)
      (hn : s.sc.bufEnd.toNat < p + h.length r) :
      NextEnded s (((s.applySkip.setFreeRate cache).setNext p).finish .needMoreData)
  | committed {p len r : Nat} {h : Header} {cache : Word} (hp : s.search = .found p)
      (hd : s.decodeAt p = .ok h len) (hr : s.applySkip.resolve p h len = .rate cache r)
      (hn : p + h.length r ≤ s.sc.bufEnd.toNat) :
      NextEnded s (((s.applySkip.setFreeRate cache).commit p h len r (h.length r)).finish .ok)

/-- The frame length FH_FRAMELEN's operands ask for, in a layer `l` (R136, R335). -/
def State.framelenOf (s : State) (l : Layer) : Nat :=
  framelen l (framelenArgs s.arg1).lsf s.arg0Nat (framelenArgs s.arg1).samplerate (framelenArgs s.arg1).padding

/-- Every way a command can end, from any state. -/
inductive Ended (s : State) : Instr → State → Prop
  | nop : Ended s .nop s.complete
  | brSet (h : s.arg0Nat ≤ s.cfg.bitLimit) : Ended s .brSet (s.loadCursor s.arg0Nat).complete
  | brSetFault (h : s.cfg.bitLimit < s.arg0Nat) : Ended s .brSet (s.raise .accessFault)
  | brRead {n : BitVec 6} (hn : n.toNat ≤ 32) (h : s.cursor + n.toNat ≤ s.cfg.bitLimit) :
      Ended s (.brRead n) ((s.setResult (BitVec.ofNat 32 (bits (s.cursorBit fieldPass) s.cursor n.toNat))).moveCursor
        (s.cursor + n.toNat)).complete
  | brReadIllegal {n : BitVec 6} (hn : 32 < n.toNat) : Ended s (.brRead n) (s.raise .illegalCommand)
  | brReadFault {n : BitVec 6} (h : s.cfg.bitLimit < s.cursor + n.toNat) : Ended s (.brRead n) (s.raise .accessFault)
  | brSkip (h : s.cursor + s.arg0Nat ≤ s.cfg.bitLimit) : Ended s .brSkip (s.moveCursor (s.cursor + s.arg0Nat)).complete
  | brSkipFault (h : s.cfg.bitLimit < s.cursor + s.arg0Nat) : Ended s .brSkip (s.raise .accessFault)
  | brPos : Ended s .brPos (s.setResult (BitVec.ofNat 32 ((s.cursor + 7) / 8))).complete
  | brMark : Ended s .brMark (State.complete { s with br := { s.br with mark := s.br.pos } })
  | brDist : Ended s .brDist (s.setResult (s.br.pos - s.br.mark)).complete
  | brCrc {seed : Half} (h : s.cursor + s.arg0Nat ≤ s.cfg.bitLimit) :
      Ended s (.brCrc seed) (s.setResult
        ((crc16 s.cfg.crcPoly (s.cursorBit crcPass) s.cursor s.arg0Nat seed).setWidth 32)).complete
  | brCrcFault {seed : Half} (h : s.cfg.bitLimit < s.cursor + s.arg0Nat) :
      Ended s (.brCrc seed) (s.raise .accessFault)
  | fhDecode {h : Header} {len : Nat} (hd : s.decodeAtCursor = .ok h len) :
      Ended s .fhDecode ((s.writeHdr h h.bitrate (if h.bitrate = 0 then 0 else h.length h.bitrate)).moveCursor
        (s.cursor + len)).complete
  | fhDecodeError {e : HeaderError} (hd : s.decodeAtCursor = .err e) : Ended s .fhDecode (s.raise e.code)
  | fhDecodeFault (hd : s.decodeAtCursor = .fault) : Ended s .fhDecode (s.raise .accessFault)
  | fhFramelen {l : Layer} (hl : (framelenArgs s.arg1).layer = some l)
      (ha : ¬((framelenArgs s.arg1).reserved ≠ 0 ∨ (framelenArgs s.arg1).samplerate = 0))
      (hn : s.framelenOf l < 2 ^ s.cfg.regWidth) :
      Ended s .fhFramelen (s.setResult (BitVec.ofNat 32 (s.framelenOf l))).complete
  | fhFramelenNoLayer (hl : (framelenArgs s.arg1).layer = none) : Ended s .fhFramelen (s.raise .illegalCommand)
  | fhFramelenBadArgs (ha : (framelenArgs s.arg1).reserved ≠ 0 ∨ (framelenArgs s.arg1).samplerate = 0) :
      Ended s .fhFramelen (s.raise .illegalCommand)
  | fhFramelenTooLong {l : Layer} (hl : (framelenArgs s.arg1).layer = some l)
      (hn : 2 ^ s.cfg.regWidth ≤ s.framelenOf l) : Ended s .fhFramelen (s.raise .illegalCommand)
  | scSetbuf (h : s.arg0Nat ≤ s.arg1Nat) (hm : s.arg1Nat ≤ s.cfg.memBytes) :
      Ended s .scSetbuf (State.complete { s with sc := { s.sc with
        bufStart := s.arg0, bufEnd := s.arg1, thisPtr := s.arg0, nextPtr := s.arg0, sync := .unsynced } })
  | scSetbufIllegal (h : s.arg1Nat < s.arg0Nat ∨ s.cfg.memBytes < s.arg1Nat) :
      Ended s .scSetbuf (s.raise .illegalCommand)
  | scExtend (h : s.sc.bufEnd.toNat ≤ s.arg0Nat) (hm : s.arg0Nat ≤ s.cfg.memBytes) :
      Ended s .scExtend (State.complete { s with sc := { s.sc with bufEnd := s.arg0 } })
  | scExtendIllegal (h : s.arg0Nat < s.sc.bufEnd.toNat ∨ s.cfg.memBytes < s.arg0Nat) :
      Ended s .scExtend (s.raise .illegalCommand)
  | scSetskip : Ended s .scSetskip (State.complete { s with sc := { s.sc with skip := s.arg0 } })
  | scNext {t : State} (h : NextEnded s t) : Ended s .scNext t
  | smParse {r : SeekRegs} (hl : s.arg0Nat + s.arg1Nat ≤ s.cfg.bitLimit)
      (hp : parseTag s.cfg s.bitAt s.frameContext s.arg0Nat s.arg1Nat = some r) :
      Ended s .smParse (State.complete { s with sm := r })
  | smParseMalformed (hl : s.arg0Nat + s.arg1Nat ≤ s.cfg.bitLimit)
      (hp : parseTag s.cfg s.bitAt s.frameContext s.arg0Nat s.arg1Nat = none) :
      Ended s .smParse (State.raise { s with sm := .malformed } .malformed)
  | smParseFault (h : s.cfg.bitLimit < s.arg0Nat + s.arg1Nat) : Ended s .smParse (s.raise .accessFault)

/-- A resolved header is one row of R425 to R427. -/
theorem nextEnded_advance {s : State} {p len : Nat} {h : Header} (hp : s.search = .found p)
    (hd : s.decodeAt p = .ok h len) : NextEnded s (s.applySkip.advance p h len) := by
  unfold State.advance
  split
  case h_1 hr => exact .probeWaits hp hd hr
  case h_2 hr => exact .probeLost hp hd hr
  case h_3 cache r hr =>
    dsimp only
    split
    case isTrue hn => exact .frameWaits hp hd hr hn
    case isFalse hn => exact .committed hp hd hr (not_lt.1 hn)

theorem nextEnded_nextFrame (s : State) : NextEnded s (State.nextFrame s s.applySkip) := by
  unfold State.nextFrame
  dsimp only
  split
  case h_1 hc => exact .searchWaits hc
  case h_2 hc => exact .searchLost hc
  case h_3 p hc =>
    split
    case h_1 hd => exact .faulted hc hd
    case h_2 e hd => exact .headerError hc hd
    case h_3 h len hd => exact nextEnded_advance hc hd

theorem nextEnded_of_exec {s t : State} (hx : exec .scNext s = .next t) : NextEnded s t := by
  simp only [exec, execScNext] at hx
  split at hx
  case isTrue h0 =>
    obtain rfl := Host.Outcome.next.inj hx
    have hf := nextEnded_nextFrame s
    rwa [State.applySkip_zero h0] at hf
  case isFalse =>
    split at hx
    case isTrue hw =>
      obtain rfl := Host.Outcome.next.inj hx
      exact .skipWaits hw
    case isFalse =>
      obtain rfl := Host.Outcome.next.inj hx
      exact nextEnded_nextFrame s

/-- An answer with a test in front is the answer on one side of it. -/
theorem ended_ite {c : Prop} [Decidable c] {i : Instr} {s t : State} {x y : Result}
    (hx : (if c then x else y) = .next t) (hpos : c → x = .next t → Ended s i t)
    (hneg : ¬c → y = .next t → Ended s i t) : Ended s i t := by
  split at hx
  case isTrue h => exact hpos h hx
  case isFalse h => exact hneg h hx

theorem ended_fhDecode {s t : State} (hx : execFhDecode s = .next t) : Ended s .fhDecode t := by
  unfold execFhDecode at hx
  split at hx <;> obtain rfl := Host.Outcome.next.inj hx
  case h_1 hd => exact .fhDecodeFault hd
  case h_2 hd => exact .fhDecodeError hd
  case h_3 hd => exact .fhDecode hd

theorem ended_fhFramelen {s t : State} (hx : execFhFramelen s = .next t) : Ended s .fhFramelen t := by
  unfold execFhFramelen at hx
  dsimp only at hx
  split at hx
  case h_1 hl =>
    obtain rfl := Host.Outcome.next.inj hx
    exact .fhFramelenNoLayer hl
  case h_2 l hl =>
    split at hx
    case isTrue ha =>
      obtain rfl := Host.Outcome.next.inj hx
      exact .fhFramelenBadArgs ha
    case isFalse ha =>
      split at hx <;> obtain rfl := Host.Outcome.next.inj hx
      case isTrue hn => exact .fhFramelenTooLong hl hn
      case isFalse hn => exact .fhFramelen hl ha (not_le.1 hn)

theorem ended_smParse {s t : State} (hx : execSmParse s = .next t) : Ended s .smParse t := by
  unfold execSmParse at hx
  split at hx
  case isTrue hl =>
    obtain rfl := Host.Outcome.next.inj hx
    exact .smParseFault hl
  case isFalse hl =>
    split at hx <;> obtain rfl := Host.Outcome.next.inj hx
    case h_1 hp => exact .smParse (not_lt.1 hl) hp
    case h_2 hp => exact .smParseMalformed (not_lt.1 hl) hp

/-- A command ends in one of the ways `Ended` lists. -/
theorem ended_of_exec {i : Instr} {s t : State} (hx : exec i s = .next t) : Ended s i t := by
  cases i with
  | nop => cases hx; exact .nop
  | brPos => cases hx; exact .brPos
  | brMark => cases hx; exact .brMark
  | brDist => cases hx; exact .brDist
  | scSetskip => cases hx; exact .scSetskip
  | brSet =>
    refine ended_ite hx (fun h ht => ?_) fun h ht => ?_ <;> cases ht
    · exact .brSetFault h
    · exact .brSet (not_lt.1 h)
  | brRead n =>
    refine ended_ite hx (fun hn ht => ?_) fun hn hx => ended_ite hx (fun h ht => ?_) fun h ht => ?_ <;> cases ht
    · exact .brReadIllegal hn
    · exact .brReadFault h
    · exact .brRead (not_lt.1 hn) (not_lt.1 h)
  | brSkip =>
    refine ended_ite hx (fun h ht => ?_) fun h ht => ?_ <;> cases ht
    · exact .brSkipFault h
    · exact .brSkip (not_lt.1 h)
  | brCrc seed =>
    refine ended_ite hx (fun h ht => ?_) fun h ht => ?_ <;> cases ht
    · exact .brCrcFault h
    · exact .brCrc (not_lt.1 h)
  | fhDecode => exact ended_fhDecode hx
  | fhFramelen => exact ended_fhFramelen hx
  | scSetbuf =>
    refine ended_ite hx (fun h ht => ?_) fun h ht => ?_ <;> cases ht
    · exact .scSetbufIllegal h
    · exact .scSetbuf (by omega) (by omega)
  | scExtend =>
    refine ended_ite hx (fun h ht => ?_) fun h ht => ?_ <;> cases ht
    · exact .scExtendIllegal h
    · exact .scExtend (by omega) (by omega)
  | scNext => exact .scNext (nextEnded_of_exec hx)
  | smParse => exact ended_smParse hx

/-- The commands that return a value (R36). -/
def ReturnsValue (i : Instr) : Prop :=
  (∃ n, i = .brRead n) ∨ i = .brPos ∨ i = .brDist ∨ (∃ x, i = .brCrc x) ∨ i = .fhFramelen

theorem not_returnsValue {i : Instr} : ¬ReturnsValue i ↔
    (∀ n, i ≠ .brRead n) ∧ i ≠ .brPos ∧ i ≠ .brDist ∧ (∀ x, i ≠ .brCrc x) ∧ i ≠ .fhFramelen := by
  simp only [ReturnsValue, not_or, not_exists, ne_eq]

/-! ### What every command's end has in common -/

section
variable {s t : State} {i : Instr}

/-- SC_NEXT ends by `finish`: it records the code it writes to STATUS (R49, R420). -/
theorem NextEnded.lastError (h : NextEnded s t) : t.sc.lastError = t.status.code := by
  cases h <;> rfl

/-- A command's one write of STATUS is the shared ending with its code (R701). -/
theorem Ended.status (h : Ended s i t) : t.status = s.status.ended t.status.code := by
  cases h with
  | scNext h => cases h <;> rfl
  | _ => rfl

/-- A command other than SC_NEXT writes no SC_LAST_ERROR (R49). -/
theorem Ended.lastError_of_ne_scNext (h : Ended s i t) (hi : i ≠ .scNext) : t.sc.lastError = s.sc.lastError := by
  cases h with
  | scNext => exact absurd rfl hi
  | _ => rfl

theorem NextEnded.result (h : NextEnded s t) : t.result = s.result := by
  cases h <;> rfl

/-- Only a command that returns a value writes RESULT, and then it ends OK (R36). -/
theorem Ended.result (h : Ended s i t) : t.result = s.result ∨ ReturnsValue i ∧ t.status.code = .ok := by
  cases h with
  | brRead | brPos | brDist | brCrc | fhFramelen => exact .inr ⟨by simp [ReturnsValue], rfl⟩
  | scNext h => exact .inl h.result
  | _ => exact .inl rfl

end

/-- Settles O15: STATUS is written by the shared ending alone, which only sets the sticky bits. -/
theorem stickyBitsAreNeverCleared : Obligations.StickyBitsAreNeverCleared := by
  intro i s t hx
  have hst := (ended_of_exec hx).status
  constructor
  · have hf := congrArg Status.fault hst
    rw [Status.ended_fault] at hf
    simp [hf]
  · have hi := congrArg Status.ill hst
    rw [Status.ended_ill] at hi
    simp [hi]

/-- Settles O16, by the way each command ends. -/
theorem resultIsKeptUnlessAValueIsReturned : Obligations.ResultIsKeptUnlessAValueIsReturned := by
  intro i s t hx hkeep
  rcases (ended_of_exec hx).result with hres | ⟨hv, hok⟩
  · exact hres
  · rcases hkeep with hcode | hnone
    · exact absurd hok hcode
    · exact absurd hv (not_returnsValue.2 hnone)

/-- Settles O17: SC_NEXT ends by `finish`, every other command by `raise`. -/
theorem onlyScNextRecordsItsCode : Obligations.OnlyScNextRecordsItsCode := by
  intro i s t hx
  split
  case isTrue hi =>
    subst hi
    exact (nextEnded_of_exec hx).lastError
  case isFalse hi => exact (ended_of_exec hx).lastError_of_ne_scNext hi

end Sys2Proof.Machine
end

section
/-! SUPPORT. No command touches the parameters or the host's list of actions, so a conforming host never stops the engine (R105, R131). -/

namespace Sys2Proof.Machine

/-! ### The parameters and the host's list under a command -/

section
variable {s t : State} {i : Instr}

theorem NextEnded.cfg (h : NextEnded s t) : t.cfg = s.cfg := by
  cases h <;> rfl

theorem NextEnded.host (h : NextEnded s t) : t.host = s.host := by
  cases h <;> rfl

/-- No command writes a parameter of the engine (R7). -/
theorem Ended.cfg (h : Ended s i t) : t.cfg = s.cfg := by
  cases h with
  | scNext h => exact h.cfg
  | _ => rfl

/-- No command touches the host's pending actions. -/
theorem Ended.host (h : Ended s i t) : t.host = s.host := by
  cases h with
  | scNext h => exact h.host
  | _ => rfl

end

/-! ### An action with a meaning is answered -/

/-- `r` is a next state with the parameters and the pending actions of `s`. -/
def AnswersFrom (s : State) (r : Result) : Prop :=
  ∃ t, r = .next t ∧ t.cfg = s.cfg ∧ t.host = s.host

theorem exec_answers (i : Instr) (s : State) : AnswersFrom s (exec i s) := by
  obtain ⟨t, ht⟩ := exec_total i s
  have hend := ended_of_exec ht
  exact ⟨t, ht, hend.cfg, hend.host⟩

/-- Every command word is answered: a legal one by its command's end, an illegal one by `IllegalCommand` (R131). -/
theorem command_answers (w : Word) (s : State) : AnswersFrom s (command w s) := by
  unfold command
  split
  case h_1 i _ => exact exec_answers i s
  case h_2 => exact ⟨_, rfl, rfl, rfl⟩

/-- A write to any register is answered: only one to `CMD` does more than store a word (R66). -/
theorem writeRegister_answers (o : Offset) (v : Word) (s : State) : AnswersFrom s (writeRegister o v s) := by
  unfold writeRegister
  split
  case h_1 => exact command_answers v s.nextDraw
  all_goals exact ⟨_, rfl, rfl, rfl⟩

/-- An access R105 gives a meaning is answered, one kind of action at a time. -/
theorem hostStep_answers {a : HostAction} {s : State} (h : a.legal s.cfg = true) : AnswersFrom s (hostStep a s) := by
  cases a with
  | writeReg width o v =>
    obtain ⟨rfl, ho⟩ := wordAccess_eq_true.1 h
    rw [hostStep_writeReg ho]
    exact writeRegister_answers o v s
  | readReg width o =>
    obtain ⟨rfl, ho⟩ := wordAccess_eq_true.1 h
    exact ⟨_, hostStep_readReg ho, rfl, rfl⟩
  | writeBuf width a v =>
    obtain ⟨rfl, ha⟩ := State.byteAccess_eq_true.1 h
    exact ⟨_, hostStep_writeBuf ha, rfl, rfl⟩
  | readBuf width a =>
    obtain ⟨rfl, ha⟩ := State.byteAccess_eq_true.1 h
    exact ⟨_, hostStep_readBuf ha, rfl, rfl⟩
  | reset => exact ⟨_, rfl, rfl, rfl⟩

/-- Settles O9: the oldest action has a meaning, so it is answered, and the actions after it stay pending under the same parameters. -/
theorem conformingHostNeverStops : Obligations.ConformingHostNeverStops := by
  intro s hs
  cases hh : s.host with
  | nil => exact ⟨s, step_idle hh, hs⟩
  | cons a rest =>
    have hlegal : ∀ b ∈ a :: rest, b.legal s.cfg = true := hh ▸ hs
    obtain ⟨t, ht, hcfg, hhost⟩ :=
      hostStep_answers (s := { s with host := rest }) (hlegal a List.mem_cons_self)
    refine ⟨t, (step_pending hh).trans ht, fun b hb => ?_⟩
    rw [hhost] at hb
    rw [hcfg]
    exact hlegal b (List.mem_cons_of_mem a hb)

end Sys2Proof.Machine
end

section
/-! SUPPORT. The encoding of commands: decoder and encoder are inverse to each other on the words R134 calls legal, and what the engine does with a word (R131 to R141). -/

namespace Sys2Proof

/-! ### From a command to its word and back -/

theorem decodePlain_eq_ok (i : Instr) {w : Word} (hn : nField w = 0) (hi : immField w = 0) :
    decodePlain i w = .ok i := by
  simp [decodePlain, hn, hi]

theorem decodeRead_eq_ok {w : Word} (hn : (nField w).toNat ≤ 32) (hi : immField w = 0) :
    decodeRead w = .ok (.brRead (nField w)) := by
  simp [decodeRead, hn, hi]

theorem decodeCrc_eq_ok {w : Word} (hn : nField w = 0) : decodeCrc w = .ok (.brCrc (immField w)) := by
  simp [decodeCrc, hn]

/-- The decoder reads a command back from its word; only BR_READ's count can be out of range (R134 (d)). -/
theorem decode_encode {i : Instr} (h : i.wf = true) : decode (encode i) = .ok i := by
  cases i with
  | brRead n =>
    have hn : n.toNat ≤ 32 := by simpa [Instr.wf] using h
    have hop : decodeOp (commandWord 0x02#8 n 0) = decodeRead (commandWord 0x02#8 n 0) := by
      simp [decodeOp]
    rw [encode, decode_of_reserved (reservedField_commandWord ..), hop, decodeRead_eq_ok] <;> simp [hn]
  | brCrc seed =>
    have hop : decodeOp (commandWord 0x07#8 0 seed) = decodeCrc (commandWord 0x07#8 0 seed) := by
      simp [decodeOp]
    rw [encode, decode_of_reserved (reservedField_commandWord ..), hop, decodeCrc_eq_ok] <;> simp
  | _ => rfl

/-- Settles O2: `decode_encode`. -/
theorem decodeEncodeRoundTrip : Obligations.DecodeEncodeRoundTrip := fun _ => decode_encode

/-- A word with reserved bits 0 is the command word of the values its fields have. -/
theorem commandWord_eq {w : Word} {op : BitVec 8} {n : BitVec 6} {imm : Half} (hr : reservedField w = 0)
    (ho : (opField w).toNat = op.toNat) (hn : nField w = n) (hi : immField w = imm) : commandWord op n imm = w := by
  rw [← BitVec.eq_of_toNat_eq ho, ← hn, ← hi, commandWord_fields hr]

/-- An arm of the opcode map gives a command whose opcode is the arm's, with the word's own immediates. -/
theorem encode_of_decodeOp {w : Word} {i : Instr} (hr : reservedField w = 0) (h : decodeOp w = .ok i) :
    i.wf = true ∧ encode i = w := by
  unfold decodeOp at h
  split at h
  case h_3 ho =>
    obtain ⟨rfl, hn, hi⟩ := decodeRead_ok h
    exact ⟨by simpa [Instr.wf] using hn, commandWord_eq hr ho rfl hi⟩
  case h_8 ho =>
    obtain ⟨rfl, hn⟩ := decodeCrc_ok h
    exact ⟨rfl, commandWord_eq hr ho hn rfl⟩
  case h_16 => cases h
  all_goals
    obtain ⟨rfl, hn, hi⟩ := decodePlain_ok h
    exact ⟨rfl, commandWord_eq hr ‹_› hn hi⟩

/-- A legal word has reserved bits 0 and is the word of the command it decodes to (R134, R141). -/
theorem encode_of_decode {w : Word} {i : Instr} (h : decode w = .ok i) :
    i.wf = true ∧ encode i = w := by
  by_cases hr : reservedField w = 0
  · exact encode_of_decodeOp hr ((decode_of_reserved hr).symm.trans h)
  · rw [decode, if_pos hr] at h
    cases h

/-- Settles O3: `encode_of_decode`. -/
theorem legalWordIsTheWordOfItsCommand : Obligations.LegalWordIsTheWordOfItsCommand :=
  fun _ _ => encode_of_decode

/-- Settles O1: each word of the table is the encoder's, whose words decode back. -/
theorem commandWordsDecode : Obligations.CommandWordsDecode := by
  have read (n : BitVec 6) : BitVec.ofNat 32 (0x00000002 + n.toNat * 0x100) = encode (.brRead n) := by
    refine BitVec.eq_of_toNat_eq ?_
    rw [encode, commandWord_toNat]
    simp
    omega
  have crc (seed : Half) : BitVec.ofNat 32 (0x00000007 + seed.toNat * 0x10000) = encode (.brCrc seed) := by
    refine BitVec.eq_of_toNat_eq ?_
    rw [encode, commandWord_toNat]
    simp
    omega
  refine ⟨decode_encode (i := .nop) rfl, decode_encode (i := .brSet) rfl, fun n hn => ?_,
    decode_encode (i := .brSkip) rfl, decode_encode (i := .brPos) rfl, decode_encode (i := .brMark) rfl,
    decode_encode (i := .brDist) rfl, fun seed => ?_, decode_encode (i := .fhDecode) rfl,
    decode_encode (i := .fhFramelen) rfl, decode_encode (i := .scSetbuf) rfl, decode_encode (i := .scExtend) rfl,
    decode_encode (i := .scSetskip) rfl, decode_encode (i := .scNext) rfl, decode_encode (i := .smParse) rfl⟩
  · rw [read, decode_encode (by simpa [Instr.wf] using hn)]
  · rw [crc, decode_encode rfl]

/-! ### The five cases of R134 -/

/-- The opcodes of R133's table. -/
def opcodes : List Nat :=
  [0x00, 0x01, 0x02, 0x03, 0x04, 0x05, 0x06, 0x07, 0x10, 0x11, 0x20, 0x21, 0x22, 0x23, 0x30]

/-- None of the cases (a) to (e) of R134 applies to `w`. -/
structure LegalFields (w : Word) : Prop where
  op       : (opField w).toNat ∈ opcodes
  reserved : reservedField w = 0
  unusedN  : (opField w).toNat ≠ 0x02 → nField w = 0
  count    : (opField w).toNat = 0x02 → (nField w).toNat ≤ 32
  imm      : (opField w).toNat ≠ 0x07 → immField w = 0

/-- The word of a well-formed command has legal fields. -/
theorem legalFields_encode {i : Instr} (h : i.wf = true) : LegalFields (encode i) := by
  cases i with
  | brRead n => constructor <;> simp_all [encode, opcodes, Instr.wf]
  | _ => constructor <;> simp [encode, opcodes]

/-- Legal fields are what the decoder asks for, arm by arm. -/
theorem decode_of_legalFields {w : Word} (h : LegalFields w) : ∃ i, decode w = .ok i := by
  obtain ⟨hop, hr, hn, hc, hi⟩ := h
  rw [decode_of_reserved hr, decodeOp]
  split
  case h_3 ho => exact ⟨_, decodeRead_eq_ok (hc ho) (hi (by omega))⟩
  case h_8 ho => exact ⟨_, decodeCrc_eq_ok (hn (by omega))⟩
  case h_16 => simp_all [opcodes]
  all_goals exact ⟨_, decodePlain_eq_ok _ (hn (by omega)) (hi (by omega))⟩

/-- A word decodes exactly when none of R134's cases applies. -/
theorem decode_ok_iff {w : Word} : (∃ i, decode w = .ok i) ↔ LegalFields w := by
  refine ⟨fun ⟨i, hi⟩ => ?_, decode_of_legalFields⟩
  obtain ⟨hwf, henc⟩ := encode_of_decode hi
  exact henc ▸ legalFields_encode hwf

/-- The same as numbers: the shifts and masks of R132. -/
theorem legalFields_iff {w : Word} :
    LegalFields w ↔ w.toNat % 2 ^ 8 ∈ opcodes ∧ w.toNat / 2 ^ 14 % 2 ^ 2 = 0 ∧
      (w.toNat % 2 ^ 8 ≠ 0x02 → w.toNat / 2 ^ 8 % 2 ^ 6 = 0) ∧
      (w.toNat % 2 ^ 8 = 0x02 → w.toNat / 2 ^ 8 % 2 ^ 6 ≤ 32) ∧
      (w.toNat % 2 ^ 8 ≠ 0x07 → w.toNat / 2 ^ 16 = 0) := by
  have zero {k : Nat} (x : BitVec k) : x = 0 ↔ x.toNat = 0 := BitVec.toNat_inj.symm
  rw [← opField_toNat, ← nField_toNat, ← reservedField_toNat, ← immField_toNat, ← zero, ← zero, ← zero]
  constructor <;> exact fun ⟨ho, hr, hn, hc, hi⟩ => ⟨ho, hr, hn, hc, hi⟩

namespace Machine

/-! ### Issuing a command word (R131) -/

section
variable {s : State} {w : Word} {rest : List HostAction}

/-- The step of a pending write to `CMD` issues the word, with a draw of its own (log 13). -/
theorem step_command (h : s.host = .writeReg 32 0x000 w :: rest) :
    step s = command w { s with host := rest, draws := s.draws + 1 } := by
  rw [step_pending h, hostStep_writeReg rfl]
  rfl

theorem command_legal {i : Instr} (h : decode w = .ok i) : command w s = exec i s := by
  rw [command, h]

theorem command_illegal (h : ¬LegalFields w) : command w s = illegalCommand s := by
  cases hd : decode w with
  | ok i => exact absurd (decode_ok_iff.1 ⟨i, hd⟩) h
  | error e => rw [command, hd]

end

/-- Settles O5: the pending write issues the word, and a legal word runs its command. -/
theorem stepRunsTheDecodedCommand : Obligations.StepRunsTheDecodedCommand :=
  fun _ _ _ _ hh hd => (step_command hh).trans (command_legal hd)

/-- Settles O4: the five cases are the words whose fields are not legal. -/
theorem illegalWordsRaiseIllegalCommand : Obligations.IllegalWordsRaiseIllegalCommand := by
  intro w op n imm bad
  have hbad : bad ↔ ¬LegalFields w := by
    rw [legalFields_iff]
    simp only [bad, op, n, imm, opcodes, not_and_or, Classical.not_imp, not_le]
  refine ⟨fun h => decode_of_legalFields (not_not.1 (mt hbad.2 h)), fun h s rest hh => ?_⟩
  rw [step_command hh, command_illegal (hbad.1 h)]
  simp [illegalCommand, State.raise]

/-! ### What no command writes (R67, R135) -/

section
variable {s t : State} {i : Instr}

theorem NextEnded.operands (h : NextEnded s t) :
    t.arg0 = s.arg0 ∧ t.arg1 = s.arg1 ∧ t.mem = s.mem ∧ t.epoch = s.epoch := by
  cases h <;> exact ⟨rfl, rfl, rfl, rfl⟩

theorem Ended.operands (h : Ended s i t) :
    t.arg0 = s.arg0 ∧ t.arg1 = s.arg1 ∧ t.mem = s.mem ∧ t.epoch = s.epoch := by
  cases h with
  | scNext h => exact h.operands
  | _ => exact ⟨rfl, rfl, rfl, rfl⟩

end

/-- Settles O14, by the way each command ends. -/
theorem commandsKeepTheArgumentsAndTheBuffer : Obligations.CommandsKeepTheArgumentsAndTheBuffer := by
  intro i s t hx
  obtain ⟨h0, h1, hm, he⟩ := (ended_of_exec hx).operands
  exact ⟨h0, h1, hm, fun a => congrFun (State.byteAt_congr hm he) a⟩

end Machine

end Sys2Proof
end

section
/-! SUPPORT. The header decoder on the 32-bit header word: where each field of R151 stands in it, and the answers of `decode_header` it decides (R154, R300 to R314). -/

namespace Sys2Proof.Machine

/-! ### The fields of the header word -/

section
variable (v : BitView) (b : Nat)

/-- The field of `m` bits that starts `k` bits into the header word. -/
theorem headerWord_field {k m : Nat} (h : k + m ≤ 32) :
    bits v b 32 / 2 ^ (32 - k - m) % 2 ^ m = bits v (b + k) m := by
  have hf := bits_field v b k m (32 - k - m)
  rwa [show k + m + (32 - k - m) = 32 by omega] at hf

/-- The flag `k` bits into the header word. -/
theorem headerWord_flag {k : Nat} (h : k < 32) : bits v b 32 / 2 ^ (31 - k) % 2 = (v (b + k)).toNat := by
  have hf := headerWord_field v b (k := k) (m := 1) h
  rwa [bits_one, pow_one, show 32 - k - 1 = 31 - k by omega] at hf

theorem headerWord_x25 : bits v b 32 / 2 ^ 20 % 2 = (v (b + 11)).toNat :=
  headerWord_flag v b (k := 11) (by decide)
theorem headerWord_id : bits v b 32 / 2 ^ 19 % 2 = (v (b + 12)).toNat :=
  headerWord_flag v b (k := 12) (by decide)
theorem headerWord_layer : bits v b 32 / 2 ^ 17 % 4 = bits v (b + 13) 2 :=
  headerWord_field v b (k := 13) (m := 2) (by decide)
theorem headerWord_prot : bits v b 32 / 2 ^ 16 % 2 = (v (b + 15)).toNat :=
  headerWord_flag v b (k := 15) (by decide)
theorem headerWord_brIdx : bits v b 32 / 2 ^ 12 % 16 = bits v (b + 16) 4 :=
  headerWord_field v b (k := 16) (m := 4) (by decide)
theorem headerWord_srIdx : bits v b 32 / 2 ^ 10 % 4 = bits v (b + 20) 2 :=
  headerWord_field v b (k := 20) (m := 2) (by decide)
theorem headerWord_padding : bits v b 32 / 2 ^ 9 % 2 = (v (b + 22)).toNat :=
  headerWord_flag v b (k := 22) (by decide)
theorem headerWord_priv : bits v b 32 / 2 ^ 8 % 2 = (v (b + 23)).toNat :=
  headerWord_flag v b (k := 23) (by decide)
theorem headerWord_mode : bits v b 32 / 2 ^ 6 % 4 = bits v (b + 24) 2 :=
  headerWord_field v b (k := 24) (m := 2) (by decide)
theorem headerWord_modeExt : bits v b 32 / 2 ^ 4 % 4 = bits v (b + 26) 2 :=
  headerWord_field v b (k := 26) (m := 2) (by decide)
theorem headerWord_copyright : bits v b 32 / 2 ^ 3 % 2 = (v (b + 28)).toNat :=
  headerWord_flag v b (k := 28) (by decide)
theorem headerWord_original : bits v b 32 / 2 ^ 2 % 2 = (v (b + 29)).toNat :=
  headerWord_flag v b (k := 29) (by decide)
theorem headerWord_emphasis : bits v b 32 % 4 = bits v (b + 30) 2 := by
  simpa using headerWord_field v b (k := 30) (m := 2) (by decide)

end

/-- A register at least as wide as the field read into it holds the field's value. -/
theorem toNat_ofNat_bits (v : BitView) (b : Nat) {n w : Nat} (h : n ≤ w) :
    (BitVec.ofNat w (bits v b n)).toNat = bits v b n :=
  (BitVec.toNat_ofNat ..).trans (Nat.mod_eq_of_lt ((bits_lt ..).trans_le (Nat.pow_le_pow_right (by decide) h)))

/-- MPEG-2.5 without LSF, the version R302 rejects: X25 0 and ID 1 in the header word. -/
theorem badVersion_iff {v : BitView} {b : Nat} :
    bits v b 32 / 2 ^ 20 % 2 = 0 ∧ bits v b 32 / 2 ^ 19 % 2 = 1 ↔ v (b + 11) = false ∧ v (b + 12) = true := by
  rw [headerWord_x25, headerWord_id, Bool.toNat_eq_zero, Bool.toNat_eq_one]

/-! ### A legal header (R300) -/

/-- The halvings of R308, as a division by a power of two: MPEG-2.5 comes with LSF. -/
theorem tableSamplerate_eq (c : Config) (idx : Nat) {x25 id : Bool} (h : ¬(x25 = false ∧ id = true)) :
    tableSamplerate c idx (!id) (!x25) = c.samplerateTable.getD idx 0 / 2 ^ (1 - id.toNat) / 2 ^ (1 - x25.toNat) := by
  cases x25 <;> cases id <;> simp_all [tableSamplerate]

theorem layerOfField_of_ne_zero {lf : Nat} (h : lf < 4) (h0 : lf ≠ 0) : ∃ l, layerOfField lf = some l :=
  Option.ne_none_iff_exists'.1 fun hn => h0 ((layerOfField_eq_none h).1 hn)

/-- The number of channels as a number (R313). -/
theorem channelsOf_toNat (c : Config) (m : BitVec 2) :
    (channelsOf c m).toNat = if m.toNat = c.monoMode.toNat then 1 else 2 := by
  simp only [channelsOf, ← BitVec.toNat_inj]
  split <;> rfl

/-- Settles O32: a legal header decodes to the record at `b`, whose fields are those of the header word. -/
theorem decodeReadsTheHeaderWord : Obligations.DecodeReadsTheHeaderWord := by
  intro c v b w x25 id lf pb len hver hlf hbr hsr hfit
  have hlen : len = if v (b + 15) then 32 else 48 := by
    simp only [len, pb, w, headerWord_prot]
    cases v (b + 15) <;> rfl
  simp only [w, x25, id, badVersion_iff] at hver
  simp only [w, lf, headerWord_layer, headerWord_brIdx, headerWord_srIdx] at hlf hbr hsr
  obtain ⟨l, hl⟩ := layerOfField_of_ne_zero (bits_lt v (b + 13) 2) hlf
  rw [hlen] at hfit ⊢
  refine ⟨headerAt c v v b l, decodeHeader_eq_ok v hl hver hbr hsr hfit, ?_⟩
  have not_toNat (x : Bool) : (!x).toNat = 1 - x.toNat := by cases x <;> rfl
  have hid : decide ((v (b + 12)).toNat = 0) = !v (b + 12) := by cases v (b + 12) <;> rfl
  have hpb : (v (b + 15)).toNat = 0 ↔ (!v (b + 15)) = true := by cases v (b + 15) <;> decide
  simp only [w, x25, id, lf, pb, headerWord_x25, headerWord_id, headerWord_layer, headerWord_prot, headerWord_brIdx,
    headerWord_srIdx, headerWord_padding, headerWord_priv, headerWord_mode, headerWord_modeExt, headerWord_copyright,
    headerWord_original, headerWord_emphasis, hid, hpb, headerAt, toNat_ofNat_bits, le_rfl, not_toNat,
    tableSamplerate_eq c _ hver, channelsOf_toNat, true_and]
  refine ⟨layerOfField_num hl, Nat.mul_comm .., ?_⟩
  split
  · exact toNat_ofNat_bits _ _ le_rfl
  · rfl

/-! ### A reserved field (R154) -/

section
variable {c : Config} {v cv : BitView} {b : Nat}

/-- R302: the version is read first. -/
theorem decodeHeader_badVersion (hb : b + 13 ≤ c.bitLimit) (h : v (b + 11) = false ∧ v (b + 12) = true) :
    decodeHeader c v cv b = .err .badLayer := by
  rw [decodeHeader, if_neg (by omega), if_pos (by simp [h])]

/-- R303: then the layer, whose error is the same. -/
theorem decodeHeader_badLayer (hb : b + 15 ≤ c.bitLimit) (h : bits v (b + 13) 2 = 0) :
    decodeHeader c v cv b = .err .badLayer := by
  rw [decodeHeader, if_neg (by omega)]
  split
  · rfl
  · rw [if_neg (by omega), (layerOfField_eq_none (bits_lt v (b + 13) 2)).2 h]

/-- What is left of the decode once the version and the layer are legal and the CRC's 16 bits fit (R305 to R312). -/
theorem decodeHeader_of_layer (hb : b + 20 ≤ c.bitLimit) (hcrc : v (b + 15) = false → b + 32 ≤ c.bitLimit)
    (hver : ¬(v (b + 11) = false ∧ v (b + 12) = true)) {l : Layer}
    (hl : layerOfField (bits v (b + 13) 2) = some l) :
    decodeHeader c v cv b =
      if bits v (b + 16) 4 = 15 then .err .badBitrate
      else if c.bitLimit < b + 22 then .fault
      else if bits v (b + 20) 2 = 3 then .err .badSampleRate
      else if c.bitLimit < b + 32 then .fault
      else if !v (b + 15) && decide (c.bitLimit < b + 48) then .fault
      else .ok (headerAt c v cv b l) (if v (b + 15) then 32 else 48) := by
  rw [decodeHeader, if_neg (by omega), if_neg (by simpa using hver), if_neg (by omega), hl]
  dsimp only
  rw [if_neg (by omega), if_neg (by simpa using hcrc), if_neg (by omega)]

end

/-- Settles O33: the fields are read in order, so each error comes before any later field matters. -/
theorem reservedHeaderValuesFailWithTheirError : Obligations.ReservedHeaderValuesFailWithTheirError := by
  intro c v cv b w badVersion crcFits
  have hver : badVersion ↔ v (b + 11) = false ∧ v (b + 12) = true := badVersion_iff
  have hcrc (h : crcFits) : v (b + 15) = false → b + 32 ≤ c.bitLimit := fun hp =>
    h ((headerWord_prot v b).trans (Bool.toNat_eq_zero.2 hp))
  rw [headerWord_layer, headerWord_brIdx, headerWord_srIdx, hver]
  refine ⟨decodeHeader_badVersion, decodeHeader_badLayer, fun hb hf hv hl h15 => ?_,
      fun (hb : b + 22 ≤ c.bitLimit) hf hv hl h15 h3 => ?_⟩ <;>
    obtain ⟨l, hl⟩ := layerOfField_of_ne_zero (bits_lt v (b + 13) 2) hl
  · rw [decodeHeader_of_layer hb (hcrc hf) hv hl, if_pos h15]
  · rw [decodeHeader_of_layer (by omega) (hcrc hf) hv hl, if_neg h15, if_neg (not_lt.2 hb), if_pos h3]

end Sys2Proof.Machine
end

section
/-! SUPPORT. SM_PARSE by the magic at T: what each kind of tag leaves in the registers, field by field, with the parameters of this spec (R500 to R545). -/

namespace Sys2Proof.Machine

/-! ### The parameters of this spec that SM_PARSE reads (R7) -/

section
variable {s : State} (hs : s.SpecConfig)
include hs

theorem State.SpecConfig.xingMagic : s.cfg.xingMagic = 0x58696E67 := congrArg Config.xingMagic hs.1
theorem State.SpecConfig.infoMagic : s.cfg.infoMagic = 0x496E666F := congrArg Config.infoMagic hs.1
theorem State.SpecConfig.lameMagic : s.cfg.lameMagic = 0x4C414D45 := congrArg Config.lameMagic hs.1
theorem State.SpecConfig.vbriMagic : s.cfg.vbriMagic = 0x56425249 := congrArg Config.vbriMagic hs.1
theorem State.SpecConfig.vbriOffset : s.cfg.vbriOffset = 36 := congrArg Config.vbriOffset hs.1
theorem State.SpecConfig.tocEntries : s.cfg.tocEntries = 100 := congrArg Config.tocEntries hs.1
theorem State.SpecConfig.lameBlockBytes : s.cfg.lameBlockBytes = 36 := congrArg Config.lameBlockBytes hs.1
theorem State.SpecConfig.crcPoly : s.cfg.crcPoly = 0x1021 := congrArg Config.crcPoly hs.1
theorem State.SpecConfig.lameCrcSeed : s.cfg.lameCrcSeed = 0 := congrArg Config.lameCrcSeed hs.1

theorem State.SpecConfig.frameContext_span :
    s.frameContext.span = if s.hdr.fields.getLsbD 2 then 175 else 190 := by
  have h1 : s.cfg.lameSpanLsf = 175 := congrArg Config.lameSpanLsf hs.1
  have h2 : s.cfg.lameSpanMpeg1 = 190 := congrArg Config.lameSpanMpeg1 hs.1
  rw [State.frameContext, h1, h2, HeaderRegs.lsf]

end

/-! ### The two ways a parse ends (R500) -/

section
variable {s : State} (hl : s.arg0.toNat + s.arg1.toNat ≤ 8 * s.cfg.memBytes)
include hl

theorem exec_smParse_some {r : SeekRegs}
    (hp : parseTag s.cfg s.bitAt s.frameContext s.arg0.toNat s.arg1.toNat = some r) :
    exec .smParse s = .next { s with sm := r, status := { s.status with code := .ok } } := by
  rw [exec_smParse hl, hp]
  simp [State.complete, State.raise]

theorem exec_smParse_none (hp : parseTag s.cfg s.bitAt s.frameContext s.arg0.toNat s.arg1.toNat = none) :
    exec .smParse s = .next { s with sm := .malformed, status := { s.status with code := .malformed } } := by
  rw [exec_smParse hl, hp]
  simp [State.raise, Status.ended_plain]

end

/-! ### The magic dispatch (R505) -/

section
variable {s : State} {t l : Nat} (hs : s.SpecConfig)
include hs

theorem tagKindAt_spec (h : 32 ≤ l) :
    tagKindAt s.cfg s.bitAt t l =
      if bits s.bitAt t 32 = 0x58696E67 then .xing
      else if bits s.bitAt t 32 = 0x496E666F then .info
      else if bits s.bitAt t 32 = 0x4C414D45 then .lame
      else .none := by
  rw [tagKindAt, if_neg (not_lt.2 h), hs.xingMagic, hs.infoMagic, hs.lameMagic]

theorem tagKindAt_xing {k : TagKind} (hk : k = .xing ∨ k = .info) (h : 32 ≤ l)
    (hm : bits s.bitAt t 32 = if k = .xing then 0x58696E67 else 0x496E666F) : tagKindAt s.cfg s.bitAt t l = k := by
  rw [tagKindAt_spec hs h, hm]
  rcases hk with rfl | rfl <;> rfl

theorem tagKindAt_lame (h : 32 ≤ l) (hm : bits s.bitAt t 32 = 0x4C414D45) :
    tagKindAt s.cfg s.bitAt t l = .lame := by
  rw [tagKindAt_spec hs h, hm]
  rfl

theorem tagKindAt_none (h : l < 32 ∨ bits s.bitAt t 32 ∉ [0x58696E67, 0x496E666F, 0x4C414D45]) :
    tagKindAt s.cfg s.bitAt t l = .none := by
  by_cases hl : l < 32
  · rw [tagKindAt, if_pos hl]
  · have hm := h.resolve_left hl
    simp only [List.mem_cons, List.not_mem_nil, or_false, not_or] at hm
    obtain ⟨hx, hi, hlm⟩ := hm
    rw [tagKindAt_spec hs (not_lt.1 hl), if_neg hx, if_neg hi, if_neg hlm]

end

/-! ### A Xing or Info tag (R510, R511) -/

/-- Flag `i` of the flags word, as a number. -/
theorem xingFlag_eq (x : Nat) {i : Nat} (h : i < 32) :
    (BitVec.ofNat 32 x).getLsbD i = decide (x / 2 ^ i % 2 = 1) := by
  rw [BitVec.getLsbD_ofNat, Nat.testBit_eq_decide_div_mod_eq]
  simp [h]

theorem xingFlag_toNat (x : Nat) {i : Nat} (h : i < 32) : ((BitVec.ofNat 32 x).getLsbD i).toNat = x / 2 ^ i % 2 := by
  rw [xingFlag_eq x h]
  rcases Nat.mod_two_eq_zero_or_one (x / 2 ^ i) with h | h <;> simp [h]

/-- A register whose field is read when flag `i` is set. -/
theorem toNat_flagged (v : BitView) (b x : Nat) {i : Nat} (h : i < 32) :
    (if (BitVec.ofNat 32 x).getLsbD i then BitVec.ofNat 32 (bits v b 32) else 0).toNat =
      if x / 2 ^ i % 2 = 1 then bits v b 32 else 0 := by
  rw [xingFlag_eq x h]
  by_cases hx : x / 2 ^ i % 2 = 1
  · rw [if_pos (decide_eq_true hx), if_pos hx, toNat_ofNat_bits v b le_rfl]
  · rw [if_neg (by simpa using hx), if_neg hx]; rfl

/-- The seek table, whose bytes are read when flag `i` is set. -/
theorem toNat_flaggedToc {c : Config} (hc : c.tocEntries = 100) (v : BitView) (b x : Nat) {i : Nat} (h : i < 32)
    (j : Fin 100) :
    ((if (BitVec.ofNat 32 x).getLsbD i then tocRegs c fun k => bits v (b + 8 * k) 8
      else Vector.replicate 100 0)[j.val]).toNat = if x / 2 ^ i % 2 = 1 then bits v (b + 8 * j.val) 8 else 0 := by
  simp only [xingFlag_eq x h]
  by_cases hx : x / 2 ^ i % 2 = 1
  · have hj : j.val < c.tocEntries := lt_of_lt_of_eq j.isLt hc.symm
    simp only [hx, decide_true, if_true, tocRegs_get _ j.isLt hj, toNat_ofNat_bits _ _ le_rfl]
  · simp [hx]

/-- The registers `parse_xing` leaves, as numbers: each flagged field at the place the fields before it leave, and 0 for the others (R510). -/
theorem xingRegs_fields {c : Config} (hc : c.tocEntries = 100) (v : BitView) (pos : Nat) :
    let flags := bits v pos 32
    let f := fun i => flags / 2 ^ i % 2
    let atBytes := pos + 32 + 32 * f 0
    let atToc := atBytes + 32 * f 1
    let atScale := atToc + 800 * f 2
    let r := xingRegs c v pos
    r.status.malformed = false ∧ r.xingFlags.toNat = flags ∧
      r.status.framesValid = decide (f 0 = 1) ∧ r.status.bytesValid = decide (f 1 = 1) ∧
      r.status.tocValid = decide (f 2 = 1) ∧ r.status.scaleValid = decide (f 3 = 1) ∧
      r.frames.toNat = (if f 0 = 1 then bits v (pos + 32) 32 else 0) ∧
      r.bytes.toNat = (if f 1 = 1 then bits v atBytes 32 else 0) ∧
      (∀ i : Fin 100, (r.toc[i.val]).toNat = if f 2 = 1 then bits v (atToc + 8 * i.val) 8 else 0) ∧
      r.scale.toNat = (if f 3 = 1 then bits v atScale 32 else 0) := by
  intro flags f atBytes atToc atScale r
  have hr := xingRegs_spec c v pos
  simp (disch := decide) only [xingFlag_toNat, hc] at hr
  simp only [r, hr]
  refine ⟨trivial, toNat_ofNat_bits v pos le_rfl, xingFlag_eq flags (i := 0) (by decide),
    xingFlag_eq flags (i := 1) (by decide), xingFlag_eq flags (i := 2) (by decide), xingFlag_eq flags (i := 3) (by decide),
    toNat_flagged v _ flags (by decide), toNat_flagged v _ flags (by decide),
    toNat_flaggedToc hc v _ flags (by decide), toNat_flagged v _ flags (by decide)⟩

/-- The length of a tag whose flags word is at `pos`, by its flags. -/
theorem xingLength_eq {c : Config} (hc : c.tocEntries = 100) (v : BitView) (pos : Nat) :
    xingLength c v pos = 32 + 32 * (bits v pos 32 / 2 ^ 0 % 2) + 32 * (bits v pos 32 / 2 ^ 1 % 2)
      + 800 * (bits v pos 32 / 2 ^ 2 % 2) + 32 * (bits v pos 32 / 2 ^ 3 % 2) := by
  simp (disch := decide) only [xingLength, hc, xingFlag_toNat]

/-- A Xing or Info magic runs `parse_xing` on the bits behind it, then the LAME check. -/
theorem parseTag_xing {c : Config} {v : BitView} (f : FrameContext) {t l : Nat} {k : TagKind}
    (hk : k = .xing ∨ k = .info) (ht : tagKindAt c v t l = k) :
    parseTag c v f t l = if l - 32 < 32 ∨ l - 32 < xingLength c v (t + 32) then none
      else some (lameCheck c v f ((xingRegs c v (t + 32)).setKind k)) := by
  have hp : parseTag c v f t l = (parseXing c v (t + 32) (l - 32)).map fun r => lameCheck c v f (r.setKind k) := by
    rcases hk with rfl | rfl <;> rw [parseTag, ht]
  rw [hp, parseXing_eq]
  split <;> rfl

/-- Settles O56: the registers of a tag that fits, through the LAME check, which keeps them. -/
theorem xingTagIsReadFieldByField : Obligations.XingTagIsReadFieldByField := by
  intro s k hs hk hl hlen t0 hmagic flags f atFrames atBytes atToc atScale all
  have hp := parseTag_xing s.frameContext hk (tagKindAt_xing hs hk hlen hmagic)
  have hlength : xingLength s.cfg s.bitAt (t0 + 32) = 32 + 32 * f 0 + 32 * f 1 + 800 * f 2 + 32 * f 3 :=
    xingLength_eq hs.tocEntries ..
  constructor
  · intro h64 hall
    rw [if_neg (by omega)] at hp
    refine ⟨_, exec_smParse_some hl hp, rfl, ?_⟩
    obtain ⟨hkind, hfv, hbv, htv, hsv, hm, hflags, hframes, hbytes, hscale, -, htoc⟩ :=
      lameCheck_frame s.cfg s.bitAt s.frameContext ((xingRegs s.cfg s.bitAt (t0 + 32)).setKind k)
    dsimp only
    rw [hkind, hfv, hbv, htv, hsv, hm, hflags, hframes, hbytes, hscale, htoc]
    exact ⟨rfl, xingRegs_fields hs.tocEntries s.bitAt (t0 + 32)⟩
  · intro h
    rw [if_pos (by omega)] at hp
    exact exec_smParse_none hl hp

/-! ### The LAME block (R515 to R522) -/

theorem toNat_ofNat_bytes (v : BitView) (a : Nat) {n w : Nat} (h : 8 * n ≤ w) :
    (BitVec.ofNat w (bytes v a n)).toNat = bytes v a n := toNat_ofNat_bits v _ h

/-- The frame is too short for a LAME block, or not in memory (R520). -/
def FrameContext.NoLame (f : FrameContext) (c : Config) : Prop :=
  f.size < f.span + 2 ∨ c.memBytes < f.start + f.size

section
variable {c : Config} {v : BitView} {f : FrameContext} (r : SeekRegs)

/-- With no block in it nothing is read. -/
theorem lameCheck_absent (h : f.NoLame c) : lameCheck c v f r = r := if_pos h

/-- A block whose two CRC words differ is left out. -/
theorem lameCheck_badCrc (h : ¬f.NoLame c)
    (hd : lameCrc c v f ≠ lameStored v f) :
    lameCheck c v f r = { r with lame := { r.lame with tagCrc := lameStored v f, crcCalc := lameCrc c v f },
                                 status := { r.status with lameState := .badCrc } } :=
  (if_neg h).trans (if_neg hd)

/-- A block whose two CRC words agree is accepted. -/
theorem lameCheck_valid (h : ¬f.NoLame c)
    (he : lameCrc c v f = lameStored v f) :
    lameCheck c v f r = acceptLame v (f.start + f.span + 2 - c.lameBlockBytes)
      { r with lame := { r.lame with tagCrc := lameStored v f, crcCalc := lameCrc c v f } } :=
  (if_neg h).trans (if_pos he)

/-- Either way both CRC words are recorded. -/
theorem lameCheck_crcs (h : ¬f.NoLame c) :
    (lameCheck c v f r).lame.crcCalc = lameCrc c v f ∧ (lameCheck c v f r).lame.tagCrc = lameStored v f := by
  by_cases he : lameCrc c v f = lameStored v f
  · rw [lameCheck_valid r h he]; exact ⟨rfl, rfl⟩
  · rw [lameCheck_badCrc r h he]; exact ⟨rfl, rfl⟩

end

/-- A LAME check over registers with a LAME magic alone fills LAME registers only. -/
theorem lameCheck_lame (c : Config) (v : BitView) (f : FrameContext) :
    let r := lameCheck c v f (SeekRegs.zero.setKind .lame)
    r.status = { kind := .lame, framesValid := false, bytesValid := false, tocValid := false, scaleValid := false,
                 lameState := r.status.lameState, malformed := false } ∧
      r = { SeekRegs.zero with status := r.status, lame := r.lame, enc := r.enc } := by
  intro r
  simp only [r, lameCheck]
  split_ifs <;> exact ⟨rfl, rfl⟩

/-- The accepted registers of a block at byte `b`, as numbers (R174). -/
theorem acceptLame_fields (v : BitView) (b : Nat) (r : SeekRegs) :
    let x := (acceptLame v b r).lame
    (∀ i : Fin 9, ((acceptLame v b r).enc[i.val]).toNat = bytes v (b + i.val) 1) ∧
      x.revMethod.toNat = bytes v (b + 9) 1 ∧ x.lowpass.toNat = bytes v (b + 10) 1 ∧
      x.peak.toNat = bytes v (b + 11) 4 ∧ x.rg.toNat = 2 ^ 16 * bytes v (b + 15) 2 + bytes v (b + 17) 2 ∧
      x.flagsAth.toNat = bytes v (b + 19) 1 ∧ x.bitrate.toNat = bytes v (b + 20) 1 ∧
      x.delayPad.toNat = bytes v (b + 21) 3 ∧ x.misc.toNat = bytes v (b + 24) 1 ∧
      x.gain.toNat = bytes v (b + 25) 1 ∧ x.preset.toNat = bytes v (b + 26) 2 ∧
      x.musicLen.toNat = bytes v (b + 28) 4 ∧ x.musicCrc.toNat = bytes v (b + 32) 2 := by
  have hrg : bytes v (b + 15) 4 = 2 ^ 16 * bytes v (b + 15) 2 + bytes v (b + 17) 2 :=
    (bits_add v (8 * (b + 15)) 16 16).trans (by rw [Nat.mul_comm]; rfl)
  rw [← hrg]
  simp (disch := decide) only [acceptLame, Vector.getElem_ofFn, toNat_ofNat_bytes, implies_true, and_self]

section
variable {s : State} (hs : s.SpecConfig)
include hs

theorem lameCrc_spec : lameCrc s.cfg s.bitAt s.frameContext =
    crc16 0x1021 s.bitAt (8 * s.frameContext.start) (8 * s.frameContext.span) 0 := by
  rw [lameCrc, hs.crcPoly, hs.lameCrcSeed]

/-- The block's 36 bytes end with the stored CRC, right after the span (R172). -/
theorem lameBlock_start : s.frameContext.start + s.frameContext.span + 2 - s.cfg.lameBlockBytes =
    s.frameContext.start + s.frameContext.span - 34 := by
  rw [hs.lameBlockBytes]
  exact Nat.add_sub_add_right _ 2 34

theorem lameStored_toNat : (lameStored s.bitAt s.frameContext).toNat =
    bytes s.bitAt (s.frameContext.start + s.frameContext.span - 34 + 34) 2 := by
  have hspan : 34 ≤ s.frameContext.start + s.frameContext.span := by
    rw [hs.frameContext_span]; split <;> omega
  rw [lameStored, toNat_ofNat_bytes _ _ (by decide), Nat.sub_add_cancel hspan]

end

/-- Settles O57: with a LAME magic the check runs on cleared registers; whatever the magic, it runs on registers with no LAME part, and then its three cases decide. -/
theorem lameBlockIsValidatedByItsCrc : Obligations.LameBlockIsValidatedByItsCrc := by
  constructor
  · intro s hs hl hlen hmagic
    have hp : parseTag s.cfg s.bitAt s.frameContext s.arg0.toNat s.arg1.toNat
        = some (lameCheck s.cfg s.bitAt s.frameContext (SeekRegs.zero.setKind .lame)) := by
      rw [parseTag, tagKindAt_lame hs hlen hmagic]
    obtain ⟨hstatus, hframe⟩ := lameCheck_lame s.cfg s.bitAt s.frameContext
    exact ⟨_, exec_smParse_some hl hp, rfl, hstatus, hframe⟩
  · intro s t hs hx hok hk f fs span byte crc
    cases ended_of_exec hx with
    | smParseMalformed => cases hok
    | smParseFault => cases hok
    | smParse hl hp =>
      obtain ⟨r, rfl, hlame, henc, habs, -⟩ := parseTag_lame hp hk
      have hspan : s.frameContext.span = span := hs.frameContext_span
      have hcrc : lameCrc s.cfg s.bitAt s.frameContext = crc :=
        (lameCrc_spec hs).trans (by rw [hspan]; rfl)
      have hstored : (lameStored s.bitAt s.frameContext).toNat = byte 34 2 :=
        (lameStored_toNat hs).trans (by rw [hspan]; rfl)
      have hsame : lameCrc s.cfg s.bitAt s.frameContext = lameStored s.bitAt s.frameContext ↔
          crc.toNat = byte 34 2 := by
        rw [← hstored, hcrc, BitVec.toNat_inj]
      have hno : s.frameContext.NoLame s.cfg ↔ fs < span + 2 ∨ s.cfg.memBytes < f + fs := by
        rw [← hspan]; rfl
      constructor
      · intro h
        rw [State.complete_sm, lameCheck_absent r (hno.2 h)]
        exact ⟨habs, hlame, henc⟩
      · intro hfs hmem
        have h : ¬s.frameContext.NoLame s.cfg := hno.not.2 (by omega)
        obtain ⟨hcalc, htag⟩ := lameCheck_crcs (v := s.bitAt) r h
        rw [State.complete_sm, hcalc, htag]
        refine ⟨hcrc, hstored, fun hd => ?_, fun he => ?_⟩
        · rw [lameCheck_badCrc r h (mt hsame.1 hd)]
          exact ⟨rfl, henc, by rw [hlame, hcrc]⟩
        · rw [lameCheck_valid r h (hsame.2 he), lameBlock_start hs, hspan]
          exact ⟨rfl, acceptLame_fields s.bitAt (f + span - 34) _⟩

/-! ### A VBRI tag (R530, R531, R540) -/

/-- `B[k]` of R540 as a sum. -/
theorem tocOffset_eq_sum (v : Nat → Nat) (k : Nat) : tocOffset v k = ((List.range k).map v).sum := by
  induction k with
  | zero => rfl
  | succ k ih => rw [tocOffset, ih, List.range_succ, List.map_append, List.sum_append]; simp

/-- An entry of R540, with the remainder of its division written as one. -/
theorem tocEntry_eq (m : Nat) (v : Nat → Nat) (n nbytes j : Nat) :
    tocEntry m v n nbytes j = min 255 (256 * (m * ((List.range (j * n / m)).map v).sum
      + j * n % m * v (j * n / m)) / (m * nbytes)) := by
  rw [tocEntry, tocOffset_eq_sum, Nat.mod_eq_sub_mul_div]

/-- The consistency test of R531 with the offset of this spec. -/
theorem VbriHeader.inconsistent_iff {s : State} (hs : s.SpecConfig) (x : VbriHeader) (size : Nat) :
    x.inconsistent s.cfg size = true ↔
      x.n = 0 ∨ x.es < 1 ∨ 4 < x.es ∨ x.nbytes = 0 ∨ size < 62 + x.n * x.es := by
  simp [VbriHeader.inconsistent, hs.vbriOffset, or_assoc]

theorem parseTag_none {c : Config} {v : BitView} {t l : Nat} (f : FrameContext) (h : tagKindAt c v t l = .none) :
    parseTag c v f t l = findVbri c v f := by
  rw [parseTag, h]

/-- A register of a table of R540 holds its entry, which fits in a byte. -/
theorem toNat_tocRegs_tocEntry {c : Config} (hc : c.tocEntries = 100) (v : Nat → Nat) (n nbytes : Nat)
    (j : Fin 100) : ((tocRegs c (tocEntry c.tocEntries v n nbytes))[j.val]).toNat =
      min 255 (256 * (100 * ((List.range (j.val * n / 100)).map v).sum + j.val * n % 100 * v (j.val * n / 100))
        / (100 * nbytes)) := by
  rw [tocRegs_get _ j.isLt (lt_of_lt_of_eq j.isLt hc.symm), hc, tocEntry_eq, BitVec.toNat_ofNat]
  exact Nat.mod_eq_of_lt (Nat.lt_succ_of_le (min_le_left ..))

/-- The registers of a consistent tag, as numbers; `entry i` is native entry `i` in its scale (R531, R540). -/
theorem vbriRegs_fields {c : Config} (hc : c.tocEntries = 100) (v : BitView) (a : Nat) {entry : Nat → Nat}
    (he : ∀ i, vbriEntry v a (vbriHeader v a) i * (vbriHeader v a).scale = entry i) :
    let x := vbriHeader v a
    let r := vbriRegs c v a x
    r.frames.toNat = x.nframes ∧ r.bytes.toNat = x.nbytes ∧ r.scale.toNat = x.quality ∧
      r.vbri.version.toNat = x.version ∧ r.vbri.delay.toNat = x.delay ∧ r.vbri.entries.toNat = x.n ∧
      r.vbri.scale.toNat = x.scale ∧ r.vbri.entrySize.toNat = x.es ∧ r.vbri.fpe.toNat = x.fpe ∧
      ∀ j : Fin 100, (r.toc[j.val]).toNat = min 255 (256 * (100 * ((List.range (j.val * x.n / 100)).map entry).sum
        + j.val * x.n % 100 * entry (j.val * x.n / 100)) / (100 * x.nbytes)) := by
  intro x r
  obtain rfl : (fun i => vbriEntry v a x i * x.scale) = entry := funext he
  have h2 (k : Nat) {w : Nat} (hw : 16 ≤ w) : (BitVec.ofNat w (bytes v (a + k) 2)).toNat = bytes v (a + k) 2 :=
    toNat_ofNat_bytes v _ hw
  have h4 (k : Nat) : (BitVec.ofNat 32 (bytes v (a + k) 4)).toNat = bytes v (a + k) 4 := toNat_ofNat_bytes v _ le_rfl
  refine ⟨h4 14, h4 10, h2 8 (by decide), h2 4 le_rfl, h2 6 le_rfl, h2 18 le_rfl, h2 20 le_rfl, h2 22 le_rfl,
    h2 24 le_rfl, toNat_tocRegs_tocEntry hc _ x.n x.nbytes⟩

section
variable {s : State} (hs : s.SpecConfig)
include hs

/-- No frame to look in, or no magic in it: no tag (R530). -/
theorem findVbri_zero (h : s.frameContext.size < 40 ∨
    s.cfg.memBytes < s.frameContext.start + s.frameContext.size ∨
    bytes s.bitAt (s.frameContext.start + 36) 4 ≠ 0x56425249) :
    findVbri s.cfg s.bitAt s.frameContext = some .zero := by
  rw [findVbri, hs.vbriOffset, hs.vbriMagic]
  split
  · rfl
  · exact if_pos (by omega)

/-- Behind a magic in the frame the consistency test decides (R531). -/
theorem findVbri_tag (h1 : 40 ≤ s.frameContext.size)
    (h2 : s.frameContext.start + s.frameContext.size ≤ s.cfg.memBytes)
    (h3 : bytes s.bitAt (s.frameContext.start + 36) 4 = 0x56425249) :
    findVbri s.cfg s.bitAt s.frameContext =
      parseVbri s.cfg s.bitAt (s.frameContext.start + 36) s.frameContext.size := by
  rw [findVbri, hs.vbriOffset, hs.vbriMagic, if_neg (by omega), if_neg (not_not.2 h3)]

end

/-- Settles O58: the frame's magic, then the consistency test, then the registers of a consistent tag. -/
theorem vbriTagIsFoundAtItsOffset : Obligations.VbriTagIsFoundAtItsOffset := by
  intro s hs hl hmagic f fs here n es entry bad
  have hp := parseTag_none s.frameContext (tagKindAt_none hs hmagic)
  have hbad : (vbriHeader s.bitAt (f + 36)).inconsistent s.cfg fs = true ↔ bad :=
    VbriHeader.inconsistent_iff hs _ fs
  refine ⟨fun h => ?_, fun h1 h2 h3 hb => ?_, fun h1 h2 h3 hb => ?_⟩
  · exact exec_smParse_some hl (hp.trans (findVbri_zero hs h))
  · exact exec_smParse_none hl ((hp.trans (findVbri_tag hs h1 h2 h3)).trans (if_pos (hbad.2 hb)))
  · have hregs := (hp.trans (findVbri_tag hs h1 h2 h3)).trans (if_neg (mt hbad.1 hb))
    refine ⟨_, exec_smParse_some hl hregs, rfl, rfl, rfl, rfl, rfl, ?_⟩
    have hentry (i : Nat) : vbriEntry s.bitAt (f + 36) (vbriHeader s.bitAt (f + 36)) i
        * (vbriHeader s.bitAt (f + 36)).scale = entry i := by
      rw [vbriEntry, Nat.add_assoc]
      rfl
    exact vbriRegs_fields hs.tocEntries s.bitAt (f + 36) hentry

end Sys2Proof.Machine
end

section
/-! SUPPORT. The CRC of R205 against the table form of R206: a bit loop over at most 16 bits is that many shift steps on the register with the bits added at its top, and shift steps are linear. -/

namespace Sys2Proof.Machine

/-- The `n` bits of `v` from `b` on at the top of a register, the first one in bit 15. -/
def topBits (v : BitView) (b n : Nat) : Half := BitVec.ofNat 16 (bits v b n * 2 ^ (16 - n))

section
variable (poly : Half) (v : BitView) (b : Nat)

/-- The first bit of the string is the register's bit 15. -/
theorem topBits_getLsbD {n : Nat} (h : n < 16) : (topBits v b (n + 1)).getLsbD 15 = v b := by
  have hbit := bits_testBit v b (n + 1) 0 (by omega)
  rw [topBits, BitVec.getLsbD_ofNat, Nat.testBit_mul_two_pow, show 15 - (16 - (n + 1)) = n + 1 - 1 - 0 by omega, hbit]
  simp

/-- A shift drops the first bit of the string. -/
theorem topBits_shiftLeft {n : Nat} (h : n < 16) : topBits v b (n + 1) <<< 1 = topBits v (b + 1) n := by
  have hsplit : bits v b (n + 1) = (v b).toNat * 2 ^ n + bits v (b + 1) n := by
    rw [Nat.add_comm n, bits_add, bits_one]
  have hpow : 2 ^ (16 - (n + 1)) * 2 = 2 ^ (16 - n) := by rw [← pow_succ]; congr 1; omega
  have hword : 2 ^ n * 2 ^ (16 - n) = 2 ^ 16 := by rw [← pow_add]; congr 1; omega
  refine BitVec.eq_of_toNat_eq ?_
  simp only [topBits, BitVec.toNat_shiftLeft, BitVec.toNat_ofNat, Nat.shiftLeft_eq, pow_one, Nat.mod_mul_mod]
  calc bits v b (n + 1) * 2 ^ (16 - (n + 1)) * 2 % 2 ^ 16
      = ((v b).toNat * 2 ^ 16 + bits v (b + 1) n * 2 ^ (16 - n)) % 2 ^ 16 := by
        rw [Nat.mul_assoc, hpow, hsplit, Nat.add_mul, Nat.mul_assoc, hword]
    _ = bits v (b + 1) n * 2 ^ (16 - n) % 2 ^ 16 := Nat.mul_add_mod_self_right ..

/-- One step with a data bit is one shift step once the string is added to the register. -/
theorem crcStep_topBits {n : Nat} (h : n < 16) (c : Half) :
    crcStep poly (c ^^^ topBits v b (n + 1)) false = crcStep poly c (v b) ^^^ topBits v (b + 1) n := by
  have hdata : crcStep poly (topBits v b (n + 1)) (v b) = topBits v (b + 1) n := by
    rw [crcStep, topBits_getLsbD v b h, Bool.xor_self, if_neg Bool.false_ne_true, topBits_shiftLeft v b h]
  rw [← hdata, ← crcStep_xor, Bool.xor_self]

/-- The bit loop over a string that fits in the register. -/
theorem crc16_eq_crcShift {n : Nat} (h : n ≤ 16) (c : Half) :
    crc16 poly v b n c = crcShift poly n (c ^^^ topBits v b n) := by
  induction n generalizing b c with
  | zero => simp [crc16, crcShift, topBits, bits]
  | succ n ih => rw [crc16, crcShift, crcStep_topBits poly v b h, ih (b + 1) (by omega)]

theorem crcShift_xor (n : Nat) (c d : Half) :
    crcShift poly n (c ^^^ d) = crcShift poly n c ^^^ crcShift poly n d := by
  induction n generalizing c d with
  | zero => rfl
  | succ n ih =>
    have hstep : crcStep poly (c ^^^ d) false = crcStep poly c false ^^^ crcStep poly d false :=
      crcStep_xor poly c d false false
    rw [crcShift, hstep, ih]; rfl

/-- As long as only 0 bits leave the register, shift steps are a shift. -/
theorem crcShift_of_lt {n : Nat} {c : Half} (h : c.toNat * 2 ^ n < 2 ^ 16) : crcShift poly n c = c <<< n := by
  induction n generalizing c with
  | zero => simp [crcShift]
  | succ n ih =>
    have hlt : c.toNat * 2 < 2 ^ 16 :=
      (Nat.mul_le_mul_left _ (Nat.le_self_pow n.succ_ne_zero 2)).trans_lt h
    have htop : c.getLsbD 15 = false := Nat.testBit_lt_two_pow (show c.toNat < 2 ^ 15 by omega)
    have hstep : crcStep poly c false = c <<< 1 := by rw [crcStep, htop]; rfl
    have hval : (c <<< 1).toNat = c.toNat * 2 := by
      rw [BitVec.toNat_shiftLeft, Nat.shiftLeft_eq, pow_one, Nat.mod_eq_of_lt hlt]
    rw [crcShift, hstep, ih (by rwa [hval, Nat.mul_assoc, Nat.mul_comm 2, ← pow_succ]), Nat.add_comm, BitVec.shiftLeft_add]

/-- Eight bits at the top of a register are a byte times `2^8`. -/
theorem topBits_eight : topBits v b 8 = BitVec.ofNat 8 (bits v b 8) ++ (0#8 : Byte) := by
  refine BitVec.eq_of_toNat_eq ?_
  have hlt := bits_lt v b 8
  rw [topBits, BitVec.toNat_append, BitVec.toNat_ofNat, BitVec.toNat_ofNat, Nat.mod_eq_of_lt hlt, Nat.shiftLeft_eq,
    Nat.mod_eq_of_lt (by omega)]
  exact (Nat.or_zero _).symm

/-- A shift by eight keeps the low byte, as the high one. -/
theorem shiftLeft_eight (c : Half) : c <<< 8 = c.extractLsb' 0 8 ++ (0#8 : Byte) :=
  BitVec.shiftLeft_eq_concat_of_lt (by decide)

/-- A byte added to the high byte of a register, apart from the low byte. -/
theorem xor_high_byte (c : Half) (d : Byte) :
    c ^^^ (d ++ (0#8 : Byte)) =
      ((0#8 : Byte) ++ c.extractLsb' 0 8) ^^^ ((c.extractLsb' 8 8 ^^^ d) ++ (0#8 : Byte)) := by
  have hc : c.extractLsb' 8 8 ++ c.extractLsb' 0 8 = c := by
    rw [BitVec.extractLsb'_append_extractLsb'_eq_extractLsb' (by rfl)]
    exact BitVec.extractLsb'_eq_self
  calc c ^^^ (d ++ (0#8 : Byte))
      = (c.extractLsb' 8 8 ++ c.extractLsb' 0 8) ^^^ (d ++ (0#8 : Byte)) := by rw [hc]
    _ = _ := by rw [BitVec.xor_append, BitVec.xor_append, BitVec.zero_xor]

/-- The CRC of one byte is one step of the table form (R206): the high byte goes through the table, the low byte is only shifted. -/
theorem crc16_byte (c : Half) : crc16 poly v b 8 c =
    (c <<< 8) ^^^ crcTable poly (c.extractLsb' 8 8 ^^^ BitVec.ofNat 8 (bits v b 8)) := by
  have hlow : ((0#8 : Byte) ++ c.extractLsb' 0 8).toNat * 2 ^ 8 < 2 ^ 16 := by
    have := (c.extractLsb' 0 8).isLt
    rw [BitVec.toNat_append, BitVec.toNat_ofNat, Nat.zero_mod, Nat.zero_shiftLeft, Nat.zero_or]
    omega
  have hshift : ((0#8 : Byte) ++ c.extractLsb' 0 8) <<< 8 = c <<< 8 := by
    rw [shiftLeft_eight, shiftLeft_eight c, BitVec.extractLsb'_append_eq_right]
  rw [crc16_eq_crcShift poly v b (by decide), topBits_eight, xor_high_byte, crcShift_xor, crcShift_of_lt poly hlow,
    hshift, crcTable]

/-- The bit loop is the table form on the whole bytes, then the bit loop on the bits left over (R206). -/
theorem crc16_eq_crcBytes (n k : Nat) (c : Half) :
    crc16 poly v b (8 * n + k) c = crc16 poly v (b + 8 * n) k (crcBytes poly v b n c) := by
  induction n generalizing b c with
  | zero => simp [crcBytes]
  | succ n ih =>
    rw [show 8 * (n + 1) + k = 8 + (8 * n + k) by omega, crc16_add, crc16_byte, ih, crcBytes,
      show b + 8 + 8 * n = b + 8 * (n + 1) by omega]

/-- Over whole bytes alone the bit loop is the table form. -/
theorem crc16_whole_bytes (n : Nat) (c : Half) : crc16 poly v b (8 * n) c = crcBytes poly v b n c :=
  crc16_eq_crcBytes poly v b n 0 c

/-- The entry of a byte is the CRC of that byte with seed 0 (R206). -/
theorem crc16_byte_zero : crc16 poly v b 8 0 = crcTable poly (BitVec.ofNat 8 (bits v b 8)) := by
  rw [crc16_eq_crcShift poly v b (by decide), topBits_eight, crcTable]
  exact congrArg (crcShift poly 8) BitVec.zero_xor

end

/-- Settles O30: the general laws, and the five entries computed. -/
theorem crcBitLoopEqualsTheTable : Obligations.CrcBitLoopEqualsTheTable :=
  ⟨crc16_eq_crcBytes, crc16_byte_zero, by decide, by decide, by decide, by decide, by decide⟩

end Sys2Proof.Machine
end

section
/-! SUPPORT. The BitReader commands one by one: the register each one returns or moves, and the physical bound of R202 (R210 to R240). -/

namespace Sys2Proof.Machine

/-! ### The two ends of a BitReader command (R202, R701) -/

theorem State.complete_eq (s : State) : s.complete = { s with status := { s.status with code := .ok } } :=
  congrArg (fun st => { s with status := st }) s.status.ended_ok

theorem accessFault_eq (s : State) :
    accessFault s = .next { s with status := { code := .accessFault, fault := true, ill := s.status.ill } } :=
  congrArg (fun st => (.next { s with status := st } : Result)) s.status.ended_accessFault

/-- Settles O24, the fault side of each command's test. -/
theorem bitReaderFaultsPastMemory : Obligations.BitReaderFaultsPastMemory := by
  intro s faulted
  have hf : accessFault s = faulted := accessFault_eq s
  exact ⟨fun n hn h => (exec_brRead_fault hn h).trans hf, fun h => (exec_brSkip_fault h).trans hf,
    fun h => (exec_brSet_fault h).trans hf, fun seed h => (exec_brCrc_fault seed h).trans hf⟩

/-! ### The cursor: BR_READ, BR_SKIP, BR_SET, BR_MARK (R210 to R220, R230) -/

/-- A bit address of the memory, its end included, fits in `BR_POS` (R7, R40). -/
theorem toNat_ofNat_bitAddress {c : Config} (hc : c.wf) {b : Nat} (h : b ≤ 8 * c.memBytes) :
    (BitVec.ofNat 32 b).toNat = b := by
  obtain ⟨-, hmem, -⟩ := hc
  rw [BitVec.toNat_ofNat, Nat.mod_eq_of_lt (by omega)]

/-- A bit string of at most 32 bits in a register: the first bit read is the most significant (R201). -/
theorem getLsbD_ofNat_bits (v : BitView) (b : Nat) {n i : Nat} (hn : n ≤ 32) (hi : i < n) :
    (BitVec.ofNat 32 (bits v b n)).getLsbD (n - 1 - i) = v (b + i) := by
  rw [BitVec.getLsbD_ofNat, bits_testBit v b n i hi, decide_eq_true (by omega), Bool.true_and]

/-- The register is 0 above the string. -/
theorem getLsbD_ofNat_bits_above (v : BitView) (b : Nat) {n i : Nat} (hi : n ≤ i) :
    (BitVec.ofNat 32 (bits v b n)).getLsbD i = false := by
  have hlt : bits v b n < 2 ^ i := (bits_lt v b n).trans_le (Nat.pow_le_pow_right two_pos hi)
  rw [BitVec.getLsbD_ofNat, Nat.testBit_lt_two_pow hlt, Bool.and_false]

/-- Settles O22: the bits are those the cursor sees, and they are the number `bits` makes of them. -/
theorem brReadReturnsTheBitsMsbFirst : Obligations.BrReadReturnsTheBitsMsbFirst := by
  intro s n hc hn h
  refine ⟨s.cursorBit fieldPass, _, _, s.seen_cursorBit _, (exec_brRead hn h).trans (by rw [State.complete_eq]; rfl),
    toNat_ofNat_bitAddress hc h, fun i hi => ?_, fun i hi => ?_⟩
  · exact getLsbD_ofNat_bits _ _ hn hi
  · exact getLsbD_ofNat_bits_above _ _ hi

/-- Settles O25, the two sides of each command's test. -/
theorem brSkipAndBrSetMoveTheCursor : Obligations.BrSkipAndBrSetMoveTheCursor := by
  refine ⟨decode_encode (i := .brSkip) rfl, decode_encode (i := .brSet) rfl, fun s hc => ?_⟩
  obtain ⟨-, hskip, hset, -⟩ := bitReaderFaultsPastMemory s
  refine ⟨fun h => ⟨_, toNat_ofNat_bitAddress hc h, ?_⟩, hskip, fun h => ?_, hset⟩
  · rw [exec_brSkip h, State.complete_eq]; rfl
  · rw [exec_brSet h, State.complete_eq, State.loadCursor, BitVec.ofNat_toNat, BitVec.setWidth_eq]

/-- Settles O27: the command has no test in front. -/
theorem brMarkSavesTheCursor : Obligations.BrMarkSavesTheCursor :=
  ⟨decode_encode (i := .brMark) rfl, fun _ => congrArg Host.Outcome.next (State.complete_eq _)⟩

/-! ### The returned values: BR_POS, BR_DIST, BR_CRC (R225, R235, R240) -/

/-- A command that returns `v` in RESULT changes nothing else but the code. -/
theorem State.complete_setResult (s : State) (v : Word) :
    (s.setResult v).complete = { s with result := v, status := { s.status with code := .ok } } :=
  State.complete_eq _

/-- Settles O26: by the cursor bound the byte address fits in RESULT. -/
theorem brPosRoundsUp : Obligations.BrPosRoundsUp := by
  refine ⟨decode_encode (i := .brPos) rfl, fun s hs =>
    ⟨_, congrArg Host.Outcome.next (State.complete_setResult _ _), ?_⟩⟩
  have hpos : s.cursor ≤ 8 * s.cfg.memBytes := hs.cursors.1
  have hval := toNat_ofNat_bitAddress hs.cfg (show (s.cursor + 7) / 8 ≤ 8 * s.cfg.memBytes by omega)
  rw [hval, State.cursor]
  omega

/-- A difference of two numbers up to `2^31` is negative, read as a signed word, exactly as far as it is (R235). -/
theorem toInt_sub_of_lt {x y : Word} (hx : x.toNat ≤ 2 ^ 31) (hy : y.toNat ≤ 2 ^ 31) (h : x.toNat < y.toNat) :
    (x - y).toInt = (x.toNat : Int) - (y.toNat : Int) := by
  have hval : (x - y).toNat = 2 ^ 32 - y.toNat + x.toNat := by
    rw [BitVec.toNat_sub, Nat.mod_eq_of_lt (by omega)]
  rw [BitVec.toInt_eq_toNat_cond, hval, if_neg (by omega)]
  omega

/-- Settles O28: the cursor bound keeps both positions at `2^31` or below. -/
theorem brDistIsTheSignedDistance : Obligations.BrDistIsTheSignedDistance := by
  refine ⟨decode_encode (i := .brDist) rfl, fun s hs =>
    ⟨_, congrArg Host.Outcome.next (State.complete_setResult _ _), ?_, fun h => ?_, fun h => ?_⟩⟩
  · rw [BitVec.toNat_sub, Nat.add_comm]
  · exact BitVec.toNat_sub_of_le h
  · obtain ⟨hpos, hmark⟩ := hs.cursors
    obtain ⟨-, hmem, -⟩ := hs.cfg
    rw [Config.bitLimit] at hpos hmark
    exact toInt_sub_of_lt (by omega) (by omega) h

/-- Settles O29: the bits are those the cursor sees; over whole bytes the loop is the table form. -/
theorem brCrcReplaysTheBits : Obligations.BrCrcReplaysTheBits := by
  intro s seed h
  refine ⟨s.cursorBit crcPass, _, s.seen_cursorBit _, (exec_brCrc seed h).trans
    (congrArg Host.Outcome.next (State.complete_setResult _ _)), rfl, fun h0 => ?_, fun k hk => ?_⟩
  · rw [h0]; rfl
  · rw [hk, crc16_whole_bytes]

end Sys2Proof.Machine
end

section
/-! SUPPORT. Which command writes which register (the 'Writes' lines of the commands' rules), by the way each command ends; and the BitReader apart from the other units (R200). -/

namespace Sys2Proof.Machine

/-! ### The registers a command leaves as they were -/

section
variable {s t : State} {i : Instr}

/-- SC_NEXT writes the header registers, the cursor, which it loads anew, and its own registers but for the window (R420). -/
theorem NextEnded.frame (h : NextEnded s t) :
    t = { s with sc := { t.sc with bufStart := s.sc.bufStart, bufEnd := s.sc.bufEnd }, hdr := t.hdr,
                 br := { s.br with pos := t.br.pos }, stale := t.stale, status := t.status } := by
  cases h <;> rfl

/-- SM_PARSE writes its own registers and STATUS (R500). -/
theorem Ended.smParse_frame (h : Ended s .smParse t) : t = { s with sm := t.sm, status := t.status } := by
  cases h <;> rfl

theorem Ended.sm (h : Ended s i t) (hi : i ≠ .smParse) : t.sm = s.sm := by
  cases h with
  | smParse | smParseMalformed | smParseFault => exact absurd rfl hi
  | scNext h => rw [h.frame]
  | _ => rfl

theorem Ended.mark (h : Ended s i t) (hi : i ≠ .brMark) : t.br.mark = s.br.mark := by
  cases h with
  | brMark => exact absurd rfl hi
  | scNext h => rw [h.frame]
  | _ => rfl

theorem Ended.pos (h : Ended s i t) (hread : ∀ n, i ≠ .brRead n) (hskip : i ≠ .brSkip) (hset : i ≠ .brSet)
    (hdecode : i ≠ .fhDecode) (hnext : i ≠ .scNext) : t.br.pos = s.br.pos := by
  cases h with
  | brRead => exact absurd rfl (hread _)
  | brSkip => exact absurd rfl hskip
  | brSet => exact absurd rfl hset
  | fhDecode => exact absurd rfl hdecode
  | scNext => exact absurd rfl hnext
  | _ => rfl

theorem Ended.hdr (h : Ended s i t) (hdecode : i ≠ .fhDecode) (hnext : i ≠ .scNext) : t.hdr = s.hdr := by
  cases h with
  | fhDecode => exact absurd rfl hdecode
  | scNext => exact absurd rfl hnext
  | _ => rfl

theorem Ended.bufStart (h : Ended s i t) (hi : i ≠ .scSetbuf) : t.sc.bufStart = s.sc.bufStart := by
  cases h with
  | scSetbuf => exact absurd rfl hi
  | scNext h => rw [h.frame]
  | _ => rfl

theorem Ended.bufEnd (h : Ended s i t) (hsetbuf : i ≠ .scSetbuf) (hextend : i ≠ .scExtend) :
    t.sc.bufEnd = s.sc.bufEnd := by
  cases h with
  | scSetbuf => exact absurd rfl hsetbuf
  | scExtend => exact absurd rfl hextend
  | scNext h => rw [h.frame]
  | _ => rfl

/-- The two stream pointers and the sync state. -/
theorem Ended.pointers (h : Ended s i t) (hsetbuf : i ≠ .scSetbuf) (hnext : i ≠ .scNext) :
    t.sc.thisPtr = s.sc.thisPtr ∧ t.sc.nextPtr = s.sc.nextPtr ∧ t.sc.sync = s.sc.sync := by
  cases h with
  | scSetbuf => exact absurd rfl hsetbuf
  | scNext => exact absurd rfl hnext
  | _ => exact ⟨rfl, rfl, rfl⟩

theorem Ended.skip (h : Ended s i t) (hsetskip : i ≠ .scSetskip) (hnext : i ≠ .scNext) : t.sc.skip = s.sc.skip := by
  cases h with
  | scSetskip => exact absurd rfl hsetskip
  | scNext => exact absurd rfl hnext
  | _ => rfl

theorem Ended.freeRate (h : Ended s i t) (hnext : i ≠ .scNext) : t.sc.freeRate = s.sc.freeRate := by
  cases h with
  | scNext => exact absurd rfl hnext
  | _ => rfl

/-- The whole StreamCursor, register by register. -/
theorem Ended.sc (h : Ended s i t) (hsetbuf : i ≠ .scSetbuf) (hextend : i ≠ .scExtend) (hsetskip : i ≠ .scSetskip)
    (hnext : i ≠ .scNext) : t.sc = s.sc := by
  cases h with
  | scSetbuf => exact absurd rfl hsetbuf
  | scExtend => exact absurd rfl hextend
  | scSetskip => exact absurd rfl hsetskip
  | scNext => exact absurd rfl hnext
  | _ => rfl

/-- What the host last read and the draw counter are no part of the engine (logs 12, 13). -/
theorem Ended.lastRead_draws (h : Ended s i t) : t.lastRead = s.lastRead ∧ t.draws = s.draws := by
  cases h with
  | scNext h => exact ⟨by rw [h.frame], by rw [h.frame]⟩
  | _ => exact ⟨rfl, rfl⟩

end

/-- Settles O19, register by register, by the way each command ends. -/
theorem registersBelongToTheirUnits : Obligations.RegistersBelongToTheirUnits := by
  intro i s t hx
  have h := ended_of_exec hx
  have hresult (hread : ∀ n, i ≠ .brRead n) (hpos : i ≠ .brPos) (hdist : i ≠ .brDist) (hcrc : ∀ x, i ≠ .brCrc x)
      (hlen : i ≠ .fhFramelen) : t.result = s.result :=
    h.result.resolve_right fun hv => not_returnsValue.2 ⟨hread, hpos, hdist, hcrc, hlen⟩ hv.1
  obtain ⟨harg0, harg1, hmem, hepoch⟩ := h.operands
  obtain ⟨hlast, hdraws⟩ := h.lastRead_draws
  exact ⟨h.sm, fun hi => (hi ▸ h).smParse_frame, h.mark, h.pos, hresult, h.hdr, h.sc, h.bufStart, h.bufEnd, h.pointers,
    h.skip, fun hi => ⟨h.freeRate hi, h.lastError_of_ne_scNext hi⟩, harg0, harg1, hmem, h.cfg, h.host, hlast, hdraws,
    hepoch⟩

/-! ### The BitReader reads no register of the other units (R200) -/

/-- The commands of the BitReader (R200). -/
def BitReaderCommand (i : Instr) : Prop :=
  i = .brSet ∨ (∃ n, i = .brRead n) ∨ i = .brSkip ∨ i = .brPos ∨ i = .brMark ∨ i = .brDist ∨ (∃ x, i = .brCrc x)

theorem BitReaderCommand.ne_others {i : Instr} (hi : BitReaderCommand i) :
    i ≠ .scSetbuf ∧ i ≠ .scExtend ∧ i ≠ .scSetskip ∧ i ≠ .scNext ∧ i ≠ .fhDecode ∧ i ≠ .smParse := by
  rcases hi with rfl | ⟨n, rfl⟩ | rfl | rfl | rfl | rfl | ⟨x, rfl⟩ <;> simp

/-- `s` with other values in the StreamCursor, FrameHeader and SeekMetadata registers. -/
def State.withUnits (s : State) (sc : StreamCursor) (hdr : HeaderRegs) (sm : SeekRegs) : State :=
  { s with sc := sc, hdr := hdr, sm := sm }

section
variable (sc : StreamCursor) (hdr : HeaderRegs) (sm : SeekRegs)

/-- Two answers with the same test in front agree but for those registers when both sides do. -/
theorem withUnits_ite {c : Prop} [Decidable c] {x y x' y' : Result} {t : State}
    (hx : (if c then x else y) = .next t) (hpos : x = .next t → x' = .next (t.withUnits sc hdr sm))
    (hneg : y = .next t → y' = .next (t.withUnits sc hdr sm)) :
    (if c then x' else y') = .next (t.withUnits sc hdr sm) := by
  split at hx
  case isTrue h => rw [if_pos h, hpos hx]
  case isFalse h => rw [if_neg h, hneg hx]

/-- A BitReader command with other values in those registers does the same, and keeps the values. -/
theorem exec_withUnits {i : Instr} {s t : State} (hi : BitReaderCommand i) (hx : exec i s = .next t) :
    exec i (s.withUnits sc hdr sm) = .next (t.withUnits sc hdr sm) := by
  rcases hi with rfl | ⟨n, rfl⟩ | rfl | rfl | rfl | rfl | ⟨x, rfl⟩
  · refine withUnits_ite sc hdr sm hx (fun ht => ?_) fun ht => ?_ <;> cases ht <;> rfl
  · refine withUnits_ite sc hdr sm hx (fun ht => ?_) fun hx =>
      withUnits_ite sc hdr sm hx (fun ht => ?_) fun ht => ?_ <;> cases ht <;> rfl
  · refine withUnits_ite sc hdr sm hx (fun ht => ?_) fun ht => ?_ <;> cases ht <;> rfl
  · cases hx; rfl
  · cases hx; rfl
  · cases hx; rfl
  · refine withUnits_ite sc hdr sm hx (fun ht => ?_) fun ht => ?_ <;> cases ht <;> rfl

end

/-- Settles O31: what is not written is `Ended`'s, what is not read is `exec_withUnits`. -/
theorem bitReaderIsApartFromTheOtherUnits : Obligations.BitReaderIsApartFromTheOtherUnits := by
  intro i s t sc hdr sm hi hx
  have h := ended_of_exec hx
  obtain ⟨hsetbuf, hextend, hsetskip, hnext, hdecode, hparse⟩ := BitReaderCommand.ne_others hi
  exact ⟨h.sc hsetbuf hextend hsetskip hnext, h.hdr hdecode hnext, h.sm hparse, exec_withUnits sc hdr sm hi hx⟩

end Sys2Proof.Machine
end

section
/-! SUPPORT. The FrameHeader commands: what FH_DECODE writes and when it faults, what FH_FRAMELEN's operands stand for, and which commands write the header registers (R330 to R335, R427). -/

namespace Sys2Proof.Machine

/-! ### What a command does to the header registers (R55) -/

section
variable {s t : State}

theorem HeaderError.code_ne_ok (e : HeaderError) : e.code ≠ .ok := by
  cases e <;> decide

/-- A header error sets neither sticky bit (R701). -/
theorem HeaderError.ended_code (e : HeaderError) (st : Status) : st.ended e.code = { st with code := e.code } := by
  cases e <;> exact st.ended_plain (by decide) (by decide)

/-- The header registers were written with VALID set by a command that ended OK, or were left as they were by one that did not. -/
def HeaderWrittenOnOk (s t : State) : Prop :=
  t.status.code = .ok ∧ t.hdr.fields.getLsbD 31 = true ∨ t.status.code ≠ .ok ∧ t.hdr = s.hdr

/-- Only the commit of SC_NEXT writes the header registers (R427). -/
theorem NextEnded.hdr (h : NextEnded s t) : HeaderWrittenOnOk s t := by
  cases h with
  | @committed p len r h cache => exact .inl ⟨rfl, h.fieldsWord_valid⟩
  | @headerError p e => exact .inr ⟨e.code_ne_ok, rfl⟩
  | _ => exact .inr ⟨nofun, rfl⟩

/-- FH_DECODE writes them when the decode is OK (R330). -/
theorem Ended.fhDecode_hdr (h : Ended s .fhDecode t) : HeaderWrittenOnOk s t := by
  cases h with
  | @fhDecode h len => exact .inl ⟨rfl, h.fieldsWord_valid⟩
  | @fhDecodeError e => exact .inr ⟨e.code_ne_ok, rfl⟩
  | fhDecodeFault => exact .inr ⟨nofun, rfl⟩

end

/-- Settles O18: the two commands by the way they end, every other command by `Ended.hdr`. -/
theorem headerRegistersChangeOnlyOnASuccessfulDecode : Obligations.HeaderRegistersChangeOnlyOnASuccessfulDecode := by
  intro i s t hx
  have h := ended_of_exec hx
  have hwritten (hi : i = .fhDecode ∨ i = .scNext) : HeaderWrittenOnOk s t := by
    rcases hi with rfl | rfl
    · exact h.fhDecode_hdr
    · exact (nextEnded_of_exec hx).hdr
  split
  case isTrue hok => exact ((hwritten hok.1).resolve_right fun hbad => hbad.1 hok.2).2
  case isFalse hbad =>
    by_cases hi : i = .fhDecode ∨ i = .scNext
    · exact ((hwritten hi).resolve_left fun hok => hbad ⟨hi, hok.1⟩).2
    · obtain ⟨hdecode, hnext⟩ := not_or.1 hi
      exact h.hdr hdecode hnext

/-! ### FH_DECODE by the result of the decode (R330, R331) -/

/-- `HDR_FIELDS` as one number (R55). -/
theorem Header.fieldsWord_eq_ofNat (h : Header) :
    h.fieldsWord = BitVec.ofNat 32 (h.layer.num + 2 ^ 2 * h.lsf.toNat + 2 ^ 3 * h.mpeg25.toNat + 2 ^ 4 * h.prot.toNat
      + 2 ^ 5 * h.brIdx.toNat + 2 ^ 9 * h.srIdx.toNat + 2 ^ 11 * h.padding.toNat + 2 ^ 12 * h.priv.toNat
      + 2 ^ 13 * h.mode.toNat + 2 ^ 15 * h.modeExt.toNat + 2 ^ 17 * h.copyright.toNat
      + 2 ^ 18 * h.original.toNat + 2 ^ 19 * h.emphasis.toNat + 2 ^ 21 * h.channels.toNat + 2 ^ 31) := by
  rw [← h.fieldsWord_toNat, BitVec.ofNat_toNat, BitVec.setWidth_eq]

/-- `HDR_CRC` as one number: the check word above the target (R57). -/
theorem halves_eq_ofNat (x y : Half) : x ++ y = BitVec.ofNat 32 (2 ^ 16 * x.toNat + y.toNat) := by
  refine BitVec.eq_of_toNat_eq ?_
  rw [BitVec.toNat_append, ← Nat.shiftLeft_add_eq_or_of_lt y.isLt, Nat.shiftLeft_eq, BitVec.toNat_ofNat]
  omega

section
variable {s : State}

theorem exec_fhDecode_ok {h : Header} {len : Nat} (hd : s.decodeAtCursor = .ok h len) :
    exec .fhDecode s = .next ((s.writeHdr h h.bitrate (if h.bitrate = 0 then 0 else h.length h.bitrate)).moveCursor
      (s.cursor + len)).complete := by
  rw [exec, execFhDecode, hd]

theorem exec_fhDecode_error {e : HeaderError} (hd : s.decodeAtCursor = .err e) :
    exec .fhDecode s = .next { s with status := { s.status with code := e.code } } := by
  rw [exec, execFhDecode, hd, ← e.ended_code]
  rfl

theorem exec_fhDecode_fault (hd : s.decodeAtCursor = .fault) : exec .fhDecode s = accessFault s := by
  rw [exec, execFhDecode, hd]

/-- FH_DECODE ends AccessFault exactly when its decode does. -/
theorem exec_fhDecode_accessFault_iff {t : State} (hx : exec .fhDecode s = .next t) :
    t.status.code = .accessFault ↔ s.decodeAtCursor = .fault := by
  cases ended_of_exec hx with
  | fhDecode hd => simp [hd]
  | @fhDecodeError e hd => cases e <;> simp [hd, HeaderError.code]
  | fhDecodeFault hd => simp [hd]

end

/-- Settles O34: the fields and the bits the CRC replays are those two passes of the command see through the cursor. -/
theorem fhDecodeWritesTheHeaderRegisters : Obligations.FhDecodeWritesTheHeaderRegisters := by
  intro s
  refine ⟨s.cursorBit fieldPass, s.cursorBit crcPass, s.seen_cursorBit _, s.seen_cursorBit _, fun h len hd => ?_,
    exec_fhDecode_error, exec_fhDecode_error, exec_fhDecode_error,
    fun hd => (exec_fhDecode_fault hd).trans (accessFault_eq s)⟩
  rw [exec_fhDecode_ok hd, State.complete_eq, ← halves_eq_ofNat, ← h.fieldsWord_eq_ofNat]
  rfl

/-- Settles O35: the decode ends Fault exactly at a read that does not fit, and only then does the command. -/
theorem fhDecodeFailureChangesOnlyStatus : Obligations.FhDecodeFailureChangesOnlyStatus := by
  intro s
  have hfault : exec .fhDecode s = .next { s with status := { code := .accessFault, fault := true, ill := s.status.ill } }
      ↔ s.decodeAtCursor = .fault :=
    ⟨fun hx => (exec_fhDecode_accessFault_iff hx).1 rfl, fun hd => (exec_fhDecode_fault hd).trans (accessFault_eq s)⟩
  refine ⟨fun t hx hne => ?_, fun h13 => ?_, ⟨s.cursorBit fieldPass, s.seen_cursorBit _, ?_⟩, fun hfit => ⟨?_, ?_⟩⟩
  · cases ended_of_exec hx with
    | fhDecode => exact absurd rfl hne
    | @fhDecodeError e => exact ⟨rfl, by cases e <;> simp [HeaderError.code]⟩
    | fhDecodeFault => exact ⟨rfl, by simp⟩
  · exact hfault.2 ((decodeHeader_fault_iff ..).2 (.inl h13))
  · intro w short badVersion isProtected
    have hprot : isProtected ↔ s.cursorBit fieldPass (s.cursor + 15) = false := by
      simp only [isProtected, w, headerWord_prot, Bool.toNat_eq_zero]
      rfl
    have hver : badVersion ↔ _ := badVersion_iff
    rw [hfault, hprot, hver, headerWord_layer, headerWord_brIdx, headerWord_srIdx]
    exact decodeHeader_fault_iff ..
  · intro t hx hcode
    exact decodeHeader_ne_fault _ _ hfit ((exec_fhDecode_accessFault_iff hx).1 hcode)
  · intro w hstale hver hlf hbr hsr
    obtain ⟨h, hd, -⟩ := decodeReadsTheHeaderWord s.cfg s.bitAt s.br.pos.toNat hver hlf hbr hsr
      (by split <;> omega)
    have hcursor : s.decodeAtCursor = decodeHeader s.cfg s.bitAt s.bitAt s.br.pos.toNat := by
      rw [State.decodeAtCursor, State.cursorBit_of_no_stale hstale, State.cursorBit_of_no_stale hstale]
      rfl
    exact ⟨_, exec_fhDecode_ok (hcursor.trans hd), rfl⟩

/-! ### FH_FRAMELEN (R335, R136) -/

section
variable (a : Word)

theorem framelenArgs_samplerate : (framelenArgs a).samplerate = a.toNat % 2 ^ 16 := by
  simp [framelenArgs]

theorem framelenArgs_layer : (framelenArgs a).layer = Layer.ofNum (a.toNat / 2 ^ 16 % 4) := by
  simp [framelenArgs, Nat.shiftRight_eq_div_pow]

theorem framelenArgs_lsf : (framelenArgs a).lsf.toNat = a.toNat / 2 ^ 18 % 2 := by
  simp only [framelenArgs, BitVec.getLsbD, Nat.toNat_testBit]

theorem framelenArgs_padding : (framelenArgs a).padding.toNat = a.toNat / 2 ^ 19 % 2 := by
  simp only [framelenArgs, BitVec.getLsbD, Nat.toNat_testBit]

theorem framelenArgs_reserved : (framelenArgs a).reserved ≠ 0 ↔ a.toNat / 2 ^ 20 ≠ 0 := by
  rw [← BitVec.toNat_ne_iff_ne, framelenArgs, BitVec.extractLsb'_toNat, Nat.shiftRight_eq_div_pow]
  simp
  omega

end

/-- A layer number of two bits names a layer, unless it is 0 (R136). -/
theorem Layer.ofNum_cases {n : Nat} (h : n < 4) : (n = 0 ∧ Layer.ofNum n = none) ∨ ∃ l, l.num = n ∧ Layer.ofNum n = some l := by
  interval_cases n
  · exact .inl ⟨rfl, rfl⟩
  · exact .inr ⟨.one, rfl, rfl⟩
  · exact .inr ⟨.two, rfl, rfl⟩
  · exact .inr ⟨.three, rfl, rfl⟩

/-- The formula of R320 on the numbers the operands hold. -/
theorem framelen_eq (l : Layer) (lsf : Bool) (br sr : Nat) (pad : Bool) :
    framelen l lsf br sr pad =
      if l.num = 1 then (12 * br / sr + pad.toNat) * 4
      else (if lsf.toNat = 1 ∧ l.num = 3 then 72 else 144) * br / sr + pad.toNat := by
  cases l <;> cases lsf <;> rfl

theorem illegalCommand_eq (s : State) :
    illegalCommand s = .next { s with status := { code := .illegalCommand, fault := s.status.fault, ill := true } } :=
  congrArg (fun st => (.next { s with status := st } : Result)) s.status.ended_illegalCommand

section
variable {s : State}

theorem exec_fhFramelen_noLayer (hl : (framelenArgs s.arg1).layer = none) :
    exec .fhFramelen s = illegalCommand s := by
  simp only [exec, execFhFramelen, hl]

/-- In a layer, FH_FRAMELEN's tests in one (R335). -/
theorem exec_fhFramelen_of_layer {l : Layer} (hl : (framelenArgs s.arg1).layer = some l) :
    exec .fhFramelen s =
      if (framelenArgs s.arg1).reserved ≠ 0 ∨ (framelenArgs s.arg1).samplerate = 0 ∨
        2 ^ s.cfg.regWidth ≤ s.framelenOf l then illegalCommand s
      else .next (s.setResult (BitVec.ofNat 32 (s.framelenOf l))).complete := by
  simp only [exec, execFhFramelen, hl, ← or_assoc, ite_or]
  rfl

end

/-- Settles O36: the operands unpacked, by whether the layer field names a layer. -/
theorem fhFramelenEvaluatesTheFormula : Obligations.FhFramelenEvaluatesTheFormula := by
  refine ⟨decode_encode (i := .fhFramelen) rfl, ?_⟩
  intro s hc br sr layer lsf pad slots n
  obtain ⟨-, -, -, hreg, -⟩ := hc
  rw [← illegalCommand_eq]
  rcases Layer.ofNum_cases (show layer < 4 from Nat.mod_lt _ (by decide)) with ⟨h0, hl⟩ | ⟨l, hnum, hl⟩
  · rw [exec_fhFramelen_noLayer ((framelenArgs_layer _).trans hl), if_pos (.inr (.inl h0))]
  · have hlayer : layer ≠ 0 := hnum ▸ by cases l <;> decide
    have hn : s.framelenOf l = n := by
      rw [State.framelenOf, framelen_eq, framelenArgs_samplerate, framelenArgs_lsf, framelenArgs_padding, hnum]
      rfl
    rw [exec_fhFramelen_of_layer ((framelenArgs_layer _).trans hl), hn, hreg, framelenArgs_samplerate]
    simp only [framelenArgs_reserved, hlayer, false_or, State.complete_setResult]
    rfl

end Sys2Proof.Machine
end

section
/-! SUPPORT. The frame-length formula: its range over the tables of this spec (R321), and its inverse (R326). -/

namespace Sys2Proof.Machine

/-! ### The range over the tables (R310, R311, R321) -/

/-- A table rate that is not free format: from 32 kb/s up to 448 kb/s, but under LSF up to 256 kb/s in Layer I, and from 8 to 160 kb/s in the others (R310). -/
theorem tableBitrate_range (l : Layer) (lsf : Bool) {b : Nat} (h1 : 1 ≤ b) (h14 : b ≤ 14) :
    let br := tableBitrate (specConfig 4096) l lsf b
    (lsf = false → 32000 ≤ br ∧ br ≤ 448000) ∧ (lsf = true → l = .one → 32000 ≤ br ∧ br ≤ 256000) ∧
      (lsf = true → l ≠ .one → 8000 ≤ br ∧ br ≤ 160000) := by
  interval_cases b <;> cases l <;> cases lsf <;> decide

/-- The other end of `tableSamplerate_le`: at least 32000 Hz, but under LSF at least 8000 Hz (R311). -/
theorem tableSamplerate_ge (lsf mpeg25 : Bool) {r : Nat} (hr : r ≤ 2) :
    let sr := tableSamplerate (specConfig 4096) r lsf mpeg25
    8000 ≤ sr ∧ (lsf = false → 32000 ≤ sr) := by
  interval_cases r <;> cases lsf <;> cases mpeg25 <;> decide

/-- A table rate against a sample rate: between a third of it and 32 times it, with closer bounds by layer. -/
theorem table_ratio (l : Layer) (lsf mpeg25 : Bool) {b r : Nat} (h1 : 1 ≤ b) (h14 : b ≤ 14) (hr : r ≤ 2) :
    let br := tableBitrate (specConfig 4096) l lsf b
    let sr := tableSamplerate (specConfig 4096) r lsf mpeg25
    sr ≤ 3 * br ∧ br ≤ 32 * sr ∧ (l = .one → 2 * sr ≤ 3 * br) ∧ (l ≠ .one → br ≤ 20 * sr) := by
  obtain ⟨hmpeg1, hone, hother⟩ := tableBitrate_range l lsf h1 h14
  obtain ⟨-, hle, hleLsf⟩ := tableSamplerate_le (Nat.lt_succ_of_le hr) lsf mpeg25 4096
  obtain ⟨hge, hgeMpeg1⟩ := tableSamplerate_ge lsf mpeg25 hr
  cases lsf with
  | false =>
    have := hmpeg1 rfl
    have := hgeMpeg1 rfl
    refine ⟨?_, ?_, fun _ => ?_, fun _ => ?_⟩ <;> omega
  | true =>
    have := hleLsf rfl
    by_cases hl : l = .one
    · have := hone rfl hl
      exact ⟨by omega, by omega, fun _ => by omega, absurd hl⟩
    · have := hother rfl hl
      exact ⟨by omega, by omega, fun h => absurd h hl, fun _ => by omega⟩

/-- `slots` times such a ratio, rounded down. -/
theorem slots_div_range {slots lo hi br sr : Nat} (h0 : 0 < sr) (hlo : lo * sr ≤ slots * br)
    (hhi : slots * br ≤ sr * hi) : lo ≤ slots * br / sr ∧ slots * br / sr ≤ hi :=
  ⟨(Nat.le_div_iff_mul_le h0).2 hlo, Nat.div_le_of_le_mul hhi⟩

theorem slotsOf_cases (l : Layer) (lsf : Bool) : slotsOf l lsf = 72 ∨ slotsOf l lsf = 144 :=
  ite_eq_or_eq ..

theorem framelen_of_ne_one {l : Layer} (hl : l ≠ .one) (lsf : Bool) (br sr : Nat) (pad : Bool) :
    framelen l lsf br sr pad = slotsOf l lsf * br / sr + pad.toNat := by
  cases l with
  | one => exact absurd rfl hl
  | two => rfl
  | three => rfl

/-- The bounds of R321, from those of the ratio: padding adds one slot. -/
theorem framelen_range {l : Layer} {br sr : Nat} (h0 : 0 < sr) (hlo : sr ≤ 3 * br) (hhi : br ≤ 32 * sr)
    (hone : l = .one → 2 * sr ≤ 3 * br) (hother : l ≠ .one → br ≤ 20 * sr) (lsf pad : Bool) :
    24 ≤ framelen l lsf br sr pad ∧ framelen l lsf br sr pad ≤ 2881 ∧
      (l = .one → 32 ≤ framelen l lsf br sr pad ∧ framelen l lsf br sr pad ≤ 1540) := by
  have hpad := pad.toNat_le
  by_cases hl : l = .one
  · subst hl
    have := hone rfl
    have hdiv : 8 ≤ 12 * br / sr ∧ 12 * br / sr ≤ 384 := slots_div_range h0 (by omega) (by omega)
    simp only [framelen]
    omega
  · have := hother hl
    have hdiv : 24 ≤ slotsOf l lsf * br / sr ∧ slotsOf l lsf * br / sr ≤ 2880 := by
      rcases slotsOf_cases l lsf with hslots | hslots <;> rw [hslots] <;>
        exact slots_div_range h0 (by omega) (by omega)
    rw [framelen_of_ne_one hl]
    exact ⟨by omega, by omega, fun h => absurd h hl⟩

/-- Settles O37: `framelen_range` at the ratio of the table entries, and `eight_le_framelen`. -/
theorem tableFrameLengthsAreBounded : Obligations.TableFrameLengthsAreBounded := by
  refine ⟨fun l lsf mpeg25 pad b r h1 h14 hr _ => ?_, fun l lsf mpeg25 pad r k hr hk => ?_⟩ <;>
    obtain ⟨h0, hle, hleLsf⟩ := tableSamplerate_le (Nat.lt_succ_of_le hr) lsf mpeg25 4096
  · obtain ⟨hlo, hhi, hone, hother⟩ := table_ratio l lsf mpeg25 h1 h14 hr
    exact framelen_range h0 hlo hhi hone hother lsf pad
  · exact eight_le_framelen (by omega) h0 hle hleLsf

/-! ### The inverse (R326) -/

/-- The recovered rate is the smallest one whose frame is long enough: it is a rounded-up quotient, and the frame length is the rounded-down one. -/
theorem rateFromDistance_le_iff (l : Layer) (lsf : Bool) {sr : Nat} (hsr : 0 < sr) (pad : Bool) (d j : Nat) :
    rateFromDistance l lsf sr pad d ≤ j ↔ d ≤ framelen l lsf (j * 1000) sr pad := by
  have round {c a : Nat} (hc : 0 < c) : (a + c - 1) / c ≤ j ↔ a ≤ c * j := by
    rw [← Nat.ceilDiv_eq_add_pred_div, ceilDiv_le_iff_le_mul hc]
  have other (slots : Nat) (hs : 0 < slots) : (sr * (d - pad.toNat) + slots * 1000 - 1) / (slots * 1000) ≤ j ↔
      d ≤ slots * (j * 1000) / sr + pad.toNat := by
    rw [round (by omega), ← tsub_le_iff_right, Nat.le_div_iff_mul_le hsr, Nat.mul_comm sr, Nat.mul_assoc,
      Nat.mul_comm 1000]
  have hslots : 0 < slotsOf l lsf := by unfold slotsOf; split <;> decide
  cases l with
  | one =>
    have hd : (d + 3) / 4 * 4 - 4 * pad.toNat = 4 * ((d + 3) / 4 - pad.toNat) := by omega
    have hlen : d ≤ framelen .one lsf (j * 1000) sr pad ↔ (d + 3) / 4 - pad.toNat ≤ 12 * (j * 1000) / sr := by
      simp only [framelen]
      generalize 12 * (j * 1000) / sr = q
      omega
    change (_ + 48000 - 1) / 48000 ≤ j ↔ _
    rw [hlen, Nat.le_div_iff_mul_le hsr, hd, round (by decide), Nat.mul_comm sr,
      Nat.mul_assoc]
    omega
  | two => exact other _ hslots
  | three => exact other _ hslots

/-- A higher rate gives no shorter frame (R320). -/
theorem framelen_mono (l : Layer) (lsf pad : Bool) (sr : Nat) {br br' : Nat} (h : br ≤ br') :
    framelen l lsf br sr pad ≤ framelen l lsf br' sr pad := by
  have hdiv (slots : Nat) : slots * br / sr ≤ slots * br' / sr := Nat.div_le_div_right (Nat.mul_le_mul_left _ h)
  cases l with
  | one => exact Nat.mul_le_mul_right _ (Nat.add_le_add_right (hdiv 12) _)
  | two => exact Nat.add_le_add_right (hdiv _) _
  | three => exact Nat.add_le_add_right (hdiv _) _

/-- Settles O38, from `rateFromDistance_le_iff`. -/
theorem rateFromDistanceInvertsFramelen : Obligations.RateFromDistanceInvertsFramelen := by
  intro l lsf pad sr d hsr _ k
  have hk (j : Nat) : k ≤ j ↔ d ≤ framelen l lsf (j * 1000) sr pad := rateFromDistance_le_iff l lsf hsr pad d j
  refine ⟨(hk k).1 le_rfl, fun j hj => not_le.1 fun hle => hj.not_ge ((hk j).2 hle), fun j hj => ?_⟩
  have hle : framelen l lsf (k * 1000) sr pad ≤ framelen l lsf (j * 1000) sr pad :=
    framelen_mono l lsf pad sr (Nat.mul_le_mul_right _ ((hk j).2 hj.ge))
  exact le_antisymm (hle.trans_eq hj) ((hk k).1 le_rfl)

end Sys2Proof.Machine
end

section
/-! SUPPORT. The FreeBitrateProbe without a candidate (R325, R425). -/

namespace Sys2Proof.Machine

/-- SC_NEXT ends with a code other than the two sticky ones: only the code is recorded (R49, R420). -/
theorem State.finish_plain (s : State) {c : Code} (hf : c ≠ .accessFault) (hi : c ≠ .illegalCommand) :
    s.finish c = { s with sc := { s.sc with lastError := c }, status := { s.status with code := c } } :=
  congrArg (fun st => { s with sc := { s.sc with lastError := c }, status := st }) (s.status.ended_plain hf hi)

/-- A probe with no matching candidate that has a full guard finds nothing (R325). -/
theorem State.probe_of_no_hit {s : State} {p e : Nat} {h : Header} (hg : 2 ≤ s.cfg.guardBytes)
    (hno : ∀ q, (e + 7) / 8 ≤ q → q + s.cfg.guardBytes ≤ s.sc.bufEnd.toNat →
      (s.syncAt q && s.peekMatches h q) = false) : s.probe p h e = .needMoreData := by
  rcases State.probeFrom_cases hg p h ((e + 7) / 8) (s.sc.bufEnd.toNat + 1) with hwait | ⟨q, hq, hguard, hsync, hpeek, -⟩
  · exact hwait
  · have := hno q hq hguard
    rw [hsync, hpeek] at this
    cases this

/-- A free-format header whose cached rate may not be used has the rate the probe gives (R425). -/
theorem State.resolve_of_mustProbe {s : State} {p len : Nat} {h : Header} (hb : h.bitrate = 0)
    (hm : s.MustProbe h.layer) (hp : s.probe p h (8 * p + len) = .needMoreData) :
    s.resolve p h len = .needMoreData := by
  rw [State.resolve, if_neg (not_not.2 hb), State.cacheUsable_of_mustProbe hm, if_neg nofun, hp]

/-- Settles O47: in the state the skip phase leaves, the probe finds nothing. -/
theorem probeWithoutACandidateNeedsMoreData : Obligations.ProbeWithoutACandidateNeedsMoreData := by
  intro s p h len hs hsync hd hb hm hno
  have hg : 2 ≤ s.applySkip.cfg.guardBytes := by
    obtain ⟨-, -, hguard, -⟩ := hs.cfg
    exact (by decide : 2 ≤ 6).trans hguard
  have hr : s.applySkip.resolve p h len = .needMoreData :=
    State.resolve_of_mustProbe (s := s.applySkip) hb hm (State.probe_of_no_hit (s := s.applySkip) hg hno)
  rw [exec_scNext_of_syncPoint hs.cfg hs.pointers hsync, hd]
  dsimp only
  rw [State.advance, hr, State.finish_plain (c := .needMoreData) _ (by decide) (by decide)]
  rfl

end Sys2Proof.Machine
end

section
/-! SUPPORT. SC_NEXT from a state whose pointers are in order, by what it does to the pointers and the cached rate, and the invariant that every step keeps (R420 to R430, R440). -/

namespace Sys2Proof.Machine

/-! ### What SC_NEXT does (R430) -/

/-- `SC_FREERATE` may hold `v` after an SC_NEXT: the value it had, or that of a probed rate no smaller than R327 accepts (R425). -/
def State.MayCache (s : State) (v : Word) : Prop :=
  v = s.sc.freeRate ∨ ∃ k, s.cfg.freeMinKbps ≤ k ∧ v = s.rateWord (k * 1000)

/-- The rows of R430 from a state with R440's pointer chain, by what they do: wait with the skip pending, wait at `p`, demote at `p`, or commit the frame at `p`. -/
inductive NextOutcome (s : State) : State → Prop
  | skipWaits (hb : s.sc.bufEnd.toNat < s.base) : NextOutcome s (s.finish .needMoreData)
  | waits {p : Nat} {v : Word} (hb : s.base ≤ p) (hp : p ≤ s.sc.bufEnd.toNat) (hv : s.MayCache v) :
      NextOutcome s (((s.applySkip.setFreeRate v).setNext p).finish .needMoreData)
  | demotes {p : Nat} {c : Code} (hb : s.base ≤ p) (hp : p + s.cfg.guardBytes ≤ s.sc.bufEnd.toNat)
      (hc : c ∉ [.ok, .needMoreData, .accessFault]) : NextOutcome s ((s.applySkip.demote p).finish c)
  | commits {p len r : Nat} {h : Header} {v : Word} (hp : s.SyncPoint p) (hd : s.decodeAt p = .ok h len)
      (hr : s.applySkip.resolve p h len = .rate v r) (hv : s.MayCache v)
      (hn : p + h.length r ≤ s.sc.bufEnd.toNat) :
      NextOutcome s (((s.applySkip.setFreeRate v).commit p h len r (h.length r)).finish .ok)

section
variable {s t : State}

/-- The guard holds a sync pattern (R109), in the state the skip phase leaves too. -/
theorem two_le_applySkip_guardBytes (hw : s.cfg.wf) : 2 ≤ s.applySkip.cfg.guardBytes := by
  obtain ⟨-, -, hguard, -⟩ := hw
  exact (by decide : 2 ≤ 6).trans hguard

theorem State.nextPtr_le_base (s : State) : s.sc.nextPtr.toNat ≤ s.base := Nat.le_add_right ..

theorem HeaderError.code_notMem (e : HeaderError) : e.code ∉ [Code.ok, .needMoreData, .accessFault] := by
  cases e <;> decide

/-- A resolved rate leaves in the cache what it may hold (R425). -/
theorem State.mayCache_of_resolve {p len r : Nat} {h : Header} {v : Word} (hw : s.cfg.wf)
    (hr : s.applySkip.resolve p h len = .rate v r) : s.MayCache v := by
  rcases State.resolve_rate (two_le_applySkip_guardBytes hw) hr with
    ⟨-, hv, -⟩ | ⟨-, -, hv, -⟩ | ⟨-, -, k, hk, -, hv, -⟩
  · exact .inl hv
  · exact .inl hv
  · exact .inr ⟨k, hk, hv⟩

theorem nextOutcome_of_exec (hw : s.cfg.wf) (hp : s.Pointers) (hx : exec .scNext s = .next t) : NextOutcome s t := by
  rcases exec_scNext_cases hw hp hx with ⟨hb, rfl⟩ | ⟨hb, rfl⟩ | ⟨-, hg, -, rfl⟩ | ⟨p, hsync, hrow⟩
  · exact .skipWaits hb
  · exact .waits (v := s.sc.freeRate) le_rfl hb (.inl rfl)
  · exact .demotes le_rfl hg (by decide)
  have ⟨_, hguard, hbase, _⟩ := hsync
  rcases hrow with ⟨e, -, rfl⟩ | ⟨h, len, hd, hrow⟩
  · exact .demotes hbase hguard e.code_notMem
  rcases hrow with ⟨-, -, rfl⟩ | ⟨-, -, rfl⟩ | ⟨v, r, hr, ⟨-, rfl⟩ | ⟨hn, rfl⟩⟩
  · exact .waits (v := s.sc.freeRate) hbase (by omega) (.inl rfl)
  · exact .demotes hbase hguard (by decide)
  · exact .waits hbase (by omega) (State.mayCache_of_resolve hw hr)
  · exact .commits hsync hd hr (State.mayCache_of_resolve hw hr) hn

end

/-! ### Each part of the invariant under a command -/

section
variable {s t : State} {i : Instr}

/-- A cursor moved to a bit address of the memory stays inside it (R202). -/
theorem cursors_moveCursor (hs : s.Inv) {b : Nat} (hb : b ≤ s.cfg.bitLimit) : (s.moveCursor b).Cursors :=
  ⟨(toNat_ofNat_bitAddress hs.cfg hb).trans_le hb, hs.cursors.2⟩

/-- An OK decode ends inside memory (R312). -/
theorem decodeHeader_end_le {c : Config} {v cv : BitView} {b len : Nat} {h : Header}
    (hd : decodeHeader c v cv b = .ok h len) : b + len ≤ c.bitLimit := by
  obtain ⟨-, -, -, -, hend, -⟩ := decodeHeader_ok hd
  exact hend

theorem NextOutcome.cursors (h : NextOutcome s t) (hs : s.Inv) : t.Cursors := by
  cases h with
  | commits hp hd => exact cursors_moveCursor hs (decodeHeader_end_le hd)
  | _ => exact hs.cursors

theorem exec_cursors (hs : s.Inv) (hx : exec i s = .next t) : t.Cursors := by
  cases ended_of_exec hx with
  | scNext => exact (nextOutcome_of_exec hs.cfg hs.pointers hx).cursors hs
  | brSet h => exact cursors_moveCursor hs h
  | brRead _ h => exact cursors_moveCursor hs h
  | brSkip h => exact cursors_moveCursor hs h
  | fhDecode hd => exact cursors_moveCursor hs (decodeHeader_end_le hd)
  | brMark => exact ⟨hs.cursors.1, hs.cursors.1⟩
  | _ => exact hs.cursors

/-- A scan start between the last frame and the window's end keeps the chain of R440. -/
theorem pointers_setNext (hs : s.Inv) {p : Nat} (hthis : s.sc.thisPtr.toNat ≤ p) (hp : p ≤ s.sc.bufEnd.toNat) :
    (s.setNext p).Pointers := by
  obtain ⟨hstart, -, -, hend⟩ := hs.pointers
  have hnat := State.ofNat_toNat_of_le hp
  exact ⟨hstart, hthis.trans_eq hnat.symm, hnat.trans_le hp, hend⟩

/-- So do two new pointers inside the window, in order. -/
theorem pointers_moved (hs : s.Inv) {p q : Nat} (hstart : s.sc.bufStart.toNat ≤ p) (hpq : p ≤ q)
    (hq : q ≤ s.sc.bufEnd.toNat) :
    State.Pointers { s with sc := { s.sc with thisPtr := BitVec.ofNat 32 p, nextPtr := BitVec.ofNat 32 q } } := by
  obtain ⟨-, -, -, hend⟩ := hs.pointers
  have hp := State.ofNat_toNat_of_le (hpq.trans hq)
  have hq' := State.ofNat_toNat_of_le hq
  exact ⟨hstart.trans_eq hp.symm, (hp.trans_le hpq).trans_eq hq'.symm, hq'.trans_le hq, hend⟩

theorem NextOutcome.pointers (h : NextOutcome s t) (hs : s.Inv) : t.Pointers := by
  obtain ⟨hstart, hthis, -, -⟩ := hs.pointers
  have hbase := s.nextPtr_le_base
  cases h with
  | skipWaits => exact hs.pointers
  | waits hb hp => exact pointers_setNext hs (by omega) hp
  | demotes hb hp =>
    obtain ⟨-, -, hguard, -⟩ := hs.cfg
    exact pointers_moved hs (by omega) (Nat.le_succ _) (by omega)
  | commits hp hd hr hv hn =>
    obtain ⟨-, -, hb, -⟩ := hp
    exact pointers_moved hs (by omega) (Nat.le_add_right ..) hn

theorem exec_pointers (hs : s.Inv) (hx : exec i s = .next t) : t.Pointers := by
  obtain ⟨hstart, hthis, hnext, hend⟩ := hs.pointers
  cases ended_of_exec hx with
  | scNext => exact (nextOutcome_of_exec hs.cfg hs.pointers hx).pointers hs
  | scSetbuf h hm => exact ⟨le_rfl, le_rfl, h, hm⟩
  | scExtend h hm => exact ⟨hstart, hthis, hnext.trans h, hm⟩
  | _ => exact hs.pointers

/-- What the cache may hold is a rate R327 accepts, if there was none or such a one before (R48). -/
theorem State.MayCache.freeRateOk {v : Word} (h : s.MayCache v) (hs : s.Inv) : (s.setFreeRate v).FreeRateOk := by
  rcases h with rfl | ⟨k, hk, rfl⟩
  · exact hs.freeRate
  · exact fun hfits => .inr (State.rateWord_ge hs.cfg hfits hk)

theorem exec_freeRate (hs : s.Inv) (hx : exec i s = .next t) : t.FreeRateOk := by
  by_cases hi : i = .scNext
  · subst hi
    cases nextOutcome_of_exec hs.cfg hs.pointers hx with
    | waits hb hp hv => exact hv.freeRateOk hs
    | commits hp hd hr hv => exact hv.freeRateOk hs
    | _ => exact hs.freeRate
  · have h := ended_of_exec hx
    rw [State.FreeRateOk, h.cfg, h.freeRate hi]
    exact hs.freeRate

theorem exec_header (hs : s.Inv) (hx : exec i s = .next t) : t.hdr.Legal := by
  cases ended_of_exec hx with
  | scNext =>
    cases nextOutcome_of_exec hs.cfg hs.pointers hx with
    | commits hp hd => exact decodeHeader_legal hd s _ _
    | _ => exact hs.header
  | fhDecode hd => exact decodeHeader_legal hd s _ _
  | _ => exact hs.header

theorem exec_seek (hs : s.Inv) (hx : exec i s = .next t) : t.sm.Union := by
  cases ended_of_exec hx with
  | scNext h => rw [(Ended.scNext h).sm nofun]; exact hs.seek
  | smParse _ hp => exact parseTag_union hp
  | smParseMalformed => exact SeekRegs.malformed_union
  | _ => exact hs.seek

/-- Every command keeps the invariant: its parts one by one, memory and the parameters not being written at all. -/
theorem exec_inv (hs : s.Inv) (hx : exec i s = .next t) : t.Inv := by
  have h := ended_of_exec hx
  obtain ⟨-, -, hmem, -⟩ := h.operands
  exact ⟨h.cfg ▸ hs.cfg, by rw [State.MemOk, hmem, h.cfg]; exact hs.mem, exec_cursors hs hx, exec_pointers hs hx,
    exec_freeRate hs hx, exec_header hs hx, exec_seek hs hx⟩

end

/-! ### The invariant under an action of the host (R66, R105, R802) -/

/-- The invariant speaks of the parameters, the memory and the registers of the units alone. -/
theorem State.Inv.of_units {s t : State} (hs : s.Inv) (hcfg : t.cfg = s.cfg) (hmem : t.MemOk) (hbr : t.br = s.br)
    (hsc : t.sc = s.sc) (hhdr : t.hdr = s.hdr) (hsm : t.sm = s.sm) : t.Inv := by
  obtain ⟨hwf, -, hcursors, hpointers, hrate, hheader, hseek⟩ := hs
  constructor
  case cfg => rwa [hcfg]
  case mem => exact hmem
  case cursors => rwa [State.Cursors, hcfg, hbr]
  case pointers => rwa [State.Pointers, hcfg, hsc]
  case freeRate => rwa [State.FreeRateOk, hcfg, hsc]
  case header => rwa [hhdr]
  case seek => rwa [hsm]

/-- Every register 0 and no byte written: the state after reset (R800). -/
theorem resetOf_inv {c : Config} (hc : c.wf) : (State.resetOf c).Inv where
  cfg      := hc
  mem      := ⟨.nil, nofun⟩
  cursors  := ⟨Nat.zero_le _, Nat.zero_le _⟩
  pointers := ⟨le_rfl, le_rfl, le_rfl, Nat.zero_le _⟩
  freeRate := fun _ => .inl rfl
  header   := (by decide : HeaderRegs.zero.Legal)
  seek     := SeekRegs.zero_union

/-- Settles O12: the parameters of this spec are well formed. -/
theorem invariantsHoldAtReset : Obligations.InvariantsHoldAtReset := resetOf_inv (by decide)

/-- What an answered action of the host is: a command, a stored byte, reset, or a change outside the units. -/
inductive HostAnswered (s : State) : HostAction → State → Prop
  | command {width : Nat} {w : Word} {i : Instr} {t : State} (hd : decode w = .ok i)
      (hx : exec i s.nextDraw = .next t) : HostAnswered s (.writeReg width 0x000 w) t
  | stored {width a : Nat} {v : Byte} (ha : a < s.cfg.memBytes) :
      HostAnswered s (.writeBuf width a v) (s.writeByte a v)
  | reset : HostAnswered s .reset s.hostReset
  | outside {a : HostAction} {t : State} (ht : t = { s with
        arg0 := t.arg0, arg1 := t.arg1, status := t.status, lastRead := t.lastRead, draws := t.draws }) :
      HostAnswered s a t

theorem hostAnswered_writeRegister {s t : State} {width : Nat} {o : Offset} {v : Word}
    (hx : writeRegister o v s = .next t) : HostAnswered s (.writeReg width o v) t := by
  unfold writeRegister at hx
  split at hx
  case h_1 ho =>
    obtain rfl : o = 0x000 := BitVec.eq_of_toNat_eq ho
    unfold command at hx
    split at hx
    case h_1 i hd => exact .command hd hx
    case h_2 =>
      obtain rfl := Host.Outcome.next.inj hx
      exact .outside rfl
  all_goals
    obtain rfl := Host.Outcome.next.inj hx
    exact .outside rfl

/-- An answer with an access rule in front is the answer of the access. -/
theorem hostAnswered_ite {c : Prop} [Decidable c] {s t : State} {a : HostAction} {x : Result} {r : Refusal}
    (hx : (if c then x else .refused r) = .next t)
    (h : c → x = .next t → HostAnswered s a t) : HostAnswered s a t := by
  split at hx
  case isTrue hc => exact h hc hx
  case isFalse => cases hx

theorem hostAnswered_of_hostStep {s t : State} {a : HostAction} (hx : hostStep a s = .next t) :
    HostAnswered s a t := by
  cases a with
  | writeReg width o v => exact hostAnswered_ite hx fun _ hx => hostAnswered_writeRegister hx
  | readReg width o => exact hostAnswered_ite hx fun _ hx => by cases hx; exact .outside rfl
  | writeBuf width a v =>
    exact hostAnswered_ite hx fun ha hx => by cases hx; exact .stored (State.byteAccess_eq_true.1 ha).2
  | readBuf width a => exact hostAnswered_ite hx fun _ hx => by cases hx; exact .outside rfl
  | reset => cases hx; exact .reset

/-- A byte stored below `MEM_BYTES` keeps the memory in form (R67). -/
theorem writeByte_memOk {s : State} (hm : s.MemOk) {a : Nat} (ha : a < s.cfg.memBytes) (v : Byte) :
    (s.writeByte a v).MemOk := by
  obtain ⟨hwf, hbound⟩ := hm
  exact ⟨Memory.wf_set hwf a v, fun c hc => (Memory.mem_set hc).elim (fun h => h ▸ ha) (hbound c)⟩

theorem hostStep_inv {s t : State} {a : HostAction} (hs : s.Inv) (hx : hostStep a s = .next t) : t.Inv := by
  cases hostAnswered_of_hostStep hx with
  | command _ hx => exact exec_inv (s := s.nextDraw) (hs.of_units rfl hs.mem rfl rfl rfl rfl) hx
  | stored ha => exact hs.of_units rfl (writeByte_memOk hs.mem ha _) rfl rfl rfl rfl
  | reset => exact (resetOf_inv hs.cfg).of_units rfl ⟨.nil, nofun⟩ rfl rfl rfl rfl
  | outside ht => rw [ht]; exact hs.of_units rfl hs.mem rfl rfl rfl rfl

/-- Settles O13: without an action nothing changes, and every action keeps the invariant (`hostStep_inv`). -/
theorem everyStepKeepsTheInvariants : Obligations.EveryStepKeepsTheInvariants := by
  intro s t hs hx
  cases hh : s.host with
  | nil =>
    rw [step_idle hh] at hx
    exact Host.Outcome.next.inj hx ▸ hs
  | cons a rest =>
    rw [step_pending hh] at hx
    exact hostStep_inv (s := { s with host := rest }) (hs.of_units rfl hs.mem rfl rfl rfl rfl) hx

end Sys2Proof.Machine
end

section
/-! SUPPORT. The commands of the window, and the rows of R430 as equations: what SC_NEXT answers for each outcome of its search, its decode and its rate (R410 to R427). -/

namespace Sys2Proof.Machine

/-! ### The window (R410 to R413) -/

/-- Settles O39: each command is its test, with the illegal end on one side and the new window on the other. -/
theorem bufferCommandsSetTheWindow : Obligations.BufferCommandsSetTheWindow :=
  ⟨decode_encode (i := .scSetbuf) rfl, decode_encode (i := .scExtend) rfl, decode_encode (i := .scSetskip) rfl,
    fun s => ⟨if_congr Iff.rfl (illegalCommand_eq s) (congrArg _ (State.complete_eq _)),
      if_congr Iff.rfl (illegalCommand_eq s) (congrArg _ (State.complete_eq _)), congrArg _ (State.complete_eq _)⟩⟩

/-- A window that grows inside memory (R411). -/
theorem exec_scExtend {s : State} (h : s.sc.bufEnd.toNat ≤ s.arg0.toNat) (hm : s.arg0.toNat ≤ s.cfg.memBytes) :
    exec .scExtend s = .next { s with sc := { s.sc with bufEnd := s.arg0 }, status := { s.status with code := .ok } } :=
  (if_neg (not_or.2 ⟨not_lt.2 h, not_lt.2 hm⟩)).trans (congrArg _ (State.complete_eq _))

/-! ### The skip phase and the search (R421 to R423) -/

section
variable {s : State} (hp : s.Pointers)
include hp

theorem exec_scNext_skipWaits (hb : s.sc.bufEnd.toNat < s.base) :
    exec .scNext s = .next (s.finish .needMoreData) :=
  (execScNext_eq hp).trans (if_pos hb)

/-- A search that finds nothing consumes the skip alone. -/
theorem exec_scNext_searchWaits (hb : s.base ≤ s.sc.bufEnd.toNat)
    (hc : s.applySkip.candidate s.base = .needMoreData) :
    exec .scNext s = .next (s.applySkip.finish .needMoreData) := by
  refine (execScNext_eq hp).trans ?_
  rw [if_neg (not_lt.2 hb), State.nextFrame]
  simp only [State.applySkip_next hb, hc]

/-- A search that loses sync demotes at its start. -/
theorem exec_scNext_searchLost (hb : s.base ≤ s.sc.bufEnd.toNat) (hc : s.applySkip.candidate s.base = .lost) :
    exec .scNext s = .next ((s.applySkip.demote s.base).finish .lostSync) := by
  refine (execScNext_eq hp).trans ?_
  rw [if_neg (not_lt.2 hb), State.nextFrame]
  simp only [State.applySkip_next hb, hc]

end

/-- The Synced search looks at its start alone (R422). -/
theorem State.candidate_synced {s : State} (h : s.sc.sync = .synced) (base : Nat) :
    s.candidate base = if s.sc.bufEnd.toNat < base + s.cfg.guardBytes then .needMoreData
      else if s.syncAt base then .found base else .lost := by
  rw [State.candidate, h]

/-- The Unsynced search without a sync point that has a full guard (R423). -/
theorem State.candidate_unsynced_none {s : State} (hg : 2 ≤ s.cfg.guardBytes) (hu : s.sc.sync = .unsynced) {base : Nat}
    (hno : ∀ q, base ≤ q → q + s.cfg.guardBytes ≤ s.sc.bufEnd.toNat → s.syncAt q = false) :
    s.candidate base = .needMoreData := by
  cases hc : s.candidate base with
  | needMoreData => rfl
  | lost => rw [(State.candidate_lost hc).1] at hu; cases hu
  | found p =>
    obtain ⟨hsync, hguard, hbase, -⟩ := State.candidate_found hg hc
    rw [hno p hbase hguard] at hsync
    cases hsync

/-- Settles O40. -/
theorem skipPastTheWindowStaysPending : Obligations.SkipPastTheWindowStaysPending := fun s hs hb => by
  rw [exec_scNext_skipWaits hs.pointers hb, State.finish_plain s (by decide) (by decide)]

/-- Settles O41: the two failures of the Synced search. -/
theorem syncedPathTrustsOnlyTheNextPointer : Obligations.SyncedPathTrustsOnlyTheNextPointer := by
  intro s hs hb hy
  have hc : s.applySkip.candidate s.base = _ := State.candidate_synced hy s.base
  refine ⟨fun hshort => ?_, fun hguard hno => ?_⟩
  · rw [exec_scNext_searchWaits hs.pointers hb (hc.trans (if_pos hshort)),
      State.finish_plain _ (by decide) (by decide)]
    rfl
  · rw [exec_scNext_searchLost hs.pointers hb (hc.trans ?_), State.finish_plain _ (by decide) (by decide)]
    · rfl
    · rw [if_neg (not_lt.2 hguard), hno, if_neg nofun]

/-- Settles O42. -/
theorem unsyncedScanWithoutASyncPointNeedsMoreData : Obligations.UnsyncedScanWithoutASyncPointNeedsMoreData := by
  intro s hs hb hu hno
  rw [exec_scNext_searchWaits hs.pointers hb
    (State.candidate_unsynced_none (s := s.applySkip) (two_le_applySkip_guardBytes hs.cfg) hu hno),
    State.finish_plain _ (by decide) (by decide)]
  rfl

/-! ### The decode and the rate (R424 to R427) -/

section
variable {s : State} {p len r : Nat} {h : Header} {v : Word}

theorem State.resolve_of_bitrate (hb : h.bitrate ≠ 0) : s.resolve p h len = .rate s.sc.freeRate h.bitrate := if_pos hb

/-- A usable cached rate is used (R425). -/
theorem State.resolve_of_cache (hb : h.bitrate = 0) (hu : s.cacheUsable h.layer = true) :
    s.resolve p h len = .rate s.sc.freeRate s.sc.freeRate.toNat := by
  rw [State.resolve, if_neg (not_not.2 hb), if_pos hu]

/-- A probe that loses sync (R425). -/
theorem State.resolve_of_probe_lost (hb : h.bitrate = 0) (hm : s.MustProbe h.layer)
    (hr : s.probe p h (8 * p + len) = .lostSync) : s.resolve p h len = .lostSync := by
  rw [State.resolve, if_neg (not_not.2 hb), State.cacheUsable_of_mustProbe hm, if_neg nofun, hr]

/-- A probed rate that the register holds (R425, R48). -/
theorem State.resolve_of_probe_rate (hw : s.cfg.wf) (hb : h.bitrate = 0) (hm : s.MustProbe h.layer)
    (hr : s.probe p h (8 * p + len) = .rate r) (hlt : r < 2 ^ 32) :
    s.resolve p h len = .rate (BitVec.ofNat 32 r) r := by
  rw [State.resolve, if_neg (not_not.2 hb), State.cacheUsable_of_mustProbe hm, if_neg nofun, hr]
  dsimp only
  rw [State.rateWord_of_lt hw hlt, BitVec.toNat_ofNat, Nat.mod_eq_of_lt hlt]

variable (hw : s.cfg.wf) (hp : s.Pointers) (hsync : s.SyncPoint p)
include hw hp hsync

theorem exec_scNext_headerError {e : HeaderError} (hd : s.decodeAt p = .err e) :
    exec .scNext s = .next ((s.applySkip.demote p).finish e.code) := by
  rw [exec_scNext_of_syncPoint hw hp hsync, hd]

theorem exec_scNext_advance (hd : s.decodeAt p = .ok h len) :
    exec .scNext s = .next (s.applySkip.advance p h len) := by
  rw [exec_scNext_of_syncPoint hw hp hsync, hd]

theorem exec_scNext_probeLost (hd : s.decodeAt p = .ok h len) (hr : s.applySkip.resolve p h len = .lostSync) :
    exec .scNext s = .next ((s.applySkip.demote p).finish .lostSync) := by
  rw [exec_scNext_advance hw hp hsync hd, State.advance, hr]

/-- A frame of the resolved rate that runs past the window's end is waited for, and the rate is kept (R426). -/
theorem exec_scNext_frameWaits (hd : s.decodeAt p = .ok h len) (hr : s.applySkip.resolve p h len = .rate v r)
    (hn : s.sc.bufEnd.toNat < p + h.length r) :
    exec .scNext s = .next { s with
      sc := { s.sc with nextPtr := BitVec.ofNat 32 p, skip := 0, freeRate := v, lastError := .needMoreData },
      status := { s.status with code := .needMoreData } } := by
  rw [exec_scNext_advance hw hp hsync hd, State.advance, hr]
  dsimp only
  rw [State.applySkip_sc, if_pos hn, State.finish_plain _ (by decide) (by decide)]
  rfl

/-- One that fits is committed (R427). -/
theorem exec_scNext_commits (hd : s.decodeAt p = .ok h len) (hr : s.applySkip.resolve p h len = .rate v r)
    (hn : p + h.length r ≤ s.sc.bufEnd.toNat) :
    exec .scNext s = .next { s with
      sc := { s.sc with thisPtr := BitVec.ofNat 32 p, nextPtr := BitVec.ofNat 32 (p + h.length r), skip := 0,
                        sync := .synced, freeRate := v, lastError := .ok },
      hdr := (s.writeHdr h r (h.length r)).hdr,
      br := { s.br with pos := BitVec.ofNat 32 (8 * p + len) }, stale := [],
      status := { s.status with code := .ok } } := by
  rw [exec_scNext_advance hw hp hsync hd, State.advance, hr]
  dsimp only
  rw [State.applySkip_sc, if_neg (not_lt.2 hn), State.finish_plain _ (by decide) (by decide)]
  rfl

end

/-- Settles O43. -/
theorem headerErrorMovesOneByteFurther : Obligations.HeaderErrorMovesOneByteFurther := by
  intro s p e hs hsync hd
  rw [exec_scNext_headerError hs.cfg hs.pointers hsync hd,
    State.finish_plain _ (by cases e <;> decide) (by cases e <;> decide)]
  rfl

/-- Settles O44: the header's own rate, and a frame that does not fit. -/
theorem frameThatDoesNotFitNeedsMoreData : Obligations.FrameThatDoesNotFitNeedsMoreData :=
  fun _ _ _ _ hs hsync hd hb hn =>
    exec_scNext_frameWaits hs.cfg hs.pointers hsync hd (State.resolve_of_bitrate hb) hn

/-- Settles O45: the header's own rate, and a frame that fits. -/
theorem scNextCommitsTheFrame : Obligations.ScNextCommitsTheFrame :=
  fun _ _ _ _ hs hsync hd hb hn =>
    exec_scNext_commits hs.cfg hs.pointers hsync hd (State.resolve_of_bitrate hb) hn

/-- R327's rule as the two bounds. -/
theorem plausibleRate_eq_true {c : Config} {l : Layer} {k : Nat} :
    plausibleRate c l k = true ↔ c.freeMinKbps ≤ k ∧ (l = .three → k ≤ c.freeMaxL3Kbps) := by
  simp [plausibleRate, imp_iff_not_or]

/-- Settles O46: the first matching candidate decides the probe, whose rate is the resolved one. -/
theorem freeFormatRateComesFromTheProbe : Obligations.FreeFormatRateComesFromTheProbe := by
  intro s p q h len hs hsync hd hb hm hhit k n
  have hprobe : s.applySkip.probe p h (8 * p + len) = s.probeRate p h q := State.probe_of_hit hs.cfg hhit
  have hrate (hmin : s.cfg.freeMinKbps ≤ k) (hmax : h.layer = .three → k ≤ s.cfg.freeMaxL3Kbps)
      (hlt : k * 1000 < 2 ^ 32) :
      s.applySkip.resolve p h len = .rate (BitVec.ofNat 32 (k * 1000)) (k * 1000) :=
    State.resolve_of_probe_rate (s := s.applySkip) hs.cfg hb hm
      (hprobe.trans (if_pos (plausibleRate_eq_true.2 ⟨hmin, hmax⟩))) hlt
  refine ⟨fun hbad => ?_, fun hmin hmax hlt hn => ?_, fun hmin hmax hlt hn => ?_⟩
  · have himplausible : ¬plausibleRate s.cfg h.layer k = true := fun hplausible => by
      obtain ⟨hmin, hmax⟩ := plausibleRate_eq_true.1 hplausible
      rcases hbad with hlow | ⟨hthree, hhigh⟩
      · omega
      · exact hhigh.not_ge (hmax hthree)
    rw [exec_scNext_probeLost hs.cfg hs.pointers hsync hd
      (State.resolve_of_probe_lost (s := s.applySkip) hb hm (hprobe.trans (if_neg himplausible))),
      State.finish_plain _ (by decide) (by decide)]
    rfl
  · exact exec_scNext_commits hs.cfg hs.pointers hsync hd (hrate hmin hmax hlt) hn
  · exact exec_scNext_frameWaits hs.cfg hs.pointers hsync hd (hrate hmin hmax hlt) hn

/-- Settles O48: the rate the cache holds, whose register is its own value. -/
theorem cachedFreeRateSkipsTheProbe : Obligations.CachedFreeRateSkipsTheProbe := by
  intro s p h len hs hspec hsync hd hb hm n
  have hu : s.cacheUsable h.layer = true :=
    State.cacheUsable_of_not_mustProbe (congrArg Config.staleCheckL12 hspec.1) hm
  have hr : s.applySkip.resolve p h len = .rate s.sc.freeRate s.sc.freeRate.toNat :=
    State.resolve_of_cache (s := s.applySkip) hb hu
  refine ⟨fun hn => ?_, fun hn => exec_scNext_frameWaits hs.cfg hs.pointers hsync hd hr hn⟩
  rw [exec_scNext_commits hs.cfg hs.pointers hsync hd hr hn, State.writeHdr_hdr, BitVec.ofNat_toNat,
    BitVec.setWidth_eq]
  rfl

end Sys2Proof.Machine
end

section
/-! SUPPORT. What every SC_NEXT keeps: its sync state, the bytes it reads, the progress it makes, and the runs of R442 and R443. -/

namespace Sys2Proof.Machine

/-! ### The sync state (R400) -/

theorem NextOutcome.sync {s t : State} (h : NextOutcome s t) : t.sc.sync =
    if t.status.code = .ok then .synced else if t.status.code = .needMoreData then s.sc.sync else .unsynced := by
  cases h with
  | skipWaits | waits | commits => rfl
  | demotes _ _ hc =>
    simp only [List.mem_cons, List.not_mem_nil, or_false, not_or] at hc
    obtain ⟨hok, hwait, -⟩ := hc
    exact ((if_neg hok).trans (if_neg hwait)).symm

/-- SC_SET_BUFFER enters Unsynced when it ends OK, and changes nothing when it does not (R410). -/
theorem Ended.scSetbuf_sync {s t : State} (h : Ended s .scSetbuf t) :
    t.sc.sync = if t.status.code = .ok then .unsynced else s.sc.sync := by
  cases h <;> rfl

/-- Settles O49: SC_NEXT by its outcomes, SC_SET_BUFFER by its ends; no other command writes the sync state. -/
theorem onlyASuccessfulScNextEntersSynced : Obligations.OnlyASuccessfulScNextEntersSynced := by
  refine ⟨rfl, fun s => s.sc.sync.toWord_eq, fun i s t hs hx => ?_⟩
  by_cases hnext : i = .scNext
  · subst hnext
    rw [if_pos rfl]
    exact (nextOutcome_of_exec hs.cfg hs.pointers hx).sync
  rw [if_neg hnext]
  by_cases hsetbuf : i = .scSetbuf
  · subst hsetbuf
    simpa using (ended_of_exec hx).scSetbuf_sync
  · rw [if_neg fun h => hsetbuf h.1]
    obtain ⟨-, -, hsync⟩ := (ended_of_exec hx).pointers hsetbuf hnext
    exact hsync

/-! ### The bytes SC_NEXT reads (R441) -/

section
variable {s : State} {m : Memory} (hg : 6 ≤ s.cfg.guardBytes)
  (hm : ∀ a < s.sc.bufEnd.toNat, ({ s with mem := m } : State).byteAt a = s.byteAt a)
include hg hm

/-- The resolved rate depends on no byte at or past the window's end. -/
theorem State.resolve_congr (p : Nat) (h : Header) (len : Nat) :
    ({ s with mem := m } : State).resolve p h len = s.resolve p h len := by
  have hprobe : ({ s with mem := m } : State).probe p h (8 * p + len) = s.probe p h (8 * p + len) :=
    State.probeFrom_congr hg hm ..
  unfold State.resolve
  rw [hprobe]
  rfl

theorem State.advance_congr (p : Nat) (h : Header) (len : Nat) :
    ({ s with mem := m } : State).advance p h len = { s.advance p h len with mem := m } := by
  unfold State.advance
  rw [State.resolve_congr hg hm]
  cases s.resolve p h len with
  | needMoreData => rfl
  | lostSync => rfl
  | rate v r =>
    dsimp only
    split <;> rfl

/-- Every candidate has a full guard, so its header lies inside the window. -/
theorem State.nextFrame_congr (s0 : State) :
    State.nextFrame { s0 with mem := m } { s with mem := m } = { State.nextFrame s0 s with mem := m } := by
  unfold State.nextFrame
  dsimp only
  rw [State.candidate_congr hg hm]
  cases hc : s.candidate s.sc.nextPtr.toNat with
  | needMoreData => rfl
  | lost => rfl
  | found p =>
    obtain ⟨-, hguard, -⟩ := State.candidate_found (by omega) hc
    dsimp only
    rw [State.decodeAt_congr hm (by omega)]
    cases s.decodeAt p with
    | fault => rfl
    | err e => rfl
    | ok h len => exact State.advance_congr hg hm p h len

end

/-- Settles O50: the skip phase reads no byte, the rest none past the window's end, and no outcome is AccessFault. -/
theorem scNextNeverReadsPastTheWindow : Obligations.ScNextNeverReadsPastTheWindow := by
  intro s t m hs hm hx
  obtain ⟨-, -, hguard, -⟩ := hs.cfg
  refine ⟨?_, ?_⟩
  · have hx := (execScNext_eq hs.pointers).symm.trans hx
    refine (execScNext_eq (s := { s with mem := m }) hs.pointers).trans ?_
    by_cases hb : s.sc.bufEnd.toNat < s.base
    · rw [if_pos hb] at hx
      obtain rfl := Host.Outcome.next.inj hx
      exact if_pos hb
    · rw [if_neg hb] at hx
      obtain rfl := Host.Outcome.next.inj hx
      exact (if_neg hb).trans (congrArg _ (State.nextFrame_congr (s := s.applySkip) hguard hm s))
  · cases nextOutcome_of_exec hs.cfg hs.pointers hx with
    | demotes _ _ hc => exact fun hfault => hc (hfault ▸ by simp)
    | _ => nofun

/-! ### Progress (R440, R442) -/

section
variable {s t : State}

/-- A demotion one byte past `p` stays inside the window: a full guard is there (R109). -/
theorem toNat_ofNat_demoted (hs : s.Inv) {p : Nat} (hp : p + s.cfg.guardBytes ≤ s.sc.bufEnd.toNat) :
    (BitVec.ofNat 32 p).toNat = p ∧ (BitVec.ofNat 32 (p + 1)).toNat = p + 1 := by
  obtain ⟨-, -, hguard, -⟩ := hs.cfg
  exact ⟨State.ofNat_toNat_of_le (s := s) (by omega), State.ofNat_toNat_of_le (s := s) (by omega)⟩

/-- An SC_NEXT waits without moving SC_THIS_PTR, or names a candidate from `base` on (R430). -/
theorem NextOutcome.thisPtr (h : NextOutcome s t) (hs : s.Inv) :
    (t.status.code = .needMoreData ∧ t.sc.thisPtr = s.sc.thisPtr) ∨
      (t.status.code ≠ .needMoreData ∧ s.base ≤ t.sc.thisPtr.toNat) := by
  cases h with
  | skipWaits | waits => exact .inl ⟨rfl, rfl⟩
  | demotes hb hp hc =>
    exact .inr ⟨fun h => hc (h ▸ by simp), hb.trans_eq (toNat_ofNat_demoted hs hp).1.symm⟩
  | commits hp hd hr hv hn =>
    obtain ⟨-, hguard, hb, -⟩ := hp
    exact .inr ⟨nofun, hb.trans_eq (State.ofNat_toNat_of_le (s := s) (by omega)).symm⟩

/-- The scan start never moves back: a wait leaves it at `base` or past it, every other outcome past the candidate. -/
theorem NextOutcome.nextPtr_le (h : NextOutcome s t) (hs : s.Inv) : s.sc.nextPtr.toNat ≤ t.sc.nextPtr.toNat := by
  have hbase := s.nextPtr_le_base
  obtain ⟨-, hchain, -⟩ := h.pointers hs
  cases h with
  | skipWaits => exact le_rfl
  | waits hb hp => exact (hbase.trans hb).trans_eq (State.ofNat_toNat_of_le hp).symm
  | demotes hb hp => exact (hbase.trans hb).trans ((toNat_ofNat_demoted hs hp).1.symm.trans_le hchain)
  | commits hp =>
    obtain ⟨-, hguard, hb, -⟩ := hp
    exact (hbase.trans hb).trans ((State.ofNat_toNat_of_le (s := s) (by omega)).symm.trans_le hchain)

/-- No command but SC_SET_BUFFER moves the scan start back (R440). -/
theorem exec_nextPtr_le {i : Instr} (hs : s.Inv) (hx : exec i s = .next t) (hi : i ≠ .scSetbuf) :
    s.sc.nextPtr.toNat ≤ t.sc.nextPtr.toNat := by
  by_cases hnext : i = .scNext
  · subst hnext
    exact (nextOutcome_of_exec hs.cfg hs.pointers hx).nextPtr_le hs
  · obtain ⟨-, hnextPtr, -⟩ := (ended_of_exec hx).pointers hi hnext
    rw [hnextPtr]

end

/-- Settles O51: `exec_nextPtr_le`. -/
theorem nextPointerNeverDecreases : Obligations.NextPointerNeverDecreases := fun _ _ _ => exec_nextPtr_le

/-- A usable cache holds a rate (R425). -/
theorem State.freeRate_ne_zero_of_cacheUsable {s : State} {l : Layer} (h : s.cacheUsable l = true) :
    s.sc.freeRate ≠ 0 := by
  intro h0
  rw [State.cacheUsable_of_mustProbe (.inl h0)] at h
  cases h

section
variable {s t : State} {p len : Nat} {h : Header} (hs : s.Inv) (hspec : s.SpecConfig)
include hs hspec

/-- A resolved rate of this spec is at least 8 kb/s (R310, R48, R327; log 5 for a probed one that does not fit). -/
theorem State.resolve_rate_ge {r : Nat} {v : Word} (hd : s.decodeAt p = .ok h len)
    (hr : s.applySkip.resolve p h len = .rate v r) : 8000 ≤ r := by
  have h8 : s.cfg.freeMinKbps = 8 := congrArg Config.freeMinKbps hspec.1
  have hmin : s.cfg.freeMinKbps * 1000 = 8000 := by omega
  have hfits : s.cfg.freeMinKbps * 1000 < 2 ^ 32 := by omega
  rcases State.resolve_rate (two_le_applySkip_guardBytes hs.cfg) hr with
    ⟨hb, -, rfl⟩ | ⟨-, hu, -, rfl⟩ | ⟨-, -, k, hk, -, rfl, rfl⟩
  · exact (Header.bitrate_ge hspec hd).resolve_left hb
  · exact hmin.symm.trans_le ((hs.freeRate hfits).resolve_left (State.freeRate_ne_zero_of_cacheUsable hu))
  · exact hmin.symm.trans_le (State.rateWord_ge hs.cfg hfits hk)

/-- So every committed frame has at least 8 bytes (R321, R442). -/
theorem State.eight_le_length {r : Nat} {v : Word} (hd : s.decodeAt p = .ok h len)
    (hr : s.applySkip.resolve p h len = .rate v r) : 8 ≤ h.length r :=
  Header.eight_le_length hspec hd (State.resolve_rate_ge hs hspec hd hr)

/-- An SC_NEXT that does not wait leaves the scan start past the candidate it names, by a whole frame when it commits. -/
theorem NextOutcome.advances (h : NextOutcome s t) (hc : t.status.code ≠ .needMoreData) :
    t.sc.thisPtr.toNat + (if t.status.code = .ok then 8 else 1) ≤ t.sc.nextPtr.toNat := by
  cases h with
  | skipWaits | waits => exact absurd rfl hc
  | @demotes p c hb hp hcode =>
    obtain ⟨hthis, hnext⟩ := toNat_ofNat_demoted hs hp
    have hok : c ≠ .ok := fun h => hcode (h ▸ by simp)
    exact (congrArg₂ (· + ·) hthis (if_neg hok)).trans_le hnext.ge
  | @commits p len r h v hp hd hr hv hn =>
    have hlen := State.eight_le_length hs hspec hd hr
    have hthis : (BitVec.ofNat 32 p).toNat = p := State.ofNat_toNat_of_le (s := s) (by omega)
    have hnext : (BitVec.ofNat 32 (p + h.length r)).toNat = p + h.length r := State.ofNat_toNat_of_le hn
    change (BitVec.ofNat 32 p).toNat + 8 ≤ (BitVec.ofNat 32 (p + h.length r)).toNat
    omega

end

/-- Settles O52: a wait keeps SC_THIS_PTR; every other outcome names a candidate from the old scan start on and moves past it. -/
theorem scNextMakesProgress : Obligations.ScNextMakesProgress := by
  intro s t hs hspec hx
  have h := nextOutcome_of_exec hs.cfg hs.pointers hx
  have hbase := s.nextPtr_le_base
  rcases h.thisPtr hs with ⟨hwait, hthis⟩ | ⟨hmoves, hthis⟩
  · exact ⟨fun hne => absurd hwait hne, fun hok => absurd (hwait.symm.trans hok) nofun, fun _ => hthis⟩
  · have hadv := h.advances hs hspec hmoves
    refine ⟨fun _ => ?_, fun hok => ⟨?_, by omega⟩, fun hwait => absurd hwait hmoves⟩
    · split at hadv <;> omega
    · rwa [if_pos hok] at hadv

/-! ### Exactly once (R442) -/

/-- What the host does without reset and SC_SET_BUFFER keeps the invariant and never moves the scan start back. -/
theorem State.Continues.keeps {a b : State} (h : a.Continues b) (ha : a.Inv) :
    b.Inv ∧ a.sc.nextPtr.toNat ≤ b.sc.nextPtr.toNat := by
  obtain ⟨x, hreset, hsetbuf, hx⟩ := h
  refine ⟨hostStep_inv ha hx, ?_⟩
  cases hostAnswered_of_hostStep hx with
  | command hd hx =>
    exact exec_nextPtr_le (s := a.nextDraw) (ha.of_units rfl ha.mem rfl rfl rfl rfl) hx
      fun hi => hsetbuf _ _ rfl (hi ▸ hd)
  | stored => exact le_rfl
  | reset => exact absurd rfl hreset
  | outside ht => rw [ht]

theorem State.Continues.keeps_all {a b : State} (h : Relation.ReflTransGen State.Continues a b) (ha : a.Inv) :
    b.Inv ∧ a.sc.nextPtr.toNat ≤ b.sc.nextPtr.toNat := by
  induction h with
  | refl => exact ⟨ha, le_rfl⟩
  | tail _ hstep ih =>
    obtain ⟨hb, hle⟩ := ih
    obtain ⟨hc, hle'⟩ := hstep.keeps hb
    exact ⟨hc, hle.trans hle'⟩

/-- So no later SC_NEXT commits, or names a candidate, before an address the scan start has passed. -/
theorem later_scNext {a t u : State} {k : Nat} (ha : a.Inv) (hk : k ≤ a.sc.nextPtr.toNat)
    (h : Relation.ReflTransGen State.Continues a t) (hx : exec .scNext t = .next u) :
    k ≤ u.sc.nextPtr.toNat ∧
      ((u.status.code = .needMoreData ∧ u.sc.thisPtr = t.sc.thisPtr) ∨ k ≤ u.sc.thisPtr.toNat) := by
  obtain ⟨ht, hle⟩ := State.Continues.keeps_all h ha
  have hout := nextOutcome_of_exec ht.cfg ht.pointers hx
  have hbase := t.nextPtr_le_base
  refine ⟨(hk.trans hle).trans (hout.nextPtr_le ht), (hout.thisPtr ht).imp_right fun ⟨_, hthis⟩ => ?_⟩
  omega

/-- `s` after a wait with the scan start at `p`, once the host has stored the memory `m` and extended the window to `e` (R411, R426). -/
def State.grown (s : State) (p : Nat) (m : Memory) (e : Word) : State :=
  { s with
    mem    := m
    arg0   := e
    sc     := { s.sc with bufEnd := e, nextPtr := BitVec.ofNat 32 p, skip := 0, lastError := .needMoreData }
    status := { s.status with code := .ok } }

section
variable {s : State} {p : Nat} {m : Memory} {e : Word} (hs : s.Inv) (hsync : s.SyncPoint p)

include hsync in
theorem State.grown_nextPtr : (s.grown p m e).sc.nextPtr.toNat = p := by
  obtain ⟨-, hguard, -⟩ := hsync
  exact State.ofNat_toNat_of_le (s := s) (by omega)

include hs hsync

/-- The wait at the frame, and the extension of the window. -/
theorem exec_scExtend_grown {h : Header} {len : Nat} (hd : s.decodeAt p = .ok h len) (hb : h.bitrate ≠ 0)
    (hn : s.sc.bufEnd.toNat < p + h.length h.bitrate) (he : s.sc.bufEnd.toNat ≤ e.toNat)
    (hmem : e.toNat ≤ s.cfg.memBytes) :
    ∃ s1, exec .scNext s = .next s1 ∧ s1.status.code = .needMoreData ∧ s1.sc.thisPtr = s.sc.thisPtr ∧
      exec .scExtend { s1 with mem := m, arg0 := e } = .next (s.grown p m e) :=
  ⟨_, frameThatDoesNotFitNeedsMoreData s p h len hs hsync hd hb hn, rfl, rfl, exec_scExtend he hmem⟩

theorem State.grown_pointers (he : s.sc.bufEnd.toNat ≤ e.toNat) (hm : e.toNat ≤ s.cfg.memBytes) :
    (s.grown p m e).Pointers := by
  have hnat := State.grown_nextPtr (m := m) (e := e) hsync
  obtain ⟨hstart, hthis, -, -⟩ := hs.pointers
  obtain ⟨-, hguard, hbase, -⟩ := hsync
  have hnext := s.nextPtr_le_base
  exact ⟨hstart, ((hthis.trans hnext).trans hbase).trans_eq hnat.symm,
    hnat.trans_le (show p ≤ e.toNat by omega), hm⟩

/-- The candidate is still one: it is the scan start, and its bytes are below the old end. -/
theorem State.grown_syncPoint (he : s.sc.bufEnd.toNat ≤ e.toNat)
    (hm : ∀ a < s.sc.bufEnd.toNat, ({ s with mem := m } : State).byteAt a = s.byteAt a) :
    (s.grown p m e).SyncPoint p := by
  have hbase : (s.grown p m e).base = p := State.grown_nextPtr (m := m) (e := e) hsync
  obtain ⟨-, -, hwide, -⟩ := hs.cfg
  obtain ⟨hpattern, hguard, -⟩ := hsync
  exact ⟨(State.syncAt_congr hm (by omega)).trans hpattern, hguard.trans he, hbase.le, fun _ => hbase.symm,
    fun q hq hq' => absurd hq (not_lt.2 (hbase.symm.trans_le hq'))⟩

theorem State.grown_decodeAt (hm : ∀ a < s.sc.bufEnd.toNat, ({ s with mem := m } : State).byteAt a = s.byteAt a) :
    (s.grown p m e).decodeAt p = s.decodeAt p := by
  obtain ⟨-, -, hwide, -⟩ := hs.cfg
  obtain ⟨-, hguard, -⟩ := hsync
  exact State.decodeAt_congr hm (by omega)

end

/-- Settles O53: the wait and the extension lead to `State.grown`, whose SC_NEXT commits the frame; `later_scNext` says the rest. -/
theorem truncatedFrameIsResumedExactlyOnce : Obligations.TruncatedFrameIsResumedExactlyOnce := by
  intro s p h len m e hs hspec hsync hd hb n hshort hfits hmem hbytes
  have he : s.sc.bufEnd.toNat ≤ e.toNat := (hshort.trans_le hfits).le
  have hlen : 8 ≤ n := Header.eight_le_length hspec hd ((Header.bitrate_ge hspec hd).resolve_left hb)
  obtain ⟨s1, hx1, hwait, hthis, hx2⟩ := exec_scExtend_grown (m := m) hs hsync hd hb hshort he hmem
  have hx3 := exec_scNext_commits (s := s.grown p m e) hs.cfg (State.grown_pointers hs hsync he hmem)
    (State.grown_syncPoint hs hsync he hbytes) ((State.grown_decodeAt hs hsync hbytes).trans hd)
    (State.resolve_of_bitrate hb) hfits
  have hp : (BitVec.ofNat 32 p).toNat = p := State.ofNat_toNat_of_le (s := s.grown p m e)
    (show p ≤ e.toNat by omega)
  have hnext : (BitVec.ofNat 32 (p + n)).toNat = p + n := State.ofNat_toNat_of_le (s := s.grown p m e) hfits
  refine ⟨s1, _, _, hx1, hwait, hthis, hx2, rfl, hx3, rfl, hp, hnext, by omega, rfl, fun hok t u hrun hx => ?_⟩
  have hok1 : State.MemOk { s1 with mem := m, arg0 := e } := by
    rw [State.MemOk, (ended_of_exec hx1).cfg]
    exact hok
  have hs1 : State.Inv { s1 with mem := m, arg0 := e } := (exec_inv hs hx1).of_units rfl hok1 rfl rfl rfl rfl
  exact later_scNext (exec_inv (exec_inv hs1 hx2) hx3) hnext.ge hrun hx

/-! ### Resynchronisation (R443) -/

/-- A sync pattern begins with 0xFF (R150). -/
theorem State.syncAt_eq_false {s : State} {a : Nat} (h : s.byteAt a ≠ 0xFF#8) : s.syncAt a = false := by
  simp [State.syncAt, h]

/-- Settles O54: the lost sync leaves the scan start at the frame, Unsynced and with no skip, so the frame is the next candidate. -/
theorem resyncFindsTheNextFrame : Obligations.ResyncFindsTheNextFrame := by
  intro s h len hs hy hskip a hbyte hpattern hguard hd hb hfits
  have hbase : s.base = a := by simp [State.base, hskip, a]
  obtain ⟨-, hlost⟩ := syncedPathTrustsOnlyTheNextPointer s hs (by omega) hy
  have hx1 := hlost (by omega) (by rw [hbase]; exact State.syncAt_eq_false hbyte)
  have hs1 := exec_inv hs hx1
  have hnext : (BitVec.ofNat 32 (s.base + 1)).toNat = a + 1 := by
    rw [hbase]
    exact State.ofNat_toNat_of_le (s := s) (by omega)
  have hthis : (BitVec.ofNat 32 (a + 1)).toNat = a + 1 := State.ofNat_toNat_of_le (s := s) (by omega)
  refine ⟨_, _, hx1, rfl, hnext, rfl, scNextCommitsTheFrame _ (a + 1) h len hs1 ?_ hd hb hfits, rfl, hthis, rfl⟩
  exact ⟨hpattern, hguard, hnext.le, nofun, fun q hq hq' => absurd hq (not_lt.2 (hnext.symm.trans_le hq'))⟩

end Sys2Proof.Machine
end

section
/-! SUPPORT. SM_PARSE's range check, the interpolated TOC as a running count of bytes, and the burst detection of the CRC behind a rejected LAME block (R502, R540, R550). -/

namespace Sys2Proof.Machine

/-- Settles O55: the fault is the whole effect. -/
theorem smParseChecksItsRangeFirst : Obligations.SmParseChecksItsRangeFirst :=
  fun s h => (exec_smParse_fault h).trans (accessFault_eq s)

/-! ### The TOC of a VBRI tag (R540) -/

/-- `m` times the bytes before position `p / m` of the native table, the entry there counted by its share `p % m`. -/
def tocBytes (m : Nat) (v : Nat → Nat) (p : Nat) : Nat := m * tocOffset v (p / m) + p % m * v (p / m)

/-- An entry of R540 scales the count at its time boundary. -/
theorem tocEntry_eq_tocBytes (m : Nat) (v : Nat → Nat) (n nbytes j : Nat) :
    tocEntry m v n nbytes j = min 255 (256 * tocBytes m v (j * n) / (m * nbytes)) := by
  rw [tocEntry, tocBytes, Nat.mod_eq_sub_mul_div]

theorem tocBytes_zero (m : Nat) (v : Nat → Nat) : tocBytes m v 0 = 0 := by
  simp [tocBytes, tocOffset]

/-- One `m`-th of an entry further on, the count grows by the entry's bytes, also where the next entry begins. -/
theorem tocBytes_succ {m : Nat} (hm : 0 < m) (v : Nat → Nat) (p : Nat) :
    tocBytes m v (p + 1) = tocBytes m v p + v (p / m) := by
  have hp := Nat.mod_add_div p m
  unfold tocBytes
  by_cases hlast : p % m + 1 = m
  · obtain ⟨hdiv, hmod⟩ : (p + 1) / m = p / m + 1 ∧ (p + 1) % m = 0 :=
      (Nat.div_mod_unique hm).2 ⟨by rw [Nat.mul_succ]; omega, hm⟩
    rw [hdiv, hmod, tocOffset]
    calc m * (tocOffset v (p / m) + v (p / m)) + 0 * v (p / m + 1)
        = m * tocOffset v (p / m) + (p % m + 1) * v (p / m) := by rw [hlast]; ring
      _ = m * tocOffset v (p / m) + p % m * v (p / m) + v (p / m) := by ring
  · have hlt := Nat.mod_lt p hm
    obtain ⟨hdiv, hmod⟩ : (p + 1) / m = p / m ∧ (p + 1) % m = p % m + 1 :=
      (Nat.div_mod_unique hm).2 ⟨by omega, by omega⟩
    rw [hdiv, hmod]
    ring

theorem tocBytes_mono {m : Nat} (hm : 0 < m) (v : Nat → Nat) : Monotone (tocBytes m v) :=
  monotone_nat_of_le_succ fun p => (tocBytes_succ hm v p).symm ▸ Nat.le_add_right ..

/-- Settles O59: the count starts at 0 and grows with the position; with no time boundary (`m = 0`) every quotient is 0. -/
theorem vbriTocNeverDecreases : Obligations.VbriTocNeverDecreases := by
  intro m v n nbytes
  simp only [tocEntry_eq_tocBytes]
  refine ⟨?_, fun j => min_le_left .., fun j => min_le_min_left 255 ?_⟩
  · rw [Nat.zero_mul, tocBytes_zero, Nat.mul_zero, Nat.zero_div, Nat.min_zero]
  · rcases Nat.eq_zero_or_pos m with rfl | hm
    · rw [Nat.zero_mul, Nat.div_zero]
      exact Nat.zero_le _
    · have hpos : j * n ≤ (j + 1) * n := Nat.mul_le_mul_right n j.le_succ
      exact Nat.div_le_div_right (Nat.mul_le_mul_left 256 (tocBytes_mono hm v hpos))

/-! ### A CRC detects an error burst of at most 16 bits (R550) -/

/-- Different bit strings have a difference that is not 0. -/
theorem bits_xor_ne_zero {v w : BitView} {b n : Nat} (h : bits v b n ≠ bits w b n) :
    bits (fun i => v i ^^ w i) b n ≠ 0 := by
  refine fun h0 => h (bits_congr fun i hi => ?_)
  have hbit := bits_testBit (fun i => v i ^^ w i) b n i hi
  rw [h0, Nat.zero_testBit] at hbit
  simpa using hbit.symm

/-- A string of at most 16 bits fits in the register. -/
theorem topBits_ne_zero {v : BitView} {b n : Nat} (hn : n ≤ 16) (h : bits v b n ≠ 0) : topBits v b n ≠ 0 := by
  intro h0
  have hlt : bits v b n * 2 ^ (16 - n) < 2 ^ 16 :=
    calc bits v b n * 2 ^ (16 - n)
        < 2 ^ n * 2 ^ (16 - n) := Nat.mul_lt_mul_of_pos_right (bits_lt v b n) (by positivity)
      _ = 2 ^ 16 := by rw [← pow_add, Nat.add_sub_cancel' hn]
  have hval := congrArg BitVec.toNat h0
  rw [topBits, BitVec.toNat_ofNat, Nat.mod_eq_of_lt hlt] at hval
  exact Nat.mul_ne_zero h (by positivity) hval

section
variable {poly : Half} (hp : poly.getLsbD 0 = true)
include hp

theorem crcShift_ne_zero (n : Nat) {c : Half} (hc : c ≠ 0) : crcShift poly n c ≠ 0 := by
  induction n generalizing c with
  | zero => exact hc
  | succ n ih => exact ih (crcStep_ne_zero hp hc)

/-- A string of at most 16 bits has CRC 0 only if its bits are all 0. -/
theorem crc16_ne_zero {v : BitView} {b n : Nat} (hn : n ≤ 16) (h : bits v b n ≠ 0) : crc16 poly v b n 0 ≠ 0 := by
  rw [crc16_eq_crcShift poly v b hn]
  exact crcShift_ne_zero hp n (by simpa using topBits_ne_zero hn h)

/-- Views that differ in `n ≤ 16` consecutive bits only have different CRCs: the difference has a CRC of its own, which is not 0 behind the burst and stays so. -/
theorem crc16_ne_of_burst {v w : BitView} {b k n m : Nat} (c : Half) (hn : n ≤ 16)
    (hbefore : ∀ i < k, v (b + i) = w (b + i)) (hburst : bits v (b + k) n ≠ bits w (b + k) n)
    (hafter : ∀ i < m, v (b + k + n + i) = w (b + k + n + i)) :
    crc16 poly v b (k + n + m) c ≠ crc16 poly w b (k + n + m) c := by
  have hdiff : crc16 poly (fun i => v i ^^ w i) b (k + n + m) 0 ≠ 0 := by
    rw [crc16_add, crc16_add, crc16_zeros poly _ b k fun i hi => by simp [hbefore i hi], ← Nat.add_assoc]
    exact crc16_zero_ne hp (crc16_ne_zero hp hn (bits_xor_ne_zero hburst)) fun i hi => by simp [hafter i hi]
  refine fun he => hdiff ?_
  calc crc16 poly (fun i => v i ^^ w i) b (k + n + m) 0
      = crc16 poly (fun i => v i ^^ w i) b (k + n + m) (c ^^^ c) := by rw [BitVec.xor_self]; rfl
    _ = 0 := by rw [crc16_xor, he, BitVec.xor_self]; rfl

end

/-! ### The tag's own fields decide everything but the LAME part (R505, R510) -/

/-- The table depends on its TOC_ENTRIES entries alone. -/
theorem tocRegs_congr {c : Config} {entry entry' : Nat → Nat} (h : ∀ j < c.tocEntries, entry j = entry' j) :
    tocRegs c entry = tocRegs c entry' :=
  congrArg Vector.ofFn (funext fun _ => if_ctx_congr Iff.rfl (fun hj => congrArg _ (h _ hj)) fun _ => rfl)

/-- The views agree on the bits from `t` that the tag's own fields can occupy: the magic, the flags and the four optional fields. -/
def SameTag (c : Config) (v w : BitView) (t : Nat) : Prop :=
  ∀ b, t ≤ b → b < t + 160 + 8 * c.tocEntries → v b = w b

section
variable {c : Config} {v w : BitView} {t : Nat} (h : SameTag c v w t)
include h

theorem SameTag.bits_eq {p n : Nat} (hp : t ≤ p) (hn : p + n ≤ t + 160 + 8 * c.tocEntries) : bits v p n = bits w p n :=
  bits_congr fun i hi => h _ (by omega) (by omega)

theorem SameTag.tagKindAt_eq (l : Nat) : tagKindAt c v t l = tagKindAt c w t l := by
  rw [tagKindAt, tagKindAt, h.bits_eq le_rfl (by omega)]

theorem SameTag.xingLength_eq : xingLength c v (t + 32) = xingLength c w (t + 32) := by
  rw [xingLength, xingLength, h.bits_eq (by omega) (by omega)]

theorem SameTag.tocRegs_eq {p : Nat} (hp : t ≤ p) (hn : p ≤ t + 160) :
    (tocRegs c fun i => bits v (p + 8 * i) 8) = tocRegs c fun i => bits w (p + 8 * i) 8 :=
  tocRegs_congr fun i hi => h.bits_eq (by omega) (by omega)

theorem SameTag.xingRegs_eq : xingRegs c v (t + 32) = xingRegs c w (t + 32) := by
  rw [xingRegs_spec, xingRegs_spec, h.bits_eq (p := t + 32) (by omega) (by omega)]
  generalize (BitVec.ofNat 32 (bits w (t + 32) 32) : Word) = flags
  have h0 := Bool.toNat_le (flags.getLsbD 0)
  have h1 := Bool.toNat_le (flags.getLsbD 1)
  have h2 : 8 * c.tocEntries * (flags.getLsbD 2).toNat ≤ 8 * c.tocEntries :=
    (Nat.mul_le_mul_left _ (Bool.toNat_le _)).trans_eq (Nat.mul_one _)
  simp (disch := omega) only [h.bits_eq, h.tocRegs_eq]

/-- The same tag fits, and leaves the same registers for the LAME check. -/
theorem SameTag.parseTag_some {f : FrameContext} {l : Nat} {r : SeekRegs} (hr : parseTag c v f t l = some r)
    (hk : r.status.kind = .xing ∨ r.status.kind = .info ∨ r.status.kind = .lame) :
    ∃ r0 : SeekRegs, r0.status.lameState = .absent ∧ r = lameCheck c v f r0 ∧
      parseTag c w f t l = some (lameCheck c w f r0) := by
  obtain ⟨r0, hr0, -, -, habs, ⟨hx, rfl⟩ | ⟨hl, rfl⟩⟩ := parseTag_lame hr hk
  · have hv := parseTag_xing f hx rfl
    have hw := parseTag_xing (v := w) f hx (h.tagKindAt_eq l).symm
    rw [← h.xingLength_eq, ← h.xingRegs_eq] at hw
    refine ⟨_, habs, hr0, hw.trans (if_neg fun hfit => ?_)⟩
    rw [hv, if_pos hfit] at hr
    cases hr
  · refine ⟨_, habs, hr0, ?_⟩
    rw [parseTag, ← h.tagKindAt_eq, hl]

end

/-! ### A rejected LAME block (R520, R522, R550) -/

theorem findVbri_lameState {c : Config} {v : BitView} {f : FrameContext} {r : SeekRegs}
    (h : findVbri c v f = some r) : r.status.lameState = .absent := by
  unfold findVbri parseVbri at h
  dsimp only at h
  split_ifs at h <;> cases h <;> rfl

/-- Only a Xing, Info or LAME magic leads to a LAME check (R500). -/
theorem parseTag_kind_of_lame {c : Config} {v : BitView} {f : FrameContext} {t l : Nat} {r : SeekRegs}
    (h : parseTag c v f t l = some r) (hl : r.status.lameState ≠ .absent) :
    r.status.kind = .xing ∨ r.status.kind = .info ∨ r.status.kind = .lame := by
  unfold parseTag at h
  split at h
  · obtain ⟨r', -, rfl⟩ := Option.map_eq_some_iff.1 h
    exact .inl (lameCheck_frame ..).1
  · obtain ⟨r', -, rfl⟩ := Option.map_eq_some_iff.1 h
    exact .inr (.inl (lameCheck_frame ..).1)
  · cases h
    exact .inr (.inr (lameCheck_frame ..).1)
  · exact absurd (findVbri_lameState h) hl
  · exact absurd (findVbri_lameState h) hl

section
variable {c : Config} {v w : BitView} {f : FrameContext}

/-- An accepted block is there, and its two CRC words agree. -/
theorem lameCheck_accepts {r : SeekRegs} (habs : r.status.lameState = .absent)
    (h : (lameCheck c v f r).status.lameState = .valid) : ¬f.NoLame c ∧ lameCrc c v f = lameStored v f := by
  by_cases hno : f.NoLame c
  · rw [lameCheck_absent r hno, habs] at h
    cases h
  · refine ⟨hno, by_contra fun hd => ?_⟩
    rw [lameCheck_badCrc r hno hd] at h
    cases h

/-- Accepting and rejecting a block differ outside the LAME registers in LAME_STATE alone. -/
theorem lameCheck_rejects (r : SeekRegs) (hno : ¬f.NoLame c) (hv : lameCrc c v f = lameStored v f)
    (hw : lameCrc c w f ≠ lameStored w f) :
    ∃ lame enc, lameCheck c w f r = { lameCheck c v f r with
      lame := lame, enc := enc, status := { (lameCheck c v f r).status with lameState := .badCrc } } := by
  rw [lameCheck_valid r hno hv, lameCheck_badCrc r hno hw]
  exact ⟨_, _, rfl⟩

end

/-- The views differ in byte `a`, and nowhere else. -/
structure DifferInByte (v w : BitView) (a : Nat) : Prop where
  byte : bits v (8 * a) 8 ≠ bits w (8 * a) 8
  same : ∀ b, b / 8 ≠ a → v b = w b

/-- A change of one byte of the memory, as the views of SM_PARSE see it. -/
theorem State.differInByte {s t : State} {a : Nat} (ha : t.byteAt a ≠ s.byteAt a)
    (hsame : ∀ b, b ≠ a → t.byteAt b = s.byteAt b) : DifferInByte s.bitAt t.bitAt a where
  byte := by
    rw [bitAt_byte, bitAt_byte]
    exact fun he => ha (BitVec.eq_of_toNat_eq he.symm)
  same b hb := by rw [State.bitAt, State.bitAt, hsame _ hb]

section
variable {c : Config} {v w : BitView} {f : FrameContext} {a : Nat} (h : DifferInByte v w a)
include h

theorem DifferInByte.sameTag {t : Nat} (ha : 8 * a + 8 ≤ t ∨ t + 160 + 8 * c.tocEntries ≤ 8 * a) :
    SameTag c v w t :=
  fun b _ _ => h.same b (by omega)

/-- A byte of the span is a burst of 8 bits. -/
theorem DifferInByte.lameCrc_ne (hp : c.crcPoly.getLsbD 0 = true) (hlo : f.start ≤ a)
    (hhi : a < f.start + f.span) : lameCrc c v f ≠ lameCrc c w f := by
  have hspan : 8 * f.span = 8 * (a - f.start) + 8 + 8 * (f.start + f.span - a - 1) := by omega
  have ha : 8 * f.start + 8 * (a - f.start) = 8 * a := by omega
  rw [lameCrc, lameCrc, hspan]
  exact crc16_ne_of_burst hp _ (by decide) (fun i _ => h.same _ (by omega)) (by rw [ha]; exact h.byte)
    fun i _ => h.same _ (by omega)

/-- The stored CRC lies behind the span. -/
theorem DifferInByte.lameStored_eq (hhi : a < f.start + f.span) : lameStored v f = lameStored w f := by
  rw [lameStored, lameStored, bytes, bytes, bits_congr fun i _ => h.same _ (by omega)]

/-- A block accepted before is rejected after a byte of the span changed. -/
theorem DifferInByte.lameCheck_badCrc {r : SeekRegs} (hp : c.crcPoly.getLsbD 0 = true) (hlo : f.start ≤ a)
    (hhi : a < f.start + f.span) (habs : r.status.lameState = .absent)
    (hv : (lameCheck c v f r).status.lameState = .valid) :
    ∃ lame enc, lameCheck c w f r = { lameCheck c v f r with
      lame := lame, enc := enc, status := { (lameCheck c v f r).status with lameState := .badCrc } } := by
  obtain ⟨hno, hcrc⟩ := lameCheck_accepts habs hv
  have hw : lameCrc c w f ≠ lameStored w f := by
    rw [← h.lameStored_eq hhi, ← hcrc]
    exact (h.lameCrc_ne hp hlo hhi).symm
  exact lameCheck_rejects r hno hcrc hw

end

/-- The first 34 bytes of a block end with the span (R172, R503). -/
theorem State.SpecConfig.lameBlock_in_span {s : State} (hs : s.SpecConfig) {a : Nat}
    (hlo : s.sc.thisPtr.toNat + (if s.hdr.fields.getLsbD 2 then 175 else 190) - 34 ≤ a)
    (hhi : a < s.sc.thisPtr.toNat + (if s.hdr.fields.getLsbD 2 then 175 else 190) - 34 + 34) :
    s.frameContext.start ≤ a ∧ a < s.frameContext.start + s.frameContext.span := by
  have hstart : s.frameContext.start = s.sc.thisPtr.toNat := rfl
  rw [hs.frameContext_span, hstart]
  split at hlo <;> omega

/-- Settles O60: the tag's fields and the stored CRC are as before, and the changed byte is a burst of 8 bits in the span. -/
theorem lameByteMutationRejectsTheBlock : Obligations.LameByteMutationRejectsTheBlock := by
  intro s t m a hs hx hok hvalid span block hlo hhi houtside hbyte hsame
  cases ended_of_exec hx with
  | smParseMalformed => cases hok
  | smParseFault => cases hok
  | smParse hl hp =>
    rw [State.complete_sm] at hvalid ⊢
    have hd : DifferInByte s.bitAt ({ s with mem := m } : State).bitAt a := State.differInByte hbyte hsame
    have htag : SameTag s.cfg s.bitAt ({ s with mem := m } : State).bitAt s.arg0.toNat :=
      hd.sameTag (by rw [hs.tocEntries]; exact houtside)
    obtain ⟨r, habs, rfl, hp'⟩ := htag.parseTag_some hp (parseTag_kind_of_lame hp (by rw [hvalid]; decide))
    obtain ⟨hfirst, hlast⟩ := hs.lameBlock_in_span hlo hhi
    obtain ⟨lame, enc, hr⟩ := hd.lameCheck_badCrc (by rw [hs.crcPoly]; decide) hfirst hlast habs hvalid
    refine ⟨_, exec_smParse_some (s := { s with mem := m }) hl hp', rfl, ?_⟩
    dsimp only
    rw [hr]
    exact ⟨rfl, rfl, rfl, rfl, rfl, rfl⟩

end Sys2Proof.Machine
end

section
/-! SUPPORT. The command that belongs to no unit: the one legal word with OP 0, and what NOP writes (R133, R134, R600). -/

namespace Sys2Proof

/-- With OP 0 neither immediate is used, so every field of a legal word is 0 (R134 (b), (c), (e)). -/
theorem LegalFields.eq_zero {w : Word} (h : LegalFields w) (hop : (opField w).toNat = 0) : w = 0 :=
  (commandWord_eq (op := 0) h.reserved hop (h.unusedN (by simp [hop])) (h.imm (by simp [hop]))).symm

namespace Machine

/-- Settles O21: a legal word with OP 0 has legal fields, so it is 0; NOP is the shared OK ending alone. -/
theorem nopOnlyResetsTheCode : Obligations.NopOnlyResetsTheCode := by
  refine ⟨decode_encode (i := .nop) rfl, fun w i hw hop hi => ?_, fun s => congrArg Host.Outcome.next s.complete_eq⟩
  have hfields : LegalFields w := decode_ok_iff.1 ⟨i, hi⟩
  exact hw (hfields.eq_zero ((opField_toNat w).trans hop))

end Machine

end Sys2Proof
end

section
/-! SUPPORT. The outcome codes each command can end with (R700, R702). -/

namespace Sys2Proof

/-- R700's table read by command: the codes other than OK that a command can end with. -/
def Instr.errorCodes : Instr → List Machine.Code
  | .brSet | .brRead _ | .brSkip | .brCrc _ => [.accessFault]
  | .fhDecode => [.accessFault, .badLayer, .badBitrate, .badSampleRate]
  | .fhFramelen | .scSetbuf | .scExtend => [.illegalCommand]
  | .scNext => [.needMoreData, .lostSync, .badLayer, .badBitrate, .badSampleRate]
  | .smParse => [.accessFault, .malformed]
  | .nop | .brPos | .brMark | .brDist | .scSetskip => []

namespace Machine

section
variable {s t : State} {i : Instr}

/-- The commands that decode a header can end with each of its errors. -/
theorem HeaderError.code_mem_errorCodes (e : HeaderError) :
    e.code ∈ Instr.fhDecode.errorCodes ∧ e.code ∈ Instr.scNext.errorCodes := by
  cases e <;> decide

/-- Outside the invariant SC_NEXT can also end AccessFault (log 8). -/
theorem NextEnded.code_mem (h : NextEnded s t) :
    t.status.code = .ok ∨ t.status.code = .accessFault ∨ t.status.code ∈ Instr.scNext.errorCodes := by
  cases h with
  | committed => exact .inl rfl
  | faulted => exact .inr (.inl rfl)
  | @headerError p e => exact .inr (.inr e.code_mem_errorCodes.2)
  | skipWaits | searchWaits | probeWaits | frameWaits => exact .inr (.inr (.head _))
  | searchLost | probeLost => exact .inr (.inr (.tail _ (.head _)))

/-- A well-formed command other than SC_NEXT ends OK or with a code of its list, from any state. -/
theorem Ended.code_mem_of_ne_scNext (h : Ended s i t) (hw : i.wf = true) (hi : i ≠ .scNext) :
    t.status.code = .ok ∨ t.status.code ∈ i.errorCodes := by
  cases h with
  | scNext => exact absurd rfl hi
  | brReadIllegal hn => exact absurd (of_decide_eq_true hw) (not_le.2 hn)
  | @fhDecodeError e => exact .inr e.code_mem_errorCodes.1
  | smParseMalformed => exact .inr (.tail _ (.head _))
  | brSetFault | brReadFault | brSkipFault | brCrcFault | fhDecodeFault | smParseFault => exact .inr (.head _)
  | fhFramelenNoLayer | fhFramelenBadArgs | fhFramelenTooLong | scSetbufIllegal | scExtendIllegal =>
    exact .inr (.head _)
  | _ => exact .inl rfl

/-- From a state of the invariant SC_NEXT never ends AccessFault (R441), so every well-formed command keeps to its list. -/
theorem exec_code_mem (hs : s.Inv) (hw : i.wf = true) (hx : exec i s = .next t) :
    t.status.code = .ok ∨ t.status.code ∈ i.errorCodes := by
  by_cases hi : i = .scNext
  · subst hi
    obtain ⟨-, hfault⟩ := scNextNeverReadsPastTheWindow s t s.mem hs (fun _ _ => rfl) hx
    exact (nextEnded_of_exec hx).code_mem.imp_right fun h => h.resolve_left hfault
  · exact (ended_of_exec hx).code_mem_of_ne_scNext hw hi

end

/-- Settles O20: the code is in the command's list (`exec_code_mem`), and the lists read by code are R700's table. -/
theorem eachCodeComesFromItsCommands : Obligations.EachCodeComesFromItsCommands := by
  intro i s t hs hw hx
  have hmem : ∀ c, c ≠ .ok → t.status.code = c → c ∈ i.errorCodes := by
    rintro _ hok rfl
    exact (exec_code_mem hs hw hx).resolve_left hok
  and_intros
  all_goals
    intro hc
    have hlisted := hmem _ (by decide) hc
    cases i <;> simp [Instr.errorCodes] at hlisted ⊢

end Machine

end Sys2Proof
end

section
/-! SUPPORT. Reset and the bit-cache hazard: what every register reads after reset, what the first SC_NEXT and SM_PARSE answer, and when an overwritten byte is remembered and forgotten (R800 to R802, R820). -/

namespace Sys2Proof.Machine

/-! ### Every register reads 0 (R800) -/

theorem readArray_replicate_zero (n i : Nat) : readArray (Vector.replicate n (0 : Byte)) i = 0 := by
  rcases Nat.lt_or_ge i n with h | h
  · rw [readArray_of_lt _ h, Vector.getElem_replicate]
    rfl
  · exact readArray_of_le _ h

/-- STATUS and SM_STATUS are packed words of no code, no tag and no flag; every other register is a 0 of the reset state. -/
theorem State.readFixed_resetOf (c : Config) (o : Nat) : (State.resetOf c).readFixed o = 0 := by
  unfold State.readFixed
  split
  case h_4 => exact (by decide : Status.toWord { code := .ok, fault := false, ill := false } = 0)
  case h_23 => exact (by decide : SeekStatus.zero.toWord = 0)
  all_goals rfl

theorem State.readRegister_resetOf (c : Config) (o : Offset) : (State.resetOf c).readRegister o = 0 := by
  rcases Nat.lt_or_ge o.toNat 0x100 with h1 | h1
  · rw [State.readRegister_fixed _ h1, State.readFixed_resetOf]
  · rcases Nat.lt_or_ge o.toNat 0x200 with h2 | h2
    · rw [State.readRegister_enc _ h1 h2]
      exact readArray_replicate_zero 9 _
    · rw [State.readRegister_toc _ h2]
      exact readArray_replicate_zero 100 _

/-- The reset input leaves every register as the reset state has it; what it keeps is no register (log 10). -/
theorem State.readRegister_hostReset (s : State) (o : Offset) : s.hostReset.readRegister o = 0 :=
  State.readRegister_resetOf s.cfg o

/-! ### The first SC_NEXT and SM_PARSE (R423, R505, R530) -/

/-- The empty window holds no full guard, so there is no sync point. -/
theorem exec_scNext_resetOf {c : Config} (hc : c.wf) :
    ∃ t, exec .scNext (State.resetOf c) = .next t ∧ t.status.code = .needMoreData := by
  have ⟨_, _, hguard, _⟩ := hc
  have hno (q : Nat) (h : q + c.guardBytes ≤ 0) : (State.resetOf c).syncAt q = false := by omega
  exact ⟨_, unsyncedScanWithoutASyncPointNeedsMoreData _ (resetOf_inv hc) le_rfl rfl fun q _ => hno q, rfl⟩

/-- Without a decoded frame there is no VBRI tag to look for (R503, R530). -/
theorem findVbri_of_size_zero {c : Config} {f : FrameContext} (v : BitView) (h : f.size = 0) :
    findVbri c v f = some .zero :=
  if_pos (.inl (by omega))

/-- No header has been decoded, so there is no frame (R503). -/
theorem frameContext_size_resetOf (c : Config) : (State.resetOf c).frameContext.size = 0 :=
  if_neg (by decide : ¬HeaderRegs.zero.valid = true)

/-- No bits and no frame: no tag. -/
theorem exec_smParse_resetOf (c : Config) :
    ∃ t, exec .smParse (State.resetOf c) = .next t ∧ t.status.code = .ok ∧ t.sm.status.kind = .none := by
  have hkind : tagKindAt c (State.resetOf c).bitAt 0 0 = .none := if_pos (by decide)
  have hparse := (parseTag_none (State.resetOf c).frameContext hkind).trans
    (findVbri_of_size_zero _ (frameContext_size_resetOf c))
  exact ⟨_, exec_smParse_some (s := State.resetOf c) (Nat.zero_le _) hparse, rfl, rfl⟩

/-- Settles O10: the registers one by one, the pointers and the cursor by the invariant at reset. -/
theorem resetStateAsStated : Obligations.ResetStateAsStated := by
  intro c hc
  have hinv := resetOf_inv hc
  exact ⟨State.readRegister_resetOf c, rfl, hinv.pointers, hinv.cursors, exec_scNext_resetOf hc, exec_smParse_resetOf c⟩

/-- Settles O11: the step is `State.hostReset`. -/
theorem resetInputClearsEveryRegister : Obligations.ResetInputClearsEveryRegister := fun s rest hs =>
  ⟨State.hostReset { s with host := rest }, step_pending hs, State.readRegister_hostReset _, rfl, rfl, rfl, rfl⟩

/-! ### The bit-cache hazard (R820) -/

/-- The bytes the bit cache may hold are the two at the cursor. -/
theorem State.cacheWindow_eq_true {s : State} {a : Nat} :
    s.cacheWindow a = true ↔ a = s.br.pos.toNat / 8 ∨ a = s.br.pos.toNat / 8 + 1 := by
  simp [State.cacheWindow, State.cursor]

section
variable {s t : State} {i : Instr}

/-- Only the commit of SC_NEXT loads the cursor, and only the commit ends OK (R427). -/
theorem NextEnded.stale (h : NextEnded s t) : t.stale = if t.status.code = .ok then [] else s.stale := by
  cases h with
  | committed => rfl
  | @headerError p e => exact (if_neg e.code_ne_ok).symm
  | _ => rfl

/-- A command that does not load the cursor leaves the bit cache as it is. -/
theorem Ended.stale (h : Ended s i t) (hset : i ≠ .brSet) (hnext : i ≠ .scNext) : t.stale = s.stale := by
  cases h with
  | brSet => exact absurd rfl hset
  | scNext => exact absurd rfl hnext
  | _ => rfl

/-- BR_SET loads the cursor unless it faults (R220). -/
theorem Ended.brSet_stale (h : Ended s .brSet t) : t.stale = if t.status.code = .ok then [] else s.stale := by
  cases h <;> rfl

end

/-- Settles O23: the beginning is `State.writeByte`'s, the end that of the two commands that load the cursor. -/
theorem hazardLastsUntilTheCursorIsLoaded : Obligations.HazardLastsUntilTheCursorIsLoaded := by
  refine ⟨fun s rest a v hs ha => ?_, fun i s t hx => ?_⟩
  · exact ⟨_, (step_pending hs).trans (hostStep_writeBuf ha), if_congr State.cacheWindow_eq_true rfl rfl⟩
  · have h := ended_of_exec hx
    by_cases hload : i = .brSet ∨ i = .scNext
    · simp only [hload, and_true]
      rcases hload with rfl | rfl
      · exact h.brSet_stale
      · exact (nextEnded_of_exec hx).stale
    · obtain ⟨hset, hnext⟩ := not_or.1 hload
      rw [if_neg fun hok => hload hok.2, h.stale hset hnext]

end Sys2Proof.Machine
end
